-- ==== Sys2Proof/Word.lean ====
section
/-! DEFINITION. The machine's word types: 00_scope.md R11 (all quantities are unsigned), R12. -/

namespace Sys2Proof

/-- One byte of the request port or of the serial line (20_memory.md R92). -/
abbrev Byte := BitVec 8

/-- A 16-bit operand: a coordinate, an extent or a colour (30_encoding.md R124). -/
abbrev Word := BitVec 16

/-- One raw sample of the ADC, `ADC_BITS` = 11 bits wide (10_state.md R30, R55). -/
abbrev Sample := BitVec 11

end Sys2Proof
end

