-- ==== Sys2Proof/Syntax.lean ====
section
/-! DEFINITION. The instructions: the six requests of the set RQ-1 (30_encoding.md R130) and the 21 panel commands
(44_panel_commands.md R260-R280), one constructor per row of the opcode table; and the two forms in which they travel. -/

namespace Sys2Proof

/-- The level of command/data-select (10_state.md R48): 0 is command, 1 is data. -/
inductive CdLevel where
  | cmd
  | data
deriving DecidableEq, Repr

/-- One byte of a frame with the command/data-select level in force when it was shifted (00_scope.md R16). -/
abbrev FrameByte := CdLevel × Byte

/-- An instruction: a host request, or a command the panel receives as one frame with its data bytes. -/
inductive Instr where
  /-- SEND (41_transport.md R166): frame `opc` with `payload`. -/
  | send (opc : Byte) (payload : List Byte)
  /-- INIT (42_display_driver.md R191). -/
  | init
  /-- SET_WINDOW (42_display_driver.md R200). -/
  | setWindow (x0 y0 x1 y1 : Word)
  /-- DRAW_RECT (42_display_driver.md R211): corner, width, height, colour. -/
  | drawRect (x y w h c : Word)
  /-- FILL_SCREEN (42_display_driver.md R220). -/
  | fillScreen (c : Word)
  /-- MAP (43_input_mapper.md R232). -/
  | map
  | swreset (data : List Byte)
  | slpout (data : List Byte)
  | invoff (data : List Byte)
  | caset (data : List Byte)
  | raset (data : List Byte)
  | ramwr (data : List Byte)
  | colmod (data : List Byte)
  | madctl (data : List Byte)
  | frmctr1 (data : List Byte)
  | frmctr2 (data : List Byte)
  | invctr (data : List Byte)
  | pwctr1 (data : List Byte)
  | pwctr2 (data : List Byte)
  | pwctr3 (data : List Byte)
  | pwctr4 (data : List Byte)
  | pwctr5 (data : List Byte)
  | vmctr1 (data : List Byte)
  | gmctrp1 (data : List Byte)
  | gmctrn1 (data : List Byte)
  | noron (data : List Byte)
  | dispon (data : List Byte)
deriving DecidableEq, Repr

/-- What carries an instruction: the byte string of the request port (30_encoding.md R120), or one frame of the panel
port (30_encoding.md R132). The byte 0x01 begins an instruction on each (log 2). -/
inductive Wire where
  | request (bytes : List Byte)
  | frame (bytes : List FrameByte)
deriving DecidableEq, Repr

end Sys2Proof
end

