-- ==== Sys2Proof/WellFormed.lean ====
section
/-! DEFINITION. Which instructions the encodings can spell: a command's payload has 0 to 16 bytes (00_scope.md R17,
30_encoding.md R126, R133); the pixel stream after RAMWR has no such limit (90_conflicts.md C3). -/

namespace Sys2Proof

/-- `MAX_PAYLOAD`, the largest command payload (00_scope.md R8). -/
def maxPayload : Nat := 16

/-- A payload within the limit of a command (30_encoding.md R133). -/
abbrev PayloadFits (p : List Byte) : Prop := p.length ≤ maxPayload

/-- An instruction an encoding can spell. -/
def Instr.wellFormed : Instr → Bool
  | .send _ payload => decide (PayloadFits payload)
  | .init => true
  | .setWindow _ _ _ _ => true
  | .drawRect _ _ _ _ _ => true
  | .fillScreen _ => true
  | .map => true
  | .swreset data => decide (PayloadFits data)
  | .slpout data => decide (PayloadFits data)
  | .invoff data => decide (PayloadFits data)
  | .caset data => decide (PayloadFits data)
  | .raset data => decide (PayloadFits data)
  | .ramwr _ => true
  | .colmod data => decide (PayloadFits data)
  | .madctl data => decide (PayloadFits data)
  | .frmctr1 data => decide (PayloadFits data)
  | .frmctr2 data => decide (PayloadFits data)
  | .invctr data => decide (PayloadFits data)
  | .pwctr1 data => decide (PayloadFits data)
  | .pwctr2 data => decide (PayloadFits data)
  | .pwctr3 data => decide (PayloadFits data)
  | .pwctr4 data => decide (PayloadFits data)
  | .pwctr5 data => decide (PayloadFits data)
  | .vmctr1 data => decide (PayloadFits data)
  | .gmctrp1 data => decide (PayloadFits data)
  | .gmctrn1 data => decide (PayloadFits data)
  | .noron data => decide (PayloadFits data)
  | .dispon data => decide (PayloadFits data)

end Sys2Proof
end

