-- ==== Sys2Proof/Decode.lean ====
section
/-! DEFINITION. The two decoders and the encoder: 30_encoding.md R120-R136 and R140. Decoding is total on any bytes and
rejects by name. -/

namespace Sys2Proof

/-! ## Byte order (00_scope.md R13, 20_memory.md R86-R88) -/

/-- `be16(a, b)`: `a` is the high byte. -/
def be16 (a b : Byte) : Word := a ++ b

/-- `hi8(v)`, bits 15 to 8. -/
def hi8 (v : Word) : Byte := v.extractLsb' 8 8

/-- `lo8(v)`, bits 7 to 0. -/
def lo8 (v : Word) : Byte := v.extractLsb' 0 8

/-! ## Requests -/

/-- Why a byte string or a frame is no instruction. -/
inductive DecodeError where
  /-- The request's bytes stop before its length (30_encoding.md R122). -/
  | incomplete
  /-- More bytes than the request's length. -/
  | trailing
  /-- A request op byte outside 0x01..0x06 (30_encoding.md R131). -/
  | illegalOp (op : Byte)
  /-- A SEND whose LEN byte is over 16 (30_encoding.md R131). -/
  | sendLength (len : Byte)
  /-- A frame with no byte in it. -/
  | emptyFrame
  /-- A frame whose first byte is no command byte (20_memory.md R108). -/
  | noCommandByte
  /-- A frame with a command byte after its first (30_encoding.md R132). -/
  | secondCommandByte
  /-- A frame whose opcode is none of the table's (20_memory.md R108). -/
  | unknownOpcode (op : Byte)
deriving DecidableEq, Repr

/-- FAULT_CAUSE (10_state.md R50). The reserved value 3 has no constructor (93_implementation_defined.md I17). -/
inductive FaultCause where
  | none
  /-- Cause 1 (60_exceptions.md R301). -/
  | illegalOp
  /-- Cause 2 (60_exceptions.md R301). -/
  | sendLen
deriving DecidableEq, Repr

/-- A request op byte the map of 30_encoding.md R130 defines. -/
def isRequestOp (op : Byte) : Bool := decide (1 ≤ op.toNat ∧ op.toNat ≤ 6)

/-- `rq_len` (30_encoding.md R122): the length of the request these bytes begin, `none` while it is not yet known. -/
def requestLength : List Byte → Option Nat
  | 0x01#8 :: _ :: len :: _ => some (3 + len.toNat)
  | 0x02#8 :: _ => some 1
  | 0x03#8 :: _ => some 9
  | 0x04#8 :: _ => some 11
  | 0x05#8 :: _ => some 3
  | 0x06#8 :: _ => some 1
  | _ => none

/-- The fault the last of these bytes raises (30_encoding.md R121, R131): cause 1 is looked for at the first byte only,
cause 2 at the third byte of a SEND only (60_exceptions.md R304). -/
def spellingFault : List Byte → Option FaultCause
  | [op] => if isRequestOp op then .none else some .illegalOp
  | [op, _, len] => if op = 0x01 ∧ maxPayload < len.toNat then some .sendLen else .none
  | _ => .none

/-- SEND's operands (30_encoding.md R126). -/
def decodeSend : List Byte → Except DecodeError Instr
  | opc :: len :: p =>
    if maxPayload < len.toNat then .error (.sendLength len)
    else if p.length < len.toNat then .error .incomplete
    else if len.toNat < p.length then .error .trailing
    else .ok (.send opc p)
  | _ => .error .incomplete

/-- A request with no operand (30_encoding.md R125). -/
def decodeBare (i : Instr) : List Byte → Except DecodeError Instr
  | [] => .ok i
  | _ :: _ => .error .trailing

/-- SET_WINDOW's operands (30_encoding.md R127). -/
def decodeSetWindow : List Byte → Except DecodeError Instr
  | [x0H, x0L, y0H, y0L, x1H, x1L, y1H, y1L] =>
    .ok (.setWindow (be16 x0H x0L) (be16 y0H y0L) (be16 x1H x1L) (be16 y1H y1L))
  | bs => .error (if bs.length < 8 then .incomplete else .trailing)

/-- DRAW_RECT's operands (30_encoding.md R128). -/
def decodeDrawRect : List Byte → Except DecodeError Instr
  | [xH, xL, yH, yL, wH, wL, hH, hL, cH, cL] =>
    .ok (.drawRect (be16 xH xL) (be16 yH yL) (be16 wH wL) (be16 hH hL) (be16 cH cL))
  | bs => .error (if bs.length < 10 then .incomplete else .trailing)

/-- FILL_SCREEN's operand (30_encoding.md R129). -/
def decodeFillScreen : List Byte → Except DecodeError Instr
  | [cH, cL] => .ok (.fillScreen (be16 cH cL))
  | bs => .error (if bs.length < 2 then .incomplete else .trailing)

/-- One complete request (30_encoding.md R130, R140). -/
def decodeRequest : List Byte → Except DecodeError Instr
  | [] => .error .incomplete
  | 0x01#8 :: args => decodeSend args
  | 0x02#8 :: args => decodeBare .init args
  | 0x03#8 :: args => decodeSetWindow args
  | 0x04#8 :: args => decodeDrawRect args
  | 0x05#8 :: args => decodeFillScreen args
  | 0x06#8 :: args => decodeBare .map args
  | op :: _ => .error (.illegalOp op)

/-! ## Panel frames -/

/-- The panel command an opcode names (44_panel_commands.md R260-R280), with its data bytes. -/
def panelCommand (op : Byte) (data : List Byte) : Option Instr :=
  match op with
  | 0x01#8 => some (.swreset data)
  | 0x11#8 => some (.slpout data)
  | 0x20#8 => some (.invoff data)
  | 0x2A#8 => some (.caset data)
  | 0x2B#8 => some (.raset data)
  | 0x2C#8 => some (.ramwr data)
  | 0x3A#8 => some (.colmod data)
  | 0x36#8 => some (.madctl data)
  | 0xB1#8 => some (.frmctr1 data)
  | 0xB2#8 => some (.frmctr2 data)
  | 0xB4#8 => some (.invctr data)
  | 0xC0#8 => some (.pwctr1 data)
  | 0xC1#8 => some (.pwctr2 data)
  | 0xC2#8 => some (.pwctr3 data)
  | 0xC3#8 => some (.pwctr4 data)
  | 0xC4#8 => some (.pwctr5 data)
  | 0xC5#8 => some (.vmctr1 data)
  | 0xE0#8 => some (.gmctrp1 data)
  | 0xE1#8 => some (.gmctrn1 data)
  | 0x13#8 => some (.noron data)
  | 0x29#8 => some (.dispon data)
  | _ => none

/-- One frame (30_encoding.md R132): a command byte, then data bytes only. -/
def decodeFrame : List FrameByte → Except DecodeError Instr
  | [] => .error .emptyFrame
  | (.data, _) :: _ => .error .noCommandByte
  | (.cmd, op) :: rest =>
    if rest.all (fun b => b.1 == .data) then
      match panelCommand op (rest.map (fun b => b.2)) with
      | some i => .ok i
      | none => .error (.unknownOpcode op)
    else .error .secondCommandByte

/-- The decoder of both layers. -/
def decode : Wire → Except DecodeError Instr
  | .request bytes => decodeRequest bytes
  | .frame bytes => decodeFrame bytes

/-! ## A stream of request bytes (30_encoding.md R140) -/

/-- How a byte string ends after its complete requests. -/
inductive StreamEnd where
  | clean
  | incompleteTail
  /-- The rest of the string, after the byte at `index`, is discarded. -/
  | fault (cause : FaultCause) (index : Nat)
deriving DecidableEq, Repr

/-- What a byte string spells. -/
structure Stream where
  requests : List Instr
  ending : StreamEnd
deriving DecidableEq, Repr

/-- `decodeStream` with the bytes already `held` of the current request and the `index` of the next byte. -/
def decodeStreamFrom (held : List Byte) (index : Nat) : List Byte → Stream
  | [] => ⟨[], if held = [] then .clean else .incompleteTail⟩
  | b :: bs =>
    match spellingFault (held ++ [b]) with
    | some cause => ⟨[], .fault cause index⟩
    | none =>
      match decodeRequest (held ++ [b]) with
      | .ok i =>
        let rest := decodeStreamFrom [] (index + 1) bs
        ⟨i :: rest.requests, rest.ending⟩
      | .error _ => decodeStreamFrom (held ++ [b]) (index + 1) bs

/-- The total decoder of a byte string into requests. -/
def decodeStream (bytes : List Byte) : Stream := decodeStreamFrom [] 0 bytes

/-! ## The encoder -/

/-- The frame of opcode `op` with `data` (30_encoding.md R132). -/
def frameOf (op : Byte) (data : List Byte) : List FrameByte :=
  (.cmd, op) :: data.map (fun b => (.data, b))

/-- The two bytes of a 16-bit operand (30_encoding.md R124). -/
def operandBytes (v : Word) : List Byte := [hi8 v, lo8 v]

/-- The words of an instruction. -/
def encode : Instr → Wire
  | .send opc payload => .request (0x01 :: opc :: BitVec.ofNat 8 payload.length :: payload)
  | .init => .request [0x02]
  | .setWindow x0 y0 x1 y1 =>
    .request (0x03 :: (operandBytes x0 ++ operandBytes y0 ++ operandBytes x1 ++ operandBytes y1))
  | .drawRect x y w h c =>
    .request (0x04 :: (operandBytes x ++ operandBytes y ++ operandBytes w ++ operandBytes h ++ operandBytes c))
  | .fillScreen c => .request (0x05 :: operandBytes c)
  | .map => .request [0x06]
  | .swreset data => .frame (frameOf 0x01 data)
  | .slpout data => .frame (frameOf 0x11 data)
  | .invoff data => .frame (frameOf 0x20 data)
  | .caset data => .frame (frameOf 0x2A data)
  | .raset data => .frame (frameOf 0x2B data)
  | .ramwr data => .frame (frameOf 0x2C data)
  | .colmod data => .frame (frameOf 0x3A data)
  | .madctl data => .frame (frameOf 0x36 data)
  | .frmctr1 data => .frame (frameOf 0xB1 data)
  | .frmctr2 data => .frame (frameOf 0xB2 data)
  | .invctr data => .frame (frameOf 0xB4 data)
  | .pwctr1 data => .frame (frameOf 0xC0 data)
  | .pwctr2 data => .frame (frameOf 0xC1 data)
  | .pwctr3 data => .frame (frameOf 0xC2 data)
  | .pwctr4 data => .frame (frameOf 0xC3 data)
  | .pwctr5 data => .frame (frameOf 0xC4 data)
  | .vmctr1 data => .frame (frameOf 0xC5 data)
  | .gmctrp1 data => .frame (frameOf 0xE0 data)
  | .gmctrn1 data => .frame (frameOf 0xE1 data)
  | .noron data => .frame (frameOf 0x13 data)
  | .dispon data => .frame (frameOf 0x29 data)

/-! ## The opcode table's words -/

/-- The bytes of a table word, bit 0 the least significant bit of the first. -/
def tableBytes (nbits w : Nat) : List Byte :=
  (List.range ((nbits + 7) / 8)).map (fun i => BitVec.ofNat 8 (w >>> (8 * i)))

/-- How many data bytes a panel command's encoding always has (30_encoding.md R135): 4 for CASET and RASET. -/
def fixedDataLength (op : Byte) : Nat := if op = 0x2A ∨ op = 0x2B then 4 else 0

/-- What a table word puts on a port, absent bytes zero. DESIGN CHOICE, log 2: a first byte that is a request op byte
goes to the request port; otherwise a panel opcode is a frame. Anything else is a request byte, which spells nothing. -/
def tableWire (nbits w : Nat) : Wire :=
  let given := tableBytes nbits w
  let bytes := given ++ List.replicate 19 0
  match requestLength bytes with
  | some n => .request (bytes.take (if n ≤ 19 then n else 3))
  | none =>
    let op := bytes.headD 0
    match panelCommand op [] with
    | some _ => .frame (frameOf op ((bytes.drop 1).take (max (given.length - 1) (fixedDataLength op))))
    | none => .request [op]

/-- The instruction the decoder reads from a word of the opcode table. -/
def decodeTableWord (nbits w : Nat) : Option Instr := (decode (tableWire nbits w)).toOption

end Sys2Proof
end

