-- ==== Sys2Proof/Config.lean ====
section
/-! DEFINITION. The configuration of 00_scope.md R8, with R9's well-formedness, and the free values of its OPEN
parameters. It is fixed while the block runs (10_state.md R57, 70_reset_and_hazards.md R336). -/

namespace Sys2Proof

/-- `ROUNDING` (43_input_mapper.md R235, R236). -/
inductive Rounding where
  | halfAway
  | halfEven
deriving DecidableEq, Repr

/-- `ZERO_AREA` (42_display_driver.md R215). -/
inductive ZeroArea where
  | emit
  | drop
deriving DecidableEq, Repr

/-- The parameters of 00_scope.md R8, and the panel's two settling times (20_memory.md R104). -/
structure Params where
  /-- `W`. -/
  width : Nat
  /-- `H`. -/
  height : Nat
  /-- `SW`. -/
  spriteWidth : Nat
  /-- `LO`. -/
  clampLo : Nat
  /-- `HI`. -/
  clampHi : Nat
  rounding : Rounding
  /-- `BG`. -/
  background : Word
  /-- `INIT_PAYLOAD[k]`, one entry for each k. -/
  initPayload : List (List Byte)
  delaySwresetMs : Nat
  delaySlpoutMs : Nat
  /-- `CS_ACTIVE`: the level of asserted chip-select. -/
  csActive : Bool
  zeroArea : ZeroArea
  /-- `CLK_HZ`. -/
  clkHz : Nat
  /-- `T_SWRESET_MS`, of the panel. -/
  tSwresetMs : Nat
  /-- `T_SLPOUT_MS`, of the panel. -/
  tSlpoutMs : Nat
deriving DecidableEq, Repr

/-- `N_INIT` (44_panel_commands.md R282). -/
def nInit : Nat := 20

/-- `SCLK_HZ` (41_transport.md R170). -/
def sclkHz : Nat := 4000000

/-- `ADC_BITS` (10_state.md R30); the width of `Sample`. -/
def adcBits : Nat := 11

/-- 00_scope.md R9. -/
abbrev Params.WellFormed (p : Params) : Prop :=
  (1 ≤ p.width ∧ p.width ≤ 65535) ∧ (1 ≤ p.height ∧ p.height ≤ 65535) ∧ p.spriteWidth ≤ p.width ∧
    (p.clampLo < p.clampHi ∧ p.clampHi ≤ 2 ^ adcBits - 1) ∧
    (p.initPayload.length = nInit ∧ ∀ d ∈ p.initPayload, d.length ≤ maxPayload) ∧ 2 * sclkHz ≤ p.clkHz

/-- A configuration: parameters that are well formed. An ill-formed one has no value of this type, which is how the
model refuses it (00_scope.md R9). -/
structure Config extends Params where
  wf : toParams.WellFormed
deriving DecidableEq, Repr

/-- Why parameters are no configuration. -/
inductive ConfigError where
  | illFormed
deriving DecidableEq, Repr

/-- The configuration of these parameters, or the refusal of R9. -/
def Config.ofParams (p : Params) : Except ConfigError Config :=
  if h : p.WellFormed then .ok { toParams := p, wf := h } else .error .illFormed

/-! ## Derived parameters (00_scope.md R8) -/

/-- `R = W - SW`, the mapper's output range. -/
def Config.range (c : Config) : Nat := c.width - c.spriteWidth

/-- `SPAN = HI - LO`. -/
def Config.span (c : Config) : Nat := c.clampHi - c.clampLo

/-! ## The OPEN parameters: free values (log 3)

Nothing in Lean can evaluate these, so what is proved of the reset machine holds for every value of them. -/

/-- `BG`. -/
opaque Config.openBackground : Word

/-- `INIT_PAYLOAD[k]` before it is cut to `MAX_PAYLOAD` bytes. -/
opaque Config.openPayload : Nat → List Byte

/-- How far `CLK_HZ` lies above its least value `2 * SCLK_HZ`. -/
opaque Config.openClockExcess : Nat

/-- `T_SWRESET_MS`. -/
opaque Config.openSwresetMs : Nat

/-- `T_SLPOUT_MS`. -/
opaque Config.openSlpoutMs : Nat

/-- `INIT_PAYLOAD` with the defaults of 92_eei_decisions.md D22 and D23 (44_panel_commands.md R281) and `opened k` for
the 13 OPEN steps. -/
def defaultPayloads (width height : Nat) (opened : Nat → List Byte) : List (List Byte) :=
  let w := BitVec.ofNat 16 (width - 1)
  let h := BitVec.ofNat 16 (height - 1)
  [[], [], opened 2, opened 3, opened 4, opened 5, opened 6, opened 7, opened 8, opened 9, opened 10, [], opened 12,
    opened 13, [0, 0, hi8 w, lo8 w], [0, 0, hi8 h, lo8 h], opened 16, opened 17, [], []]

/-- The reference values of 00_scope.md R8 and its defaults, around the OPEN ones. -/
def referenceParams (background : Word) (opened : Nat → List Byte) (clkHz tSwresetMs tSlpoutMs : Nat) : Params where
  width := 130
  height := 162
  spriteWidth := 24
  clampLo := 250
  clampHi := 774
  rounding := .halfAway
  background := background
  initPayload := defaultPayloads 130 162 opened
  delaySwresetMs := 0
  delaySlpoutMs := 0
  csActive := false
  zeroArea := .emit
  clkHz := clkHz
  tSwresetMs := tSwresetMs
  tSlpoutMs := tSlpoutMs

/-- The reference parameters are well formed whatever the OPEN ones are, within R9. -/
theorem referenceParams_wellFormed (background : Word) (opened : Nat → List Byte) (clkHz t1 t2 : Nat)
    (hp : ∀ k, (opened k).length ≤ maxPayload) (hc : 2 * sclkHz ≤ clkHz) :
    (referenceParams background opened clkHz t1 t2).WellFormed := by
  have hp' : ∀ k, (opened k).length ≤ 16 := hp
  simp [Params.WellFormed, referenceParams, defaultPayloads, nInit, adcBits, maxPayload, hp', hc]

/-- The configuration of the machine at reset. -/
def Config.reference : Config where
  toParams := referenceParams Config.openBackground (fun k => (Config.openPayload k).take maxPayload)
    (2 * sclkHz + Config.openClockExcess) Config.openSwresetMs Config.openSlpoutMs
  wf := referenceParams_wellFormed _ _ _ _ _ (fun _ => List.length_take_le _ _) (Nat.le_add_right _ _)

end Sys2Proof
end

