-- ==== Sys2Proof/Machine/State.lean ====
section
/-! DEFINITION. The machine's state: 10_state.md (the block), 20_memory.md R100 (the panel), 00_scope.md R16 (the trace).
Plain data. -/

namespace Sys2Proof.Machine

/-! ## Events and the trace -/

/-- The level of chip-select as an event names it (00_scope.md R14). -/
inductive CsLevel where
  | act
  | inact
deriving DecidableEq, Repr

/-- An event a request can plan (00_scope.md R14). -/
inductive Event where
  | cs (level : CsLevel)
  | cd (level : CdLevel)
  | byte (b : Byte)
  | wait (ms : Nat)
deriving DecidableEq, Repr

/-- One entry of the trace (00_scope.md R16): an event, or the mark of a reset (70_reset_and_hazards.md R331). -/
inductive TraceItem where
  | event (e : Event)
  | reset
deriving DecidableEq, Repr

/-! ## The plan -/

/-- A micro-operation (10_state.md R43). -/
inductive MicroOp where
  | emit (e : Event)
  | setInitDone (v : Bool)
  | sample
deriving DecidableEq, Repr

/-- The counter that finishing a micro-operation moves (log 8). -/
inductive Mark where
  | plain
  /-- `init_idx <- k + 1` (10_state.md R44). -/
  | initStep (k : Nat)
  /-- `pix_rem` is loaded with `n` (10_state.md R45). -/
  | loadPixels (n : Nat)
  /-- `pix_rem` is decremented (10_state.md R45). -/
  | pixelDone
deriving DecidableEq, Repr

/-- One element of `plan`. -/
structure PlanItem where
  op : MicroOp
  mark : Mark
deriving DecidableEq, Repr

/-- How far the micro-operation at the head of `plan` has got (log 6). The counts are the SCLK divider's: the edges
still to pass before the next line change. -/
inductive Phase where
  /-- Nothing of it has started. -/
  | ready
  /-- A CS or CD change keeps its distance from SCLK (41_transport.md R169). -/
  | gap (left : Nat)
  /-- A bit is on `mosi`, `sclk` is 0 (41_transport.md R168). -/
  | low (left : Nat)
  /-- The bit is being sampled, `sclk` is 1. -/
  | high (left : Nat)
  /-- A WAIT runs (10_state.md R46). -/
  | delay
  /-- `adc_req` is 1 and no sample has come (10_state.md R32). -/
  | adc
  /-- The sample was taken at the last edge (43_input_mapper.md R233). -/
  | sampled (r : Sample)
deriving DecidableEq, Repr

/-! ## The block's top-level state and its inputs -/

/-- `fsm` (10_state.md R39). -/
inductive Fsm where
  | idle
  | assemble
  | exec
  | fault
deriving DecidableEq, Repr

/-- The values of the input ports at one rising edge of `clk` (10_state.md R30), and what the bus does to a byte. -/
structure Inputs where
  rst : Bool
  rqValid : Bool
  rqData : Byte
  adcAck : Bool
  adcData : Sample
  /-- A byte fully shifted at this edge does not reach the panel as it was sent (93_implementation_defined.md I11;
  log 16). -/
  busFault : Bool
deriving DecidableEq, Repr

/-! ## The panel (20_memory.md R100) -/

/-- A truth value of the panel model: T, F or `?`. -/
inductive Tri where
  | yes
  | no
  | unknown
deriving DecidableEq, Repr

/-- The panel's frame memory: (cell number, colour), numbers strictly rising; a cell not listed is `?`. The cell at
column c and row r has the number `r * W + c` (log 10). -/
abbrev FrameMemory := List (Nat × Word)

/-- The panel environment state. A window is its first and last coordinate, or `none` for `?`. -/
structure Panel where
  fm : FrameMemory
  /-- `(xs, xe)`. -/
  cols : Option (Word × Word)
  /-- `(ys, ye)`. -/
  rows : Option (Word × Word)
  awake : Tri
  mode16 : Tri
  orient : Tri
  quiet : Nat
deriving DecidableEq, Repr

/-- The panel at power-on: every field `?`, and `quiet` 0. -/
def Panel.powerOn : Panel where
  fm := []
  cols := none
  rows := none
  awake := .unknown
  mode16 := .unknown
  orient := .unknown
  quiet := 0

/-- What a block reset does to the panel model. Two rules of the spec answer it, and they differ between frames; the machine
follows both, on a panel model each (log 5). -/
inductive ResetRule where
  /-- Every field becomes `?`, and `quiet` 0 (20_memory.md R100). -/
  | forgets
  /-- Only a reset inside a frame changes it (70_reset_and_hazards.md R332). -/
  | keeps
deriving DecidableEq, Repr

/-! ## The state -/

/-- The state of the block and of its panel. -/
structure State where
  /-- The configuration: constant, not state of the block (10_state.md R57; log 3). -/
  cfg : Config
  /-- The input ports' values at the coming edges, the next one first (10_state.md R59; log 1). -/
  inputs : List Inputs
  /-- Whether `rst` was 1 at the last edge (70_reset_and_hazards.md R331; log 4). -/
  rstPrev : Bool
  /-- `rq` (R36). -/
  rq : Vector Byte 19
  /-- `rq_cnt` (R37). -/
  rqCnt : BitVec 5
  /-- `fsm` (R39). -/
  fsm : Fsm
  /-- `plan` (R43). -/
  plan : List PlanItem
  /-- The progress of the head of `plan` (log 6). -/
  phase : Phase
  /-- `init_idx` (R44). -/
  initIdx : BitVec 5
  /-- `pix_rem` (R45). -/
  pixRem : BitVec 32
  /-- `delay_cnt` (R46). -/
  delayCnt : Nat
  /-- `adc_wait` (R47). -/
  adcWait : Bool
  /-- `cs`, the level of `lcd_cs` (R48). -/
  cs : Bool
  /-- `cd`, the level of `lcd_cd` (R48). -/
  cd : Bool
  /-- `sclk` (R48). -/
  sclk : Bool
  /-- `mosi` (R48). -/
  mosi : Bool
  /-- `shreg` (R49): the whole byte, unshifted, also after it has gone out (DESIGN CHOICE, log 17). -/
  shreg : Byte
  /-- `bit_idx` (R49): the number of the bit on `mosi`, 0 after the byte (DESIGN CHOICE, log 17). -/
  bitIdx : BitVec 3
  /-- INIT_DONE (R51). -/
  initDone : Bool
  /-- FAULT_CAUSE (R52). -/
  faultCause : FaultCause
  /-- MAP_VALID (R53). -/
  mapValid : Bool
  /-- `map_pixel` (R54). -/
  mapPixel : Word
  /-- `map_raw` (R55). -/
  mapRaw : Sample
  /-- The trace, newest entry first (00_scope.md R16). -/
  log : List TraceItem
  /-- The bytes of the frame in progress, newest first (00_scope.md R16; log 9). -/
  rx : List FrameByte
  /-- Whether the bus dropped or corrupted a byte of the frame in progress (93_implementation_defined.md I11; log 16).
  Of the panel's side: the block cannot tell (41_transport.md R165). -/
  rxFaulty : Bool
  /-- The places in the trace, counted from 0, of the BYTE events that the bus dropped or corrupted, newest first
  (log 16). -/
  lostBytes : List Nat
  /-- The panel environment as 20_memory.md R100 has it, which a block reset forgets: what the frames since the last reset
  tell of the panel (log 5). -/
  panelSinceReset : Panel
  /-- The panel environment as 70_reset_and_hazards.md R332 has it, which a reset between frames leaves: what all the frames
  tell of the panel (log 5). -/
  panelAcrossResets : Panel
deriving DecidableEq, Repr

/-- Why the machine stops with a fault. The spec's own faults, `Fault(1)` and `Fault(2)`, are no stops: they are next
states with `fsm` = FAULT (60_exceptions.md R302). -/
inductive Fault where
  /-- A byte transferred with `rq_cnt` at 19 or more: `rq` has no such cell (10_state.md R36). Raised by request
  assembly, in states no run reaches. Safe. -/
  | assemblyOverrun
deriving DecidableEq, Repr

/-- Why the machine has no meaning for what it meets. -/
inductive Refusal where
  /-- An instruction whose meaning is not modelled yet. Raised by exec's arms only. Safe. -/
  | notModelled (mnemonic : String)
  /-- The assembled bytes spell no request although no fault was raised when they came (`rq[0]` is no request op byte).
  Raised by request assembly, in states no run reaches. Safe. -/
  | unspelledRequest
deriving DecidableEq, Repr

/-- The machine right after reset (10_state.md R58; 70_reset_and_hazards.md R333): one RESET in the trace, the panel as
at power-on. -/
def State.reset : State where
  cfg := Config.reference
  inputs := []
  rstPrev := true
  rq := Vector.replicate 19 0
  rqCnt := 0
  fsm := .idle
  plan := []
  phase := .ready
  initIdx := 0
  pixRem := 0
  delayCnt := 0
  adcWait := false
  cs := !Config.reference.csActive
  cd := true
  sclk := false
  mosi := false
  shreg := 0
  bitIdx := 0
  initDone := false
  faultCause := .none
  mapValid := false
  mapPixel := 0
  mapRaw := 0
  log := [.reset]
  rx := []
  rxFaulty := false
  lostBytes := []
  panelSinceReset := Panel.powerOn
  panelAcrossResets := Panel.powerOn

end Sys2Proof.Machine
end

