-- ==== Sys2Proof/Machine/Operands.lean ====
section
/-! DEFINITION. What requests are built from: transactions (00_scope.md R15), the init command table (44_panel_commands.md
R281), windows and pixel streams (30_encoding.md R135, R136), their plans, the mapper's arithmetic (43_input_mapper.md)
and the two time conversions (41_transport.md R170, 10_state.md R46). -/

namespace Sys2Proof.Machine

/-! ## Transactions (41_transport.md R162) -/

/-- `Tx(o, p)` up to its closing `CS(INACT)`. -/
def txOpening (o : Byte) (p : List Byte) : List Event :=
  [.cd .cmd, .cs .act, .byte o, .cd .data] ++ p.map Event.byte

/-- `Tx(o, p)`. -/
def tx (o : Byte) (p : List Byte) : List Event := txOpening o p ++ [.cs .inact]

/-- `window_events` (42_display_driver.md R201). -/
def windowEvents (x0 y0 x1 y1 : Word) : List Event :=
  tx 0x2A (operandBytes x0 ++ operandBytes x1) ++ tx 0x2B (operandBytes y0 ++ operandBytes y1)

/-- `repeat(n, [hi8(c), lo8(c)])`, a stream of `n` pixels of colour `c` (30_encoding.md R136). -/
def pixelBytes (n : Nat) (c : Word) : List Byte := (List.replicate n (operandBytes c)).flatten

/-! ## The init command table (20_memory.md R82) -/

/-- The opcodes of the init table in INIT order (44_panel_commands.md R281). -/
def romOpcodes : List Byte :=
  [0x01, 0x11, 0xB1, 0xB2, 0xB4, 0xC0, 0xC1, 0xC2, 0xC3, 0xC4, 0xC5, 0x20, 0x36, 0x3A, 0x2A, 0x2B, 0xE0, 0xE1, 0x13, 0x29]

/-- `ROM[k].payload`. -/
def romPayload (c : Config) (k : Nat) : List Byte := c.initPayload.getD k []

/-- `MemRead(ROM, k)`. -/
def romRead (c : Config) (k : Nat) : Byte × List Byte := (romOpcodes.getD k 0, romPayload c k)

/-- The idle time INIT keeps after step `k` (42_display_driver.md R192). -/
def initDelay (c : Config) (k : Nat) : Nat :=
  if k = 0 then c.delaySwresetMs else if k = 1 then c.delaySlpoutMs else 0

/-! ## Plans -/

/-- `[Emit(e) for e in es]`. -/
def emits (es : List Event) : List PlanItem := es.map (fun e => ⟨.emit e, .plain⟩)

/-- `Tx(0x2C, repeat(n, [hi8(c), lo8(c)]))` as a plan, with the marks of `pix_rem` (10_state.md R45). -/
def streamPlan (n : Nat) (c : Word) : List PlanItem :=
  [⟨.emit (.cd .cmd), .plain⟩, ⟨.emit (.cs .act), .plain⟩, ⟨.emit (.byte 0x2C), .loadPixels n⟩, ⟨.emit (.cd .data), .plain⟩]
    ++ (List.replicate n
        [⟨.emit (.byte (hi8 c)), .plain⟩, ⟨.emit (.byte (lo8 c)), .pixelDone⟩]).flatten
    ++ [⟨.emit (.cs .inact), .plain⟩]

/-- The plan of a rectangle's window and pixel stream (42_display_driver.md R211). The window's end is reduced modulo
2^16 (92_eei_decisions.md D14). -/
def rectPlan (x y w h c : Word) : List PlanItem :=
  emits (windowEvents x y (x + w - 1) (y + h - 1)) ++ streamPlan (w.toNat * h.toNat) c

/-- `fill_plan(c)` (42_display_driver.md R221). -/
def fillPlan (cfg : Config) (c : Word) : List PlanItem :=
  emits (windowEvents 0 0 (BitVec.ofNat 16 (cfg.width - 1)) (BitVec.ofNat 16 (cfg.height - 1)))
    ++ streamPlan (cfg.width * cfg.height) c

/-- DRAW_RECT's bounds check, exact on naturals (42_display_driver.md R212). -/
def rectInBounds (cfg : Config) (x y w h : Word) : Bool :=
  decide (x.toNat + w.toNat ≤ cfg.width ∧ y.toNat + h.toNat ≤ cfg.height)

/-- DRAW_RECT's plan (42_display_driver.md R211). -/
def drawPlan (cfg : Config) (x y w h c : Word) : List PlanItem :=
  if !rectInBounds cfg x y w h then []
  else if (w = 0 ∨ h = 0) ∧ cfg.zeroArea = .drop then []
  else rectPlan x y w h c

/-- Step `k` of INIT: its transaction and, where the delay is not 0, the WAIT; the last of them moves `init_idx`. -/
def initStepPlan (cfg : Config) (k : Nat) : List PlanItem :=
  emits (txOpening (romRead cfg k).1 (romRead cfg k).2) ++
    if 0 < initDelay cfg k then
      [⟨.emit (.cs .inact), .plain⟩, ⟨.emit (.wait (initDelay cfg k)), .initStep k⟩]
    else [⟨.emit (.cs .inact), .initStep k⟩]

/-- INIT's plan (42_display_driver.md R191). -/
def initPlan (cfg : Config) : List PlanItem :=
  ⟨.setInitDone false, .plain⟩ ::
    ((List.range nInit).flatMap (initStepPlan cfg) ++ fillPlan cfg cfg.background ++ [⟨.setInitDone true, .plain⟩])

/-! ## The mapper (43_input_mapper.md) -/

/-- `clamp(r)` (R231). -/
def clamp (cfg : Config) (r : Nat) : Nat :=
  if r < cfg.clampLo then cfg.clampLo else if cfg.clampHi < r then cfg.clampHi else r

/-- `map_fn` under HALF_AWAY (R235), of the distance `d` from `LO`. -/
def mapHalfAway (cfg : Config) (d : Nat) : Nat := (2 * d * cfg.range + cfg.span) / (2 * cfg.span)

/-- `map_fn` under HALF_EVEN (R236), of the distance `d` from `LO`. -/
def mapHalfEven (cfg : Config) (d : Nat) : Nat :=
  let n := d * cfg.range
  let f := n / cfg.span
  let m := n % cfg.span
  if cfg.span < 2 * m then f + 1 else if 2 * m < cfg.span then f else f + f % 2

/-- `map_fn(r)`. -/
def mapFn (cfg : Config) (r : Nat) : Nat :=
  let d := clamp cfg r - cfg.clampLo
  match cfg.rounding with
  | .halfAway => mapHalfAway cfg d
  | .halfEven => mapHalfEven cfg d

/-! ## Time -/

/-- `SCLK_DIV`, the edges of `clk` in one SCLK half period (41_transport.md R170). -/
def sclkDiv (cfg : Config) : Nat := (cfg.clkHz + (2 * sclkHz - 1)) / (2 * sclkHz)

/-- The edges a WAIT lasts (10_state.md R46). -/
def waitEdges (cfg : Config) (ms : Nat) : Nat := (ms * cfg.clkHz + 999) / 1000

/-! ## Line levels (10_state.md R48) -/

/-- The level of `lcd_cs` an event drives. -/
def CsLevel.bit (cfg : Config) : CsLevel → Bool
  | .act => cfg.csActive
  | .inact => !cfg.csActive

/-- The level of `lcd_cd` an event drives. -/
def cdBit : CdLevel → Bool
  | .cmd => false
  | .data => true

/-- The meaning of a level of `lcd_cd`. -/
def cdOfBit (b : Bool) : CdLevel := if b then .data else .cmd

end Sys2Proof.Machine
end

