-- ==== Sys2Proof/Machine/Flags.lean ====
section
/-! DEFINITION. The status word and the outputs of 10_state.md R30, as functions of the state. -/

namespace Sys2Proof.Machine

/-- The 2-bit code of FAULT_CAUSE (10_state.md R50). -/
def causeCode : FaultCause → BitVec 2
  | .none => 0
  | .illegalOp => 1
  | .sendLen => 2

/-- BUSY (10_state.md R41). -/
def State.busy (s : State) : Bool := s.fsm == .exec

/-- FAULT (10_state.md R52). -/
def State.faulted (s : State) : Bool := s.fsm == .fault

/-- `status` (10_state.md R50): bits 7 and 6 read as 0. -/
def State.status (s : State) : Byte :=
  0#2 ++ BitVec.ofBool s.mapValid ++ causeCode s.faultCause ++ BitVec.ofBool s.faulted ++ BitVec.ofBool s.initDone
    ++ BitVec.ofBool s.busy

/-- `rq_ready` while `rst` has the value given (10_state.md R42). -/
def State.rqReady (s : State) (rst : Bool) : Bool := !rst && !s.busy

/-- `adc_req` (10_state.md R47). -/
def State.adcReq (s : State) : Bool := s.adcWait

/-- Chip-select is asserted (10_state.md R48). -/
def State.csAsserted (s : State) : Bool := s.cs == s.cfg.csActive

/-- The trace, oldest entry first (00_scope.md R16). -/
def State.trace (s : State) : List TraceItem := s.log.reverse

/-- The bytes of the current request that have transferred (10_state.md R36, R37). -/
def State.held (s : State) : List Byte := s.rq.toList.take s.rqCnt.toNat

/-- The frame in progress, oldest byte first. -/
def State.openFrame (s : State) : List FrameByte := s.rx.reverse

/-- The values of the output ports (10_state.md R30). -/
structure Outputs where
  rqReady : Bool
  status : Byte
  mapPixel : Word
  mapRaw : Sample
  adcReq : Bool
  lcdCs : Bool
  lcdCd : Bool
  lcdSclk : Bool
  lcdMosi : Bool
deriving DecidableEq, Repr

/-- The outputs in this state while `rst` has the value given. -/
def State.outputs (s : State) (rst : Bool) : Outputs where
  rqReady := s.rqReady rst
  status := s.status
  mapPixel := s.mapPixel
  mapRaw := s.mapRaw
  adcReq := s.adcReq
  lcdCs := s.cs
  lcdCd := s.cd
  lcdSclk := s.sclk
  lcdMosi := s.mosi

end Sys2Proof.Machine
end

