-- ==== Sys2Proof/Machine/Ops.lean ====
section
/-! DEFINITION. The named operations on the state: the panel's frame memory, the panel's shared moves, the request port,
entering execution, taking a fault and leaving it by reset, and the events on the panel port. -/

namespace Sys2Proof.Machine

/-! ## The frame memory (20_memory.md R100) -/

/-- The canonical form: cell numbers strictly rising. A listed cell is known, an unlisted one is `?`. -/
def FrameMemory.wf (fm : FrameMemory) : Bool := decide (fm.Pairwise (fun a b => a.1 < b.1))

/-- `FM` at one cell; `none` is `?`. -/
def FrameMemory.read : FrameMemory → Nat → Option Word
  | [], _ => none
  | (b, v) :: rest, a => if a = b then some v else FrameMemory.read rest a

/-- Store a colour in one cell. -/
def FrameMemory.write : FrameMemory → Nat → Word → FrameMemory
  | [], a, v => [(a, v)]
  | (b, w) :: rest, a, v =>
    if a < b then (a, v) :: (b, w) :: rest
    else if a = b then (a, v) :: rest
    else (b, w) :: FrameMemory.write rest a v

/-- The number of the cell at column `col` and row `row`. -/
def cellNumber (cfg : Config) (col row : Nat) : Nat := row * cfg.width + col

/-- `FM[col][row]`. -/
def Panel.cell (cfg : Config) (p : Panel) (col row : Nat) : Option Word := p.fm.read (cellNumber cfg col row)

/-- The colours a data phase spells, high byte first (20_memory.md R103). -/
def streamColours : List Byte → List Word
  | hi :: lo :: rest => be16 hi lo :: streamColours rest
  | _ => []

/-- Write `colours` row by row into a window `ww` columns wide whose corner is (`xs`, `ys`), from its pixel `i` on
(20_memory.md R103). -/
def writePixels (cfg : Config) (xs ys ww : Nat) : Nat → List Word → FrameMemory → FrameMemory
  | _, [], fm => fm
  | i, v :: rest, fm =>
    writePixels cfg xs ys ww (i + 1) rest (fm.write (cellNumber cfg (xs + i % ww) (ys + i / ww)) v)

/-! ## The panel's moves (20_memory.md R100-R108) -/

/-- Havoc (R100). `quiet` stays. -/
def Panel.havoc (p : Panel) : Panel :=
  { p with fm := [], cols := none, rows := none, awake := .unknown, mode16 := .unknown, orient := .unknown }

/-- A frame with this effect reaches the panel (R107): inside the quiet time it havocs and ends that time. -/
def Panel.accept (p : Panel) (effect : Panel → Panel) : Panel :=
  if 0 < p.quiet then { p.havoc with quiet := 0 } else effect p

/-- A block reset reaches the panel model that follows `rule`; `cut` says whether it cuts a frame short, which havocs
(R108). By R100 every field becomes `?` and `quiet` 0. By 70_reset_and_hazards.md R332 a reset between frames changes
nothing but the access order, which 90_conflicts.md C8 has every reset set to `?` (log 5). -/
def Panel.blockReset (rule : ResetRule) (cut : Bool) (p : Panel) : Panel :=
  match rule with
  | .forgets => Panel.powerOn
  | .keeps => if cut then p.accept Panel.havoc else { p with orient := .unknown }

/-- A `WAIT(ms)` passes (R107). -/
def Panel.wait (p : Panel) (ms : Nat) : Panel := { p with quiet := p.quiet - ms }

/-- A window of four data bytes, `?` for any other count (R101, R102). -/
def windowOf : List Byte → Option (Word × Word)
  | [d0, d1, d2, d3] => some (be16 d0 d1, be16 d2 d3)
  | _ => none

/-- SWRESET (R104). -/
def Panel.swreset (cfg : Config) (data : List Byte) (p : Panel) : Panel :=
  if data = [] then { p.havoc with quiet := cfg.tSwresetMs } else p.havoc

/-- SLPOUT (R104). -/
def Panel.slpout (cfg : Config) (data : List Byte) (p : Panel) : Panel :=
  if data = [] then { p with awake := .yes, quiet := cfg.tSlpoutMs } else p.havoc

/-- CASET (R101). -/
def Panel.caset (data : List Byte) (p : Panel) : Panel := { p with cols := windowOf data }

/-- RASET (R102). -/
def Panel.raset (data : List Byte) (p : Panel) : Panel := { p with rows := windowOf data }

/-- The pixel stream `data` is well formed for this window (R103). -/
def streamFits (cfg : Config) (p : Panel) (cols rows : Word × Word) (data : List Byte) : Bool :=
  decide (p.awake = .yes ∧ p.mode16 = .yes ∧ p.orient = .yes ∧
    (cols.1.toNat ≤ cols.2.toNat ∧ cols.2.toNat < cfg.width) ∧ (rows.1.toNat ≤ rows.2.toNat ∧ rows.2.toNat < cfg.height) ∧
    data.length % 2 = 0 ∧
    data.length / 2 ≤ (cols.2.toNat - cols.1.toNat + 1) * (rows.2.toNat - rows.1.toNat + 1))

/-- RAMWR (R103). -/
def Panel.ramwr (cfg : Config) (data : List Byte) (p : Panel) : Panel :=
  match p.cols, p.rows with
  | some cols, some rows =>
    if streamFits cfg p cols rows data then
      { p with fm := writePixels cfg cols.1.toNat rows.1.toNat (cols.2.toNat - cols.1.toNat + 1) 0 (streamColours data) p.fm }
    else p.havoc
  | _, _ => p.havoc

/-- COLMOD (R105), step 13 of the init table. -/
def Panel.colmod (cfg : Config) (data : List Byte) (p : Panel) : Panel :=
  { p with mode16 := if data = romPayload cfg 13 then .yes else .unknown }

/-- MADCTL (R106), step 12 of the init table. -/
def Panel.madctl (cfg : Config) (data : List Byte) (p : Panel) : Panel :=
  { p with fm := [], orient := if data = romPayload cfg 12 then .yes else .unknown }

/-- A NEUTRAL command that is step `k` of the init table (R108). -/
def Panel.neutral (cfg : Config) (k : Nat) (data : List Byte) (p : Panel) : Panel :=
  if data.length = (romPayload cfg k).length then p else p.havoc

/-- The panel command that the bytes of a frame make. None where a byte was dropped or corrupted on the bus
(93_implementation_defined.md I11), and where no rule names the frame (R108): such a frame havocs. -/
def frameCommand (faulty : Bool) (bytes : List FrameByte) : Option Instr :=
  if faulty then none else (decodeFrame bytes).toOption

/-- The panel model that follows this rule of a block reset. -/
def State.panelBy (s : State) : ResetRule → Panel
  | .forgets => s.panelSinceReset
  | .keeps => s.panelAcrossResets

/-- What is no reset reaches both panel models alike. -/
def State.mapPanels (s : State) (f : Panel → Panel) : State :=
  { s with panelSinceReset := f s.panelSinceReset, panelAcrossResets := f s.panelAcrossResets }

/-- The panel takes a frame with this effect. -/
def State.panelFrame (s : State) (effect : Panel → Panel) : State := s.mapPanels (fun p => p.accept effect)

/-! ## The request port and execution -/

/-- The values of the input ports when the script says nothing: no reset, no byte, no sample, no fault of the bus
(log 1). -/
def quietInputs : Inputs where
  rst := false
  rqValid := false
  rqData := 0
  adcAck := false
  adcData := 0
  busFault := false

/-- The input ports at the coming edge. -/
def State.inputNow (s : State) : Inputs := s.inputs.headD quietInputs

/-- A request starts to execute with this plan (30_encoding.md R121). -/
def State.start (s : State) (plan : List PlanItem) : State :=
  { s with plan := plan, rqCnt := 0, fsm := .exec, phase := .ready }

/-- Fault entry, `Fault(c)` (60_exceptions.md R302). -/
def State.raiseFault (s : State) (c : FaultCause) : State :=
  { s with fsm := .fault, faultCause := c, rqCnt := 0, plan := [] }

/-- A rising edge with `rst` = 1 (10_state.md R58, 70_reset_and_hazards.md R330-R332): the only way out of FAULT. -/
def State.resetEdge (s : State) : State :=
  { s with
    rstPrev := true
    rq := Vector.replicate 19 0
    rqCnt := 0
    fsm := .idle
    plan := []
    phase := .ready
    initIdx := 0
    pixRem := 0
    delayCnt := 0
    adcWait := false
    cs := !s.cfg.csActive
    cd := true
    sclk := false
    mosi := false
    shreg := 0
    bitIdx := 0
    initDone := false
    faultCause := .none
    mapValid := false
    mapPixel := 0
    mapRaw := 0
    log := if s.rstPrev then s.log else .reset :: s.log
    rx := []
    rxFaulty := false
    panelSinceReset := s.panelSinceReset.blockReset .forgets s.csAsserted
    panelAcrossResets := s.panelAcrossResets.blockReset .keeps s.csAsserted }

/-! ## Events -/

/-- Append an event to the trace. -/
def State.record (s : State) (e : Event) : State := { s with log := .event e :: s.log }

/-- The move of a counter when a micro-operation is finished (10_state.md R44, R45). -/
def State.applyMark (s : State) : Mark → State
  | .plain => s
  | .initStep k => { s with initIdx := BitVec.ofNat 5 (k + 1) }
  | .loadPixels n => { s with pixRem := BitVec.ofNat 32 n }
  | .pixelDone => { s with pixRem := s.pixRem - 1 }

/-- The head of `plan` is finished: remove it (10_state.md R43). -/
def State.finish (s : State) (mark : Mark) : State := { s with plan := s.plan.tail, phase := .ready }.applyMark mark

/-- `emit CD(l)`. -/
def State.driveCd (s : State) (l : CdLevel) : State := { s with cd := cdBit l }.record (.cd l)

/-- `emit CS(a)`. A frame begins with CS(ACT) and ends with CS(INACT), so no byte of it is held after either. -/
def State.driveCs (s : State) (a : CsLevel) : State :=
  { s with cs := a.bit s.cfg, rx := [], rxFaulty := false }.record (.cs a)

/-- `BYTE(b)` is fully shifted (log 7); `faulty` says whether the bus drops or corrupts it. That reaches the panel's side
only: the block's own state and its trace are the same either way (41_transport.md R165; log 16). -/
def State.byteDone (s : State) (b : Byte) (faulty : Bool) : State :=
  { s with
    rx := if s.csAsserted then (cdOfBit s.cd, b) :: s.rx else s.rx
    rxFaulty := s.rxFaulty || faulty
    lostBytes := if faulty then s.log.length :: s.lostBytes else s.lostBytes }.record (.byte b)

/-- `WAIT(ms)` is over. -/
def State.waitDone (s : State) (ms : Nat) : State :=
  ({ s with delayCnt := 0 }.mapPanels (fun p => p.wait ms)).record (.wait ms)

/-- The result writes of `Sample` (43_input_mapper.md R233). -/
def State.mapResult (s : State) (r : Sample) : State :=
  { s with adcWait := false, mapRaw := r, mapPixel := BitVec.ofNat 16 (mapFn s.cfg r.toNat), mapValid := true }

end Sys2Proof.Machine
end

