-- ==== Sys2Proof/Machine/Driver.lean ====
section
/-! DEFINITION. The requests of the display controller driver: 42_display_driver.md. -/

namespace Sys2Proof.Machine

/-- INIT (42_display_driver.md R191); `init_idx` is 0 from its start (10_state.md R44). -/
def execInit (s : State) : Host.Outcome State Fault Refusal :=
  .next { s.start (initPlan s.cfg) with initIdx := 0 }

/-- SET_WINDOW (42_display_driver.md R200): no operand is checked. -/
def execSetWindow (x0 y0 x1 y1 : Word) (s : State) : Host.Outcome State Fault Refusal :=
  .next (s.start (emits (windowEvents x0 y0 x1 y1)))

/-- DRAW_RECT (42_display_driver.md R211): out of bounds it plans nothing (R213). -/
def execDrawRect (x y w h c : Word) (s : State) : Host.Outcome State Fault Refusal :=
  .next (s.start (drawPlan s.cfg x y w h c))

/-- FILL_SCREEN (42_display_driver.md R220). -/
def execFillScreen (c : Word) (s : State) : Host.Outcome State Fault Refusal :=
  .next (s.start (fillPlan s.cfg c))

end Sys2Proof.Machine
end

