-- ==== Sys2Proof/Machine/Mapper.lean ====
section
/-! DEFINITION. The request MAP: 43_input_mapper.md R232. Its one micro-operation is performed by the sequencer. -/

namespace Sys2Proof.Machine

/-- MAP (43_input_mapper.md R232). -/
def execMap (s : State) : Host.Outcome State Fault Refusal := .next (s.start [⟨.sample, .plain⟩])

end Sys2Proof.Machine
end

