-- ==== Sys2Proof/Machine/Panel.lean ====
section
/-! DEFINITION. The panel commands: 44_panel_commands.md R260-R280, with the effects of 20_memory.md R101-R108. Each is
what the panel does when the frame of that opcode and `data` ends; the block's own state has no part in it. -/

namespace Sys2Proof.Machine

/-- SWRESET (44_panel_commands.md R260, 20_memory.md R104). -/
def execSwreset (data : List Byte) (s : State) : Host.Outcome State Fault Refusal :=
  .next (s.panelFrame (Panel.swreset s.cfg data))

/-- SLPOUT (44_panel_commands.md R261, 20_memory.md R104). -/
def execSlpout (data : List Byte) (s : State) : Host.Outcome State Fault Refusal :=
  .next (s.panelFrame (Panel.slpout s.cfg data))

/-- CASET (44_panel_commands.md R263, 20_memory.md R101). -/
def execCaset (data : List Byte) (s : State) : Host.Outcome State Fault Refusal :=
  .next (s.panelFrame (Panel.caset data))

/-- RASET (44_panel_commands.md R264, 20_memory.md R102). -/
def execRaset (data : List Byte) (s : State) : Host.Outcome State Fault Refusal :=
  .next (s.panelFrame (Panel.raset data))

/-- RAMWR (44_panel_commands.md R265, 20_memory.md R103). -/
def execRamwr (data : List Byte) (s : State) : Host.Outcome State Fault Refusal :=
  .next (s.panelFrame (Panel.ramwr s.cfg data))

/-- COLMOD (44_panel_commands.md R266, 20_memory.md R105). -/
def execColmod (data : List Byte) (s : State) : Host.Outcome State Fault Refusal :=
  .next (s.panelFrame (Panel.colmod s.cfg data))

/-- MADCTL (44_panel_commands.md R267, 20_memory.md R106). -/
def execMadctl (data : List Byte) (s : State) : Host.Outcome State Fault Refusal :=
  .next (s.panelFrame (Panel.madctl s.cfg data))

/-- INVOFF (44_panel_commands.md R262): NEUTRAL, init step 11 (20_memory.md R108). -/
def execInvoff (data : List Byte) (s : State) : Host.Outcome State Fault Refusal :=
  .next (s.panelFrame (Panel.neutral s.cfg 11 data))

/-- FRMCTR1 (44_panel_commands.md R268): NEUTRAL, init step 2 (20_memory.md R108). -/
def execFrmctr1 (data : List Byte) (s : State) : Host.Outcome State Fault Refusal :=
  .next (s.panelFrame (Panel.neutral s.cfg 2 data))

/-- FRMCTR2 (44_panel_commands.md R269): NEUTRAL, init step 3 (20_memory.md R108). -/
def execFrmctr2 (data : List Byte) (s : State) : Host.Outcome State Fault Refusal :=
  .next (s.panelFrame (Panel.neutral s.cfg 3 data))

/-- INVCTR (44_panel_commands.md R270): NEUTRAL, init step 4 (20_memory.md R108). -/
def execInvctr (data : List Byte) (s : State) : Host.Outcome State Fault Refusal :=
  .next (s.panelFrame (Panel.neutral s.cfg 4 data))

/-- PWCTR1 (44_panel_commands.md R271): NEUTRAL, init step 5 (20_memory.md R108). -/
def execPwctr1 (data : List Byte) (s : State) : Host.Outcome State Fault Refusal :=
  .next (s.panelFrame (Panel.neutral s.cfg 5 data))

/-- PWCTR2 (44_panel_commands.md R272): NEUTRAL, init step 6 (20_memory.md R108). -/
def execPwctr2 (data : List Byte) (s : State) : Host.Outcome State Fault Refusal :=
  .next (s.panelFrame (Panel.neutral s.cfg 6 data))

/-- PWCTR3 (44_panel_commands.md R273): NEUTRAL, init step 7 (20_memory.md R108). -/
def execPwctr3 (data : List Byte) (s : State) : Host.Outcome State Fault Refusal :=
  .next (s.panelFrame (Panel.neutral s.cfg 7 data))

/-- PWCTR4 (44_panel_commands.md R274): NEUTRAL, init step 8 (20_memory.md R108). -/
def execPwctr4 (data : List Byte) (s : State) : Host.Outcome State Fault Refusal :=
  .next (s.panelFrame (Panel.neutral s.cfg 8 data))

/-- PWCTR5 (44_panel_commands.md R275): NEUTRAL, init step 9 (20_memory.md R108). -/
def execPwctr5 (data : List Byte) (s : State) : Host.Outcome State Fault Refusal :=
  .next (s.panelFrame (Panel.neutral s.cfg 9 data))

/-- VMCTR1 (44_panel_commands.md R276): NEUTRAL, init step 10 (20_memory.md R108). -/
def execVmctr1 (data : List Byte) (s : State) : Host.Outcome State Fault Refusal :=
  .next (s.panelFrame (Panel.neutral s.cfg 10 data))

/-- GMCTRP1 (44_panel_commands.md R277): NEUTRAL, init step 16 (20_memory.md R108). -/
def execGmctrp1 (data : List Byte) (s : State) : Host.Outcome State Fault Refusal :=
  .next (s.panelFrame (Panel.neutral s.cfg 16 data))

/-- GMCTRN1 (44_panel_commands.md R278): NEUTRAL, init step 17 (20_memory.md R108). -/
def execGmctrn1 (data : List Byte) (s : State) : Host.Outcome State Fault Refusal :=
  .next (s.panelFrame (Panel.neutral s.cfg 17 data))

/-- NORON (44_panel_commands.md R279): NEUTRAL, init step 18 (20_memory.md R108). -/
def execNoron (data : List Byte) (s : State) : Host.Outcome State Fault Refusal :=
  .next (s.panelFrame (Panel.neutral s.cfg 18 data))

/-- DISPON (44_panel_commands.md R280): NEUTRAL, init step 19 (20_memory.md R108). -/
def execDispon (data : List Byte) (s : State) : Host.Outcome State Fault Refusal :=
  .next (s.panelFrame (Panel.neutral s.cfg 19 data))

end Sys2Proof.Machine
end

