-- ==== Sys2Proof/Machine/Transport.lean ====
section
/-! DEFINITION. The request SEND: 41_transport.md R166. -/

namespace Sys2Proof.Machine

/-- SEND (41_transport.md R166, R167): frame `opc` with `payload`, whatever they are. -/
def execSend (opc : Byte) (payload : List Byte) (s : State) : Host.Outcome State Fault Refusal :=
  .next (s.start (emits (tx opc payload)))

end Sys2Proof.Machine
end

