-- ==== Sys2Proof/Machine/Dispatch.lean ====
section
/-! DEFINITION. One arm per instruction: each calls its own meaning. -/

namespace Sys2Proof.Machine

def exec (i : Instr) (s : State) : Host.Outcome State Fault Refusal :=
  match i with
  | .send opc payload => Sys2Proof.Machine.execSend opc payload s
  | .init => Sys2Proof.Machine.execInit s
  | .setWindow x0 y0 x1 y1 => Sys2Proof.Machine.execSetWindow x0 y0 x1 y1 s
  | .drawRect x y w h c => Sys2Proof.Machine.execDrawRect x y w h c s
  | .fillScreen c => Sys2Proof.Machine.execFillScreen c s
  | .map => Sys2Proof.Machine.execMap s
  | .swreset data => Sys2Proof.Machine.execSwreset data s
  | .slpout data => Sys2Proof.Machine.execSlpout data s
  | .invoff data => Sys2Proof.Machine.execInvoff data s
  | .caset data => Sys2Proof.Machine.execCaset data s
  | .raset data => Sys2Proof.Machine.execRaset data s
  | .ramwr data => Sys2Proof.Machine.execRamwr data s
  | .colmod data => Sys2Proof.Machine.execColmod data s
  | .madctl data => Sys2Proof.Machine.execMadctl data s
  | .frmctr1 data => Sys2Proof.Machine.execFrmctr1 data s
  | .frmctr2 data => Sys2Proof.Machine.execFrmctr2 data s
  | .invctr data => Sys2Proof.Machine.execInvctr data s
  | .pwctr1 data => Sys2Proof.Machine.execPwctr1 data s
  | .pwctr2 data => Sys2Proof.Machine.execPwctr2 data s
  | .pwctr3 data => Sys2Proof.Machine.execPwctr3 data s
  | .pwctr4 data => Sys2Proof.Machine.execPwctr4 data s
  | .pwctr5 data => Sys2Proof.Machine.execPwctr5 data s
  | .vmctr1 data => Sys2Proof.Machine.execVmctr1 data s
  | .gmctrp1 data => Sys2Proof.Machine.execGmctrp1 data s
  | .gmctrn1 data => Sys2Proof.Machine.execGmctrn1 data s
  | .noron data => Sys2Proof.Machine.execNoron data s
  | .dispon data => Sys2Proof.Machine.execDispon data s

end Sys2Proof.Machine
end

