-- ==== Sys2Proof/Machine/Edge.lean ====
section
/-! DEFINITION. What one rising edge of `clk` does: request assembly (30_encoding.md R121), the sequencer (10_state.md
R43) with the serializer (41_transport.md R168-R171) and the ADC handshake (10_state.md R32), and the arms of 10_state.md
R40. An edge that completes an instruction names it, for the step to run. -/

namespace Sys2Proof.Machine

/-- What an edge comes to. -/
inductive Edge where
  /-- No instruction completes: the state after the edge. -/
  | settled (s : State)
  /-- Instruction `i` completes: it runs on `s`. -/
  | run (i : Instr) (s : State)
  | stop (f : Fault)
  | refuse (r : Refusal)
deriving DecidableEq, Repr

/-! ## Request assembly -/

/-- The byte enters the assembly buffer. -/
def State.takeByte (s : State) (b : Byte) : State :=
  { s with rq := s.rq.setIfInBounds s.rqCnt.toNat b, rqCnt := s.rqCnt + 1 }

/-- A byte transfers in IDLE or ASSEMBLE (30_encoding.md R121). -/
def State.transfer (s : State) (b : Byte) : Edge :=
  if 19 ≤ s.rqCnt.toNat then .stop .assemblyOverrun
  else
    let s1 := s.takeByte b
    match spellingFault s1.held with
    | some c => .settled (s1.raiseFault c)
    | none =>
      if requestLength s1.held = some s1.held.length then
        match decodeRequest s1.held with
        | .ok i => .run i s1
        | .error _ => .refuse .unspelledRequest
      else if isRequestOp (s1.held.headD 0) then .settled { s1 with fsm := .assemble }
      else .refuse .unspelledRequest

/-! ## The panel port -/

/-- `emit CS(INACT)`: the frame ends and the panel has it. A frame that makes no panel command havocs (20_memory.md R108,
93_implementation_defined.md I11). -/
def State.closeFrame (s : State) : Edge :=
  if s.csAsserted then
    match frameCommand s.rxFaulty s.openFrame with
    | some i => .run i (s.driveCs .inact)
    | none => .settled ((s.driveCs .inact).panelFrame Panel.havoc)
  else .settled (s.driveCs .inact)

/-- The head of `plan` is a CS or CD change: it keeps its distance from SCLK (41_transport.md R169), then happens. -/
def State.lineEdge (s : State) (happens : State → Edge) (mark : Mark) : Edge :=
  match s.phase with
  | .gap 0 => happens (s.finish mark)
  | .gap (n + 1) => .settled { s with phase := .gap n }
  | _ => .settled { s with phase := .gap (sclkDiv s.cfg - 1) }

/-- Put bit `i` of the shift register on `mosi` while `sclk` is 0, for one half period. The register is not shifted:
`bit_idx` selects the bit (DESIGN CHOICE, log 17). -/
def State.driveBit (s : State) (i : BitVec 3) : State :=
  { s with sclk := false, bitIdx := i, mosi := s.shreg.getLsbD i.toNat, phase := .low (sclkDiv s.cfg - 1) }

/-- The head of `plan` is `BYTE(b)` (41_transport.md R168): one edge of it. After the byte `shreg` and `bit_idx` keep what
they hold (DESIGN CHOICE, log 17). -/
def State.byteEdge (s : State) (inp : Inputs) (b : Byte) (mark : Mark) : State :=
  match s.phase with
  | .low 0 => { s with sclk := true, phase := .high (sclkDiv s.cfg - 1) }
  | .low (n + 1) => { s with phase := .low n }
  | .high 0 =>
    if s.bitIdx = 0 then ({ s with sclk := false }.byteDone b inp.busFault).finish mark else s.driveBit (s.bitIdx - 1)
  | .high (n + 1) => { s with phase := .high n }
  | _ => { s with shreg := b }.driveBit 7

/-- The head of `plan` is `WAIT(ms)` (10_state.md R46): one edge of it. -/
def State.waitEdge (s : State) (ms : Nat) (mark : Mark) : State :=
  match s.phase with
  | .delay =>
    if waitEdges s.cfg ms ≤ s.delayCnt + 1 then (s.waitDone ms).finish mark else { s with delayCnt := s.delayCnt + 1 }
  | _ => { s with delayCnt := 0, phase := .delay }

/-- The head of `plan` is `Sample` (43_input_mapper.md R233): one edge of it. -/
def State.sampleEdge (s : State) (inp : Inputs) (mark : Mark) : State :=
  match s.phase with
  | .sampled r => (s.mapResult r).finish mark
  | .adc => if inp.adcAck then { s with phase := .sampled inp.adcData } else s
  | _ => { s with adcWait := true, phase := .adc }

/-! ## The sequencer -/

/-- One edge in EXEC: the head of `plan` goes on, or, with nothing left, the block is IDLE (10_state.md R40, R43). -/
def State.sequence (s : State) (inp : Inputs) : Edge :=
  match s.plan with
  | [] => .settled { s with fsm := .idle }
  | item :: _ =>
    match item.op with
    | .emit (.cs .act) => s.lineEdge (fun s => .settled (s.driveCs .act)) item.mark
    | .emit (.cs .inact) => s.lineEdge State.closeFrame item.mark
    | .emit (.cd l) => s.lineEdge (fun s => .settled (s.driveCd l)) item.mark
    | .emit (.byte b) => .settled (s.byteEdge inp b item.mark)
    | .emit (.wait ms) => .settled (s.waitEdge ms item.mark)
    | .setInitDone v => .settled ({ s with initDone := v }.finish item.mark)
    | .sample => .settled (s.sampleEdge inp item.mark)

/-- One edge with `rst` = 0 (10_state.md R40 arms 1 to 6). -/
def State.workEdge (s : State) (inp : Inputs) : Edge :=
  match s.fsm with
  | .idle => if inp.rqValid then s.transfer inp.rqData else .settled s
  | .assemble => if inp.rqValid then s.transfer inp.rqData else .settled s
  | .exec => s.sequence inp
  | .fault => .settled s

/-- The inputs of this edge are read off the script. -/
def State.popInputs (s : State) : State := { s with inputs := s.inputs.tail }

/-- One rising edge of `clk` (10_state.md R40; reset has priority, 60_exceptions.md R304). -/
def State.edge (s : State) : Edge :=
  if s.inputNow.rst then .settled s.popInputs.resetEdge
  else { s.popInputs with rstPrev := false }.workEdge s.inputNow

/-! ## Placing an instruction where the next edge completes it (log 2) -/

/-- The request's bytes but the last stand in `rq`, and the host offers the last at the coming edge. -/
def State.offerRequest (s : State) (bytes : List Byte) : State :=
  let held := bytes.dropLast
  { s with
    rq := Vector.ofFn (fun i : Fin 19 => held.getD i.val 0)
    rqCnt := BitVec.ofNat 5 held.length
    fsm := if held = [] then .idle else .assemble
    plan := []
    phase := .ready
    inputs := { quietInputs with rqValid := true, rqData := bytes.getLastD 0 } :: s.inputs }

/-- The frame's bytes are shifted, and its closing `CS(INACT)` happens at the coming edge. -/
def State.offerFrame (s : State) (bytes : List FrameByte) : State :=
  { s with
    fsm := .exec
    plan := [⟨.emit (.cs .inact), .plain⟩]
    phase := .gap 0
    cs := s.cfg.csActive
    rx := bytes.reverse
    rxFaulty := false
    inputs := quietInputs :: s.inputs }

/-- Place what `wire` carries. -/
def State.offer (s : State) : Wire → State
  | .request bytes => s.offerRequest bytes
  | .frame bytes => s.offerFrame bytes

end Sys2Proof.Machine
end

