-- ==== Sys2Proof/Machine/Step.lean ====
section
/-! DEFINITION. One step: one rising edge of `clk` (10_state.md R40), running the instruction it completes. -/

namespace Sys2Proof.Machine

/-- One step of the machine. -/
def step (s : State) : Host.Outcome State Fault Refusal :=
  match s.edge with
  | .settled s' => .next s'
  | .run i s' => exec i s'
  | .stop f => .fault f
  | .refuse r => .refused r

/-- `s` with the instruction of a table word placed where the next step completes it (log 2). -/
def State.withFetchWord (s : State) (nbits w : Nat) : State := s.offer (tableWire nbits w)

end Sys2Proof.Machine
end

