-- ==== Sys2Proof/Machine/Assembler.lean ====
section
/-! DEFINITION. The request assembler: 30_encoding.md R138 and R139. A notation for test programs; the machine does not
use it. How a line is cut into a mnemonic and numbers is the model's choice (log 15). -/

namespace Sys2Proof.Machine

/-- Why the assembler refuses a line (30_encoding.md R138). -/
inductive AsmError where
  | unknownMnemonic
  | badOperandCount
  | operandDoesNotFit (value : Nat)
  | tooManyPayloadOperands
  | badNumber
deriving DecidableEq, Repr

/-- An 8-bit operand. -/
def asmByte (n : Nat) : Except AsmError Byte := if n < 256 then .ok (BitVec.ofNat 8 n) else .error (.operandDoesNotFit n)

/-- A 16-bit operand. -/
def asmWord (n : Nat) : Except AsmError Word := if n < 65536 then .ok (BitVec.ofNat 16 n) else .error (.operandDoesNotFit n)

/-- The payload operands of SEND. -/
def asmPayload (ns : List Nat) : Except AsmError (List Byte) :=
  if maxPayload < ns.length then .error .tooManyPayloadOperands else ns.mapM asmByte

/-- SEND with these operands. -/
def asmSend : List Nat → Except AsmError Instr
  | opc :: p => do return .send (← asmByte opc) (← asmPayload p)
  | [] => .error .badOperandCount

/-- DRAW_RECT with these operands. -/
def asmRect (x y w h c : Nat) : Except AsmError Instr := do
  return .drawRect (← asmWord x) (← asmWord y) (← asmWord w) (← asmWord h) (← asmWord c)

/-- The request a mnemonic and its operands name: the requests of R138 and the pseudo-requests of R139, which take the
background colour from the configuration. -/
def assemble (cfg : Config) (mnemonic : String) (operands : List Nat) : Except AsmError Instr :=
  match mnemonic with
  | "SEND" => asmSend operands
  | "INIT" => match operands with
    | [] => .ok .init
    | _ => .error .badOperandCount
  | "SET_WINDOW" => match operands with
    | [x0, y0, x1, y1] => do return .setWindow (← asmWord x0) (← asmWord y0) (← asmWord x1) (← asmWord y1)
    | _ => .error .badOperandCount
  | "DRAW_RECT" => match operands with
    | [x, y, w, h, c] => asmRect x y w h c
    | _ => .error .badOperandCount
  | "FILL_SCREEN" => match operands with
    | [c] => do return .fillScreen (← asmWord c)
    | _ => .error .badOperandCount
  | "MAP" => match operands with
    | [] => .ok .map
    | _ => .error .badOperandCount
  | "CLEAR" => match operands with
    | [] => .ok (.fillScreen cfg.background)
    | _ => .error .badOperandCount
  | "ERASE" => match operands with
    | [x, y, w, h] => asmRect x y w h cfg.background.toNat
    | _ => .error .badOperandCount
  | "PIXEL" => match operands with
    | [x, y, c] => asmRect x y 1 1 c
    | _ => .error .badOperandCount
  | "CMD" => match operands with
    | [opc] => asmSend [opc]
    | _ => .error .badOperandCount
  | _ => .error .unknownMnemonic

/-! ## One line of text -/

/-- The value of a hexadecimal digit, in either letter case (DESIGN CHOICE, log 15). -/
def digitValue (ch : Char) : Option Nat :=
  if '0' ≤ ch ∧ ch ≤ '9' then some (ch.toNat - '0'.toNat)
  else if 'a' ≤ ch ∧ ch ≤ 'f' then some (ch.toNat - 'a'.toNat + 10)
  else if 'A' ≤ ch ∧ ch ≤ 'F' then some (ch.toNat - 'A'.toNat + 10)
  else none

/-- Digits of a base, most significant first, after the value `acc`. -/
def digitsFrom (base acc : Nat) : List Char → Option Nat
  | [] => some acc
  | ch :: rest => match digitValue ch with
    | some d => if d < base then digitsFrom base (acc * base + d) rest else none
    | none => none

/-- A number, decimal or `0x` hexadecimal (R138); the `x` is lower case (DESIGN CHOICE, log 15). -/
def asmNumber : List Char → Except AsmError Nat
  | [] => .error .badNumber
  | ['0', 'x'] => .error .badNumber
  | '0' :: 'x' :: ds => match digitsFrom 16 0 ds with
    | some n => .ok n
    | none => .error .badNumber
  | ds => match digitsFrom 10 0 ds with
    | some n => .ok n
    | none => .error .badNumber

/-- `cs` without spaces at its ends; no other character is a blank (DESIGN CHOICE, log 15). -/
def trimSpaces (cs : List Char) : List Char :=
  ((cs.dropWhile (fun ch => ch == ' ')).reverse.dropWhile (fun ch => ch == ' ')).reverse

/-- The pieces of `cs` between commas; `piece` holds the current one's characters, newest first. -/
def splitCommas (piece : List Char) : List Char → List (List Char)
  | [] => [piece.reverse]
  | ',' :: rest => piece.reverse :: splitCommas [] rest
  | ch :: rest => splitCommas (ch :: piece) rest

/-- The operands of a line: numbers between commas, spaces allowed around each (DESIGN CHOICE, log 15). -/
def asmOperands (cs : List Char) : Except AsmError (List Nat) :=
  if cs = [] then .ok [] else ((splitCommas [] cs).map trimSpaces).mapM asmNumber

/-- One line of assembler text (R138): a mnemonic, in capitals exactly as R138 and R139 write it, then, after a space, its
operands; spaces may stand at both ends (DESIGN CHOICE, log 15). -/
def assembleLine (cfg : Config) (line : String) : Except AsmError Instr := do
  let text := trimSpaces line.toList
  let mnemonic := text.takeWhile (fun ch => ch != ' ')
  let operands ← asmOperands (trimSpaces (text.dropWhile (fun ch => ch != ' ')))
  assemble cfg (String.ofList mnemonic) operands

end Sys2Proof.Machine
end

