-- ==== Sys2Proof/Machine/Trace.lean ====
section
/-! DEFINITION. What an observer reads off a trace: the frame view (00_scope.md R16) and the panel model evaluated on the
events (20_memory.md section 7). -/

namespace Sys2Proof.Machine

/-! ## The frame view -/

/-- How an interval with CS asserted ends. -/
inductive FrameEnd where
  /-- By `CS(INACT)`. -/
  | closed
  /-- By a reset (70_reset_and_hazards.md R332). -/
  | cut
  /-- Not yet. -/
  | inProgress
deriving DecidableEq, Repr

/-- One frame of the frame view. -/
structure Frame where
  bytes : List FrameByte
  ending : FrameEnd
deriving DecidableEq, Repr

/-- The frame view of a trace, oldest entry first, from a point where CD is `cd` and the frame in progress, if any, has the
bytes `held`. -/
def frameViewFrom (cd : CdLevel) (held : Option (List FrameByte)) : List TraceItem → List Frame
  | [] => match held with
    | none => []
    | some f => [⟨f, .inProgress⟩]
  | .event (.cd l) :: rest => frameViewFrom l held rest
  | .event (.cs .act) :: rest => frameViewFrom cd (some []) rest
  | .event (.cs .inact) :: rest => match held with
    | none => frameViewFrom cd none rest
    | some f => ⟨f, .closed⟩ :: frameViewFrom cd none rest
  | .event (.byte b) :: rest => frameViewFrom cd (held.map (fun f => f ++ [(cd, b)])) rest
  | .event (.wait _) :: rest => frameViewFrom cd held rest
  | .reset :: rest => match held with
    | none => frameViewFrom .data none rest
    | some f => ⟨f, .cut⟩ :: frameViewFrom .data none rest

/-- The frame view of a trace (00_scope.md R16). -/
def frameView (trace : List TraceItem) : List Frame := frameViewFrom .data none trace

/-- The bytes a list of events shifts. -/
def shiftedBytes (es : List Event) : List Byte :=
  es.filterMap (fun e => match e with
    | .byte b => some b
    | _ => none)

/-! ## The panel model on a trace -/

/-- The effect of a panel command (20_memory.md R101-R108); a request is no panel command. -/
def Panel.command (cfg : Config) : Instr → Panel → Panel
  | .send _ _ => Panel.havoc
  | .init => Panel.havoc
  | .setWindow _ _ _ _ => Panel.havoc
  | .drawRect _ _ _ _ _ => Panel.havoc
  | .fillScreen _ => Panel.havoc
  | .map => Panel.havoc
  | .swreset d => Panel.swreset cfg d
  | .slpout d => Panel.slpout cfg d
  | .invoff d => Panel.neutral cfg 11 d
  | .caset d => Panel.caset d
  | .raset d => Panel.raset d
  | .ramwr d => Panel.ramwr cfg d
  | .colmod d => Panel.colmod cfg d
  | .madctl d => Panel.madctl cfg d
  | .frmctr1 d => Panel.neutral cfg 2 d
  | .frmctr2 d => Panel.neutral cfg 3 d
  | .invctr d => Panel.neutral cfg 4 d
  | .pwctr1 d => Panel.neutral cfg 5 d
  | .pwctr2 d => Panel.neutral cfg 6 d
  | .pwctr3 d => Panel.neutral cfg 7 d
  | .pwctr4 d => Panel.neutral cfg 8 d
  | .pwctr5 d => Panel.neutral cfg 9 d
  | .vmctr1 d => Panel.neutral cfg 10 d
  | .gmctrp1 d => Panel.neutral cfg 16 d
  | .gmctrn1 d => Panel.neutral cfg 17 d
  | .noron d => Panel.neutral cfg 18 d
  | .dispon d => Panel.neutral cfg 19 d

/-- The effect of a whole frame, a panel command or not (20_memory.md R107, R108); `faulty` says whether the bus dropped or
corrupted a byte of it (93_implementation_defined.md I11). -/
def Panel.frame (cfg : Config) (faulty : Bool) (bytes : List FrameByte) (p : Panel) : Panel :=
  match frameCommand faulty bytes with
  | some i => p.accept (Panel.command cfg i)
  | none => p.accept Panel.havoc

/-- What the panel holds at a point of the trace: the last level of CD, the frame in progress (oldest byte first), whether
the bus dropped or corrupted a byte of it, and its state. -/
structure PanelView where
  cd : CdLevel
  held : Option (List FrameByte)
  faulty : Bool
  panel : Panel
deriving DecidableEq, Repr

/-- The panel at power-on, before the first entry of a trace (20_memory.md R100). -/
def PanelView.powerOn : PanelView where
  cd := .data
  held := none
  faulty := false
  panel := Panel.powerOn

/-- One entry of the trace reaches the panel model that follows `rule`; `intact` says whether a byte does so as it was sent
(log 16). -/
def PanelView.see (rule : ResetRule) (cfg : Config) (v : PanelView) (intact : Bool) : TraceItem → PanelView
  | .event (.cd l) => { v with cd := l }
  | .event (.cs .act) => { v with held := some [], faulty := false }
  | .event (.cs .inact) => match v.held with
    | none => { v with faulty := false }
    | some f => { v with held := none, faulty := false, panel := v.panel.frame cfg v.faulty f }
  | .event (.byte b) => { v with held := v.held.map (fun f => f ++ [(v.cd, b)]), faulty := v.faulty || !intact }
  | .event (.wait ms) => { v with panel := v.panel.wait ms }
  | .reset => { cd := .data, held := none, faulty := false, panel := v.panel.blockReset rule v.held.isSome }

/-- The panel model that follows `rule`, evaluated on a trace, newest entry first, whose bytes at the places `lost` did not
reach the panel as they were sent. -/
def panelView (rule : ResetRule) (cfg : Config) (lost : List Nat) : List TraceItem → PanelView
  | [] => PanelView.powerOn
  | x :: older => (panelView rule cfg lost older).see rule cfg (!lost.contains older.length) x

end Sys2Proof.Machine
end

