-- ==== Sys2Proof/Safety.lean ====
section
/-! DEFINITION. The terms claims use: the invariants of the machine, what a plan emits and how many edges it takes. -/

namespace Sys2Proof.Machine

/-! ## The panel port's discipline (41_transport.md R162-R164) -/

/-- Where the panel port stands inside or between transactions. -/
inductive BusState where
  /-- Between transactions: CS is INACT, CD is DATA. -/
  | idle
  /-- CD is CMD, CS not yet asserted. -/
  | command
  /-- CS is asserted, the opcode byte not yet shifted. -/
  | opened
  /-- The opcode byte is shifted, CD is still CMD. -/
  | opcodeSent
  /-- The data phase: CS is asserted, CD is DATA. -/
  | data
deriving DecidableEq, Repr

/-- The events a transaction admits, and a WAIT between transactions (41_transport.md R171). -/
def BusState.next : BusState → Event → Option BusState
  | .idle, .cd .cmd => some .command
  | .idle, .wait _ => some .idle
  | .command, .cs .act => some .opened
  | .opened, .byte _ => some .opcodeSent
  | .opcodeSent, .cd .data => some .data
  | .data, .byte _ => some .data
  | .data, .cs .inact => some .idle
  | _, _ => none

/-- The events of a plan, performed from `b`; micro-operations that drive no line stand between transactions only. -/
def BusState.run : BusState → List PlanItem → Option BusState
  | b, [] => some b
  | b, ⟨.emit e, _⟩ :: rest => (b.next e).bind (fun b' => BusState.run b' rest)
  | .idle, ⟨.setInitDone _, _⟩ :: rest => BusState.run .idle rest
  | .idle, ⟨.sample, _⟩ :: rest => BusState.run .idle rest
  | _, _ => none

/-- Where the lines and the frame in progress put the panel port. -/
def State.busState (s : State) : Option BusState :=
  match s.csAsserted, s.cd, s.openFrame with
  | false, true, [] => some .idle
  | false, false, [] => some .command
  | true, false, [] => some .opened
  | true, false, [(.cmd, _)] => some .opcodeSent
  | true, true, (.cmd, _) :: rest => if rest.all (fun b => b.1 == .data) then some .data else none
  | _, _, _ => none

/-- What is left of the plan completes the transaction in progress and leaves the port idle. -/
abbrev State.BusOk (s : State) : Prop := s.busState.bind (fun b => b.run s.plan) = some .idle

/-! ## The progress of a micro-operation -/

/-- The phase belongs to the head of `plan`, and the pins show it (41_transport.md R168, 10_state.md R47). -/
def State.PhaseOk (s : State) : Prop :=
  match s.phase with
  | .ready => s.sclk = false ∧ s.adcWait = false
  | .gap _ => s.sclk = false ∧ s.adcWait = false ∧
      ∃ e m rest, s.plan = ⟨.emit e, m⟩ :: rest ∧ ((∃ a, e = .cs a) ∨ ∃ l, e = .cd l)
  | .low _ => s.sclk = false ∧ s.adcWait = false ∧
      (∃ b m rest, s.plan = ⟨.emit (.byte b), m⟩ :: rest ∧ s.shreg = b) ∧ s.mosi = s.shreg.getLsbD s.bitIdx.toNat
  | .high _ => s.sclk = true ∧ s.adcWait = false ∧
      (∃ b m rest, s.plan = ⟨.emit (.byte b), m⟩ :: rest ∧ s.shreg = b) ∧ s.mosi = s.shreg.getLsbD s.bitIdx.toNat
  | .delay => s.sclk = false ∧ s.adcWait = false ∧ ∃ ms m rest, s.plan = ⟨.emit (.wait ms), m⟩ :: rest
  | .adc => s.sclk = false ∧ s.adcWait = true ∧ ∃ m rest, s.plan = ⟨.sample, m⟩ :: rest
  | .sampled _ => s.sclk = false ∧ s.adcWait = true ∧ ∃ m rest, s.plan = ⟨.sample, m⟩ :: rest

/-! ## The counters (10_state.md R44, R45) -/

/-- The init steps a plan has still to finish. -/
def initStepsLeft (plan : List PlanItem) : List Nat :=
  plan.filterMap (fun it => match it.mark with
    | .initStep k => some k
    | _ => none)

/-- The pixels a plan has still to shift before it loads `pix_rem` again. -/
def pixelsLeft : List PlanItem → Nat
  | [] => 0
  | ⟨_, .loadPixels _⟩ :: _ => 0
  | ⟨_, .pixelDone⟩ :: rest => pixelsLeft rest + 1
  | ⟨_, .plain⟩ :: rest => pixelsLeft rest
  | ⟨_, .initStep _⟩ :: rest => pixelsLeft rest

/-- Every load of `pix_rem` is the number of pixels that follow it. -/
def streamsOk : List PlanItem → Prop
  | [] => True
  | ⟨_, .loadPixels n⟩ :: rest => (n = pixelsLeft rest ∧ n < 2 ^ 32) ∧ streamsOk rest
  | ⟨_, .pixelDone⟩ :: rest => streamsOk rest
  | ⟨_, .plain⟩ :: rest => streamsOk rest
  | ⟨_, .initStep _⟩ :: rest => streamsOk rest

/-- The marks of a window and a stream of `n` pixels: the end of the RAMWR opcode byte loads `pix_rem`, the end of each
pixel's low byte decrements it (10_state.md R45). -/
def rectMarks (n : Nat) : List Mark :=
  List.replicate 18 .plain ++ [.plain, .plain, .loadPixels n, .plain] ++ (List.replicate n [.plain, .pixelDone]).flatten
    ++ [.plain]

/-! ## The invariant -/

/-- The request in assembly (10_state.md R37-R39). -/
structure State.AssemblyOk (s : State) : Prop where
  /-- `rq_cnt` is 0 but in ASSEMBLE. -/
  count_zero : s.fsm ≠ .assemble → s.rqCnt = 0
  /-- In ASSEMBLE 1 to 18 bytes have transferred. -/
  count_bounds : s.fsm = .assemble → 1 ≤ s.rqCnt.toNat ∧ s.rqCnt.toNat ≤ 18
  /-- They begin a request. -/
  legal_op : s.fsm = .assemble → isRequestOp (s.held.headD 0) = true
  /-- Once its length is known, it is longer than what has come, and fits `rq`. -/
  unfinished : s.fsm = .assemble → ∀ n, requestLength s.held = some n → s.rqCnt.toNat < n ∧ n ≤ 19

/-- The panel's frame memory, by either rule of a block reset, is in canonical form and names cells of the screen only. -/
abbrev State.FrameMemoryOk (s : State) : Prop :=
  ∀ rule, (s.panelBy rule).fm.wf = true ∧ ∀ cell ∈ (s.panelBy rule).fm, cell.1 < s.cfg.width * s.cfg.height

/-- The invariant of the machine. -/
structure State.Coherent (s : State) : Prop where
  /-- A plan is in progress in EXEC only. -/
  no_plan : s.fsm ≠ .exec → s.plan = [] ∧ s.phase = .ready
  assembly : s.AssemblyOk
  /-- FAULT_CAUSE is set exactly in FAULT (10_state.md R52). -/
  cause : s.faultCause ≠ .none ↔ s.fsm = .fault
  bus : s.BusOk
  phase : s.PhaseOk
  /-- `init_idx` is the first step still to finish (10_state.md R44). -/
  init_index : initStepsLeft s.plan = [] ∨ initStepsLeft s.plan = (List.range nInit).drop s.initIdx.toNat
  /-- `pix_rem` is the number of pixels still to shift (10_state.md R45). -/
  pixel_count : s.pixRem.toNat = pixelsLeft s.plan
  streams : streamsOk s.plan
  /-- A valid map result is the mapped value of the sample (10_state.md R54, R55). -/
  mapped : s.mapValid = true → s.mapPixel.toNat = mapFn s.cfg s.mapRaw.toNat ∧ s.mapPixel.toNat ≤ s.cfg.range
  memory : s.FrameMemoryOk

/-! ## What a plan emits, and how long it takes -/

/-- The events of a plan. -/
def planEvents (plan : List PlanItem) : List Event :=
  plan.filterMap (fun it => match it.op with
    | .emit e => some e
    | .setInitDone _ => none
    | .sample => none)

/-- A plan that does not wait for the ADC. -/
def sampleFree (plan : List PlanItem) : Bool := plan.all (fun it => it.op != .sample)

/-- The edges of `clk` a micro-operation takes. A sample takes as long as the ADC does; it has no count here. -/
def opEdges (cfg : Config) : MicroOp → Nat
  | .emit (.cs _) => sclkDiv cfg + 1
  | .emit (.cd _) => sclkDiv cfg + 1
  | .emit (.byte _) => 16 * sclkDiv cfg + 1
  | .emit (.wait ms) => max 1 (waitEdges cfg ms) + 1
  | .setInitDone _ => 1
  | .sample => 0

/-- The edges of `clk` a plan without a sample takes. -/
def planEdges (cfg : Config) (plan : List PlanItem) : Nat := (plan.map (fun it => opEdges cfg it.op)).sum

/-- `k` rising edges of `clk`, stopping at the first fault or refusal. -/
def runEdges (k : Nat) (s : State) : Host.Outcome State Fault Refusal := Host.Core.run Sys2Proof.core k s

/-- No reset comes in the next `k` edges. -/
abbrev State.NoReset (s : State) (k : Nat) : Prop := ∀ inp ∈ s.inputs.take k, inp.rst = false

/-- The machine between requests: IDLE, and coherent, so the lines are at their idle levels. -/
structure State.Resting (s : State) : Prop where
  coherent : s.Coherent
  idle : s.fsm = .idle

/-- Two states agree on everything a request's execution does not touch: the configuration, the assembly buffer, the fault
cause and the map results. -/
structure SameBesidesExecution (s t : State) : Prop where
  cfg : t.cfg = s.cfg
  rq : t.rq = s.rq
  faultCause : t.faultCause = s.faultCause
  adcWait : t.adcWait = s.adcWait
  mapValid : t.mapValid = s.mapValid
  mapPixel : t.mapPixel = s.mapPixel
  mapRaw : t.mapRaw = s.mapRaw

/-- The bytes of a request; a panel command has none. -/
def requestBytes (i : Instr) : List Byte :=
  match encode i with
  | .request bytes => bytes
  | .frame _ => []

/-- The two bytes of a 16-bit operand of a request, high byte first (30_encoding.md R124). -/
def wordBytes (n : Nat) : List Byte := [BitVec.ofNat 8 (n / 256), BitVec.ofNat 8 (n % 256)]

/-- The instruction is a request. -/
def isRequest (i : Instr) : Bool :=
  match encode i with
  | .request _ => true
  | .frame _ => false

/-- What the block and its host can tell of a state: all of it but the panel's side and what the bus does to bytes
(41_transport.md R165). -/
def State.blockSide (s : State) : State :=
  { s with
    inputs := s.inputs.map (fun inp => { inp with busFault := false })
    rxFaulty := false
    lostBytes := []
    panelSinceReset := Panel.powerOn
    panelAcrossResets := Panel.powerOn }

/-! ## The panel in claims -/

/-- A panel of which nothing is known, with this quiet time left. -/
def forgotten (quiet : Nat) : Panel where
  fm := []
  cols := none
  rows := none
  awake := .unknown
  mode16 := .unknown
  orient := .unknown
  quiet := quiet

/-- The 14 NEUTRAL commands with these data bytes, each with its step of the init table (20_memory.md R108). -/
def neutralCommands (d : List Byte) : List (Instr × Nat) :=
  [(.frmctr1 d, 2), (.frmctr2 d, 3), (.invctr d, 4), (.pwctr1 d, 5), (.pwctr2 d, 6), (.pwctr3 d, 7), (.pwctr4 d, 8),
    (.pwctr5 d, 9), (.vmctr1 d, 10), (.invoff d, 11), (.gmctrp1 d, 16), (.gmctrn1 d, 17), (.noron d, 18), (.dispon d, 19)]

/-- The 21 panel commands with these data bytes. -/
def panelCommands (d : List Byte) : List Instr :=
  [.swreset d, .slpout d, .caset d, .raset d, .ramwr d, .colmod d, .madctl d] ++ (neutralCommands d).map (fun p => p.1)

/-- The panel is configured and takes frames: awake, in the configured colour mode and access order, no quiet time left. -/
abbrev Panel.Ready (p : Panel) : Prop := p.awake = .yes ∧ p.mode16 = .yes ∧ p.orient = .yes ∧ p.quiet = 0

/-- The panel after it has received these events, their bytes as they were sent, between two frames. No reset is among
them, so both rules of a block reset say the same. -/
def panelAfter (cfg : Config) (p : Panel) (es : List Event) : Panel :=
  let before : PanelView := { cd := .data, held := none, faulty := false, panel := p }
  (es.foldl (fun v e => PanelView.see .keeps cfg v true (.event e)) before).panel

/-- By either rule of a block reset, the state's panel is the panel model evaluated on its trace, with the bytes the bus
lost. While `rst` is held the lines are at their reset levels, and the panel is as a reset leaves it. -/
structure State.PanelAgrees (s : State) : Prop where
  view : ∀ rule, panelView rule s.cfg s.lostBytes s.log =
    { cd := cdOfBit s.cd, held := if s.csAsserted then some s.openFrame else none, faulty := s.rxFaulty,
      panel := s.panelBy rule }
  held_reset : s.rstPrev = true → s.csAsserted = false ∧ s.cd = true ∧ s.rxFaulty = false ∧
    ∀ rule, (s.panelBy rule).blockReset rule false = s.panelBy rule
  /-- Every lost byte is in the trace. -/
  lost_past : ∀ n ∈ s.lostBytes, n < s.log.length

end Sys2Proof.Machine
end

