-- ==== Sys2Proof/Certificates/Slice0/Obligations.lean ====
section
/-! DEFINITION. The statements for the provers. -/

open Sys2Proof Sys2Proof.Machine

/-! ## Encodings (30_encoding.md) -/

/-- Decoding undoes encoding for every well-formed instruction of both layers. -/
def Obligations.DecodeUndoesEncode : Prop :=
  ∀ i : Instr, i.wellFormed = true → decode (encode i) = .ok i

/-- Every byte string the request decoder accepts is the encoding of what it answers, which is well formed, and has
exactly the length 30_encoding.md R122 gives it. -/
def Obligations.AcceptedRequestIsItsEncoding : Prop :=
  ∀ (bs : List Byte) (i : Instr), decodeRequest bs = .ok i →
    encode i = .request bs ∧ i.wellFormed = true ∧ requestLength bs = some bs.length

/-- Every frame the panel's decoder accepts is the encoding of what it answers. -/
def Obligations.AcceptedFrameIsItsEncoding : Prop :=
  ∀ (f : List FrameByte) (i : Instr), decodeFrame f = .ok i → encode i = .frame f

/-- A byte string made of well-formed requests decodes to them. After it, a request that stops short is an incomplete tail;
an illegal op byte, or a SEND's LEN byte over 16, is a fault at its index with the rest discarded (30_encoding.md R140). -/
def Obligations.StreamDecodesItsRequests : Prop :=
  ∀ is : List Instr, (∀ i ∈ is, isRequest i = true ∧ i.wellFormed = true) →
    decodeStream (is.flatMap requestBytes) = ⟨is, .clean⟩ ∧
    (∀ (op : Byte) (tail : List Byte), isRequestOp op = false →
      decodeStream (is.flatMap requestBytes ++ op :: tail) = ⟨is, .fault .illegalOp (is.flatMap requestBytes).length⟩) ∧
    (∀ (opc len : Byte) (tail : List Byte), 16 < len.toNat →
      decodeStream (is.flatMap requestBytes ++ 0x01 :: opc :: len :: tail) =
        ⟨is, .fault .sendLen ((is.flatMap requestBytes).length + 2)⟩) ∧
    ∀ (i : Instr) (sent missing : List Byte), isRequest i = true → i.wellFormed = true →
      requestBytes i = sent ++ missing → sent ≠ [] → missing ≠ [] →
      decodeStream (is.flatMap requestBytes ++ sent) = ⟨is, .incompleteTail⟩

/-- A few words written out from the encoding tables (30_encoding.md R125-R129, R132; 95_test_vectors.md V10a, V11, V20). -/
def Obligations.WrittenWordsDecode : Prop :=
  decode (.request [0x01, 0x36, 0x01, 0xC8]) = .ok (.send 0x36 [0xC8]) ∧
  decode (.request [0x02]) = .ok .init ∧
  decode (.request [0x03, 0x00, 0x0A, 0x00, 0x14, 0x00, 0x21, 0x00, 0x1D]) = .ok (.setWindow 10 20 33 29) ∧
  decode (.request [0x04, 0x00, 0x0A, 0x00, 0x14, 0x00, 0x18, 0x00, 0x0A, 0xF8, 0x00])
    = .ok (.drawRect 10 20 24 10 0xF800) ∧
  decode (.request [0x05, 0x12, 0x34]) = .ok (.fillScreen 0x1234) ∧
  decode (.frame [(.cmd, 0x2A), (.data, 0x00), (.data, 0x0A), (.data, 0x00), (.data, 0x21)])
    = .ok (.caset [0x00, 0x0A, 0x00, 0x21])

/-- Each pseudo-request of the assembler is one request (30_encoding.md R139). -/
def Obligations.PseudoRequestsExpand : Prop :=
  ∀ (cfg : Config) (x y w h c opc : Nat),
    assemble cfg "CLEAR" [] = assemble cfg "FILL_SCREEN" [cfg.background.toNat] ∧
    assemble cfg "ERASE" [x, y, w, h] = assemble cfg "DRAW_RECT" [x, y, w, h, cfg.background.toNat] ∧
    assemble cfg "PIXEL" [x, y, c] = assemble cfg "DRAW_RECT" [x, y, 1, 1, c] ∧
    assemble cfg "CMD" [opc] = assemble cfg "SEND" [opc]

/-- What the assembler accepts is a well-formed request. It refuses an unknown mnemonic, an operand that does not fit its
field (8 bits in SEND and in CMD, which 30_encoding.md R139 makes a SEND, 16 bits elsewhere) and a SEND with more than 16
payload operands; operands that fit give the bytes of the table of 30_encoding.md R138. The refusal
of surplus operands of the other mnemonics, part of the third clause, is the model's choice (log 15). -/
def Obligations.AssemblerRefusesWhatDoesNotFit : Prop :=
  ∀ (cfg : Config) (mnemonic : String) (operands : List Nat),
    (∀ i, assemble cfg mnemonic operands = .ok i → isRequest i = true ∧ i.wellFormed = true) ∧
    (mnemonic ∉ ["SEND", "INIT", "SET_WINDOW", "DRAW_RECT", "FILL_SCREEN", "MAP", "CLEAR", "ERASE", "PIXEL", "CMD"] →
      assemble cfg mnemonic operands = .error .unknownMnemonic) ∧
    ((∃ n ∈ operands, 65535 < n) ∨ 17 < operands.length → ∃ e, assemble cfg mnemonic operands = .error e) ∧
    (∀ (opc : Nat) (p : List Nat),
      (255 < opc ∨ (∃ n ∈ p, 255 < n) ∨ 16 < p.length → ∃ e, assemble cfg "SEND" (opc :: p) = .error e) ∧
      (255 < opc → ∃ e, assemble cfg "CMD" [opc] = .error e) ∧
      (opc ≤ 255 → (∀ n ∈ p, n ≤ 255) → p.length ≤ 16 → ∃ i, assemble cfg "SEND" (opc :: p) = .ok i ∧
        encode i = .request (0x01 :: BitVec.ofNat 8 opc :: BitVec.ofNat 8 p.length :: p.map (BitVec.ofNat 8)))) ∧
    (∃ i, assemble cfg "INIT" [] = .ok i ∧ encode i = .request [0x02]) ∧
    (∀ a b d e : Nat, a ≤ 65535 → b ≤ 65535 → d ≤ 65535 → e ≤ 65535 →
      ∃ i, assemble cfg "SET_WINDOW" [a, b, d, e] = .ok i ∧
        encode i = .request (0x03 :: (wordBytes a ++ wordBytes b ++ wordBytes d ++ wordBytes e))) ∧
    (∀ x y w h c : Nat, x ≤ 65535 → y ≤ 65535 → w ≤ 65535 → h ≤ 65535 → c ≤ 65535 →
      ∃ i, assemble cfg "DRAW_RECT" [x, y, w, h, c] = .ok i ∧
        encode i = .request (0x04 :: (wordBytes x ++ wordBytes y ++ wordBytes w ++ wordBytes h ++ wordBytes c))) ∧
    (∀ c : Nat, c ≤ 65535 →
      ∃ i, assemble cfg "FILL_SCREEN" [c] = .ok i ∧ encode i = .request (0x05 :: wordBytes c)) ∧
    (∃ i, assemble cfg "MAP" [] = .ok i ∧ encode i = .request [0x06])

/-! ## A step runs the decoded instruction -/

/-- The transfer of a request's last byte: when the bytes held and the byte offered are the encoding of a well-formed
request, the step is exec of that request on the state with the byte taken. -/
def Obligations.StepRunsTheCompletedRequest : Prop :=
  ∀ (s : State) (inp : Inputs) (rest : List Inputs) (i : Instr),
    s.inputs = inp :: rest → inp.rst = false → inp.rqValid = true → (s.fsm = .idle ∨ s.fsm = .assemble) →
    i.wellFormed = true → encode i = .request (s.held ++ [inp.rqData]) →
    step s = exec i { s with
      inputs := rest, rstPrev := false, rq := s.rq.setIfInBounds s.rqCnt.toNat inp.rqData, rqCnt := s.rqCnt + 1 }

/-- The closing `CS(INACT)` of a frame: when the bytes shifted came as they were sent and are the encoding of a panel
command, the step is exec of that command on the state with the line driven, the event recorded and the micro-operation
removed. A frame with a byte that the bus dropped or corrupted, and a frame no rule names, leaves the panel unknown
instead, and the rest of the state is the same (20_memory.md R108, 93_implementation_defined.md I11). -/
def Obligations.StepRunsTheClosedFrame : Prop :=
  ∀ (s : State) (inp : Inputs) (rest : List Inputs) (m : Mark) (items : List PlanItem),
    s.inputs = inp :: rest → inp.rst = false → s.fsm = .exec →
    s.plan = ⟨.emit (.cs .inact), m⟩ :: items → s.phase = .gap 0 → s.cs = s.cfg.csActive →
    (∀ i : Instr, s.rxFaulty = false → encode i = .frame s.openFrame →
      step s = exec i (State.applyMark { s with
        inputs := rest, rstPrev := false, plan := items, phase := .ready, cs := !s.cfg.csActive, rx := [],
        log := .event (.cs .inact) :: s.log } m)) ∧
    (s.rxFaulty = true ∨ (∃ e, decodeFrame s.openFrame = .error e) →
      step s = .next (State.applyMark { s with
        inputs := rest, rstPrev := false, plan := items, phase := .ready, cs := !s.cfg.csActive, rx := [],
        rxFaulty := false, log := .event (.cs .inact) :: s.log,
        panelSinceReset := forgotten 0, panelAcrossResets := forgotten 0 } m))

/-- A byte that neither completes the request nor makes it unspellable is held, and the block is in ASSEMBLE
(30_encoding.md R121, 10_state.md R40 arms 2 and 3). At an edge without reset at which no byte is offered, the block in IDLE
or ASSEMBLE changes nothing, however long the host waits (R31, R40). -/
def Obligations.UnfinishedRequestIsHeld : Prop :=
  (∀ (s : State) (inp : Inputs) (rest : List Inputs), s.Coherent →
    s.inputs = inp :: rest → inp.rst = false → inp.rqValid = true → (s.fsm = .idle ∨ s.fsm = .assemble) →
    spellingFault (s.held ++ [inp.rqData]) = none →
    requestLength (s.held ++ [inp.rqData]) ≠ some (s.rqCnt.toNat + 1) →
    step s = .next { s with
      inputs := rest, rstPrev := false, rq := s.rq.setIfInBounds s.rqCnt.toNat inp.rqData, rqCnt := s.rqCnt + 1,
      fsm := .assemble }) ∧
  ∀ s : State, (s.fsm = .idle ∨ s.fsm = .assemble) → s.inputNow.rst = false → s.inputNow.rqValid = false →
    step s = .next { s with inputs := s.inputs.tail, rstPrev := false }

/-! ## Faults (60_exceptions.md) -/

/-- Fault entry: in IDLE a first byte outside 0x01..0x06 raises `Fault(1)`; a SEND's third byte over 16 raises
`Fault(2)`. FAULT_CAUSE is the cause, `rq_cnt` is 0, the plan is empty, and nothing else changes but the buffer's byte. -/
def Obligations.MisspelledRequestFaults : Prop :=
  ∀ (s : State) (inp : Inputs) (rest : List Inputs),
    s.inputs = inp :: rest → inp.rst = false → inp.rqValid = true →
    (s.fsm = .idle → s.rqCnt = 0 → inp.rqData.toNat = 0 ∨ 6 < inp.rqData.toNat →
      step s = .next { s with
        inputs := rest, rstPrev := false, rq := s.rq.set 0 inp.rqData, rqCnt := 0, fsm := .fault,
        faultCause := .illegalOp, plan := [] }) ∧
    (s.fsm = .assemble → s.rqCnt = 2 → s.rq[0] = 0x01 → 16 < inp.rqData.toNat →
      step s = .next { s with
        inputs := rest, rstPrev := false, rq := s.rq.set 2 inp.rqData, rqCnt := 0, fsm := .fault,
        faultCause := .sendLen, plan := [] })

/-- While `fsm` = FAULT and no reset comes, an edge changes nothing, whatever byte is offered: the byte is discarded, no
event is emitted, no sample is requested. `rq_ready` is 1, and `status` reads FAULT = 1, BUSY = 0 and the recorded cause. -/
def Obligations.FaultStateDiscardsBytes : Prop :=
  ∀ s : State, s.fsm = .fault → s.inputNow.rst = false →
    step s = .next { s with inputs := s.inputs.tail, rstPrev := false } ∧ s.rqReady false = true ∧
    s.status.getLsbD 2 = true ∧ s.status.getLsbD 0 = false ∧ s.status.extractLsb' 3 2 = causeCode s.faultCause

/-! ## Reset (10_state.md R58, 70_reset_and_hazards.md R330-R332) -/

/-- An edge with `rst` = 1 gives every piece of the block's state its reset value, from any state, and the configuration
stays (10_state.md R58). `RESET` is appended at the first such edge only (70_reset_and_hazards.md R331), which the model
reads off `rstPrev`: a field of the model's, which the edge leaves true (log 4, DEDUCED). -/
def Obligations.ResetEdgeRestoresTheBlock : Prop :=
  ∀ s : State, s.inputNow.rst = true → ∃ t, step s = .next t ∧
    t.fsm = .idle ∧ t.rq = Vector.replicate 19 0 ∧ t.rqCnt = 0 ∧ t.plan = [] ∧ t.initIdx = 0 ∧ t.pixRem = 0 ∧
    t.delayCnt = 0 ∧ t.adcWait = false ∧ t.cs = !s.cfg.csActive ∧ t.cd = true ∧ t.sclk = false ∧ t.mosi = false ∧
    t.shreg = 0 ∧ t.bitIdx = 0 ∧ t.status = 0 ∧ t.initDone = false ∧ t.faultCause = .none ∧ t.mapValid = false ∧
    t.mapPixel = 0 ∧ t.mapRaw = 0 ∧ t.cfg = s.cfg ∧ t.inputs = s.inputs.tail ∧ t.rstPrev = true ∧
    (s.rstPrev = false → t.trace = s.trace ++ [.reset]) ∧ (s.rstPrev = true → t.trace = s.trace)

/-- A reset ends the frame in progress, so that the frame view shows it cut short (70_reset_and_hazards.md R332). The panel
of 20_memory.md R100 is then unknown with no quiet time, in a frame or between frames. The panel of R332 is so too when the
reset cuts a frame short (R108); between frames it stays as it was but for the access order, which 90_conflicts.md C8 has a
reset forget. That the model holds both panels is its choice (log 5). -/
def Obligations.ResetCutsTheFrameShort : Prop :=
  (∀ s : State, s.inputNow.rst = true → ∃ t, step s = .next t ∧ t.cs ≠ t.cfg.csActive ∧ t.rx = [] ∧ t.rxFaulty = false ∧
    t.panelSinceReset = forgotten 0 ∧
    (s.cs = s.cfg.csActive → t.panelAcrossResets = forgotten 0) ∧
    (s.cs ≠ s.cfg.csActive → t.panelAcrossResets = { s.panelAcrossResets with orient := .unknown })) ∧
  ∀ (cd : CdLevel) (f : List FrameByte) (rest : List TraceItem),
    frameViewFrom cd (some f) (.reset :: rest) = ⟨f, .cut⟩ :: frameView rest

/-- The machine after reset: IDLE, the idle levels of the lines, every register 0, one RESET in the trace, and a panel of
which nothing is known. -/
def Obligations.ResetStateIsAsSpecified : Prop :=
  State.reset.fsm = .idle ∧ State.reset.rq = Vector.replicate 19 0 ∧ State.reset.rqCnt = 0 ∧ State.reset.plan = [] ∧
  State.reset.initIdx = 0 ∧ State.reset.pixRem = 0 ∧ State.reset.delayCnt = 0 ∧ State.reset.adcWait = false ∧
  State.reset.cs = !State.reset.cfg.csActive ∧ State.reset.cd = true ∧ State.reset.sclk = false ∧
  State.reset.mosi = false ∧ State.reset.shreg = 0 ∧ State.reset.bitIdx = 0 ∧ State.reset.status = 0 ∧
  State.reset.mapPixel = 0 ∧ State.reset.mapRaw = 0 ∧ State.reset.trace = [.reset] ∧
  ∀ rule, State.reset.panelBy rule = forgotten 0

/-! ## The request port (10_state.md R31, R42) -/

/-- `rq_ready` is 1 exactly when `rst` = 0 and `fsm` is IDLE, ASSEMBLE or FAULT. In EXEC the step does not depend on the
request port: no byte transfers. -/
def Obligations.NoByteTransfersWhileExecuting : Prop :=
  (∀ (s : State) (rst : Bool),
    s.rqReady rst = true ↔ rst = false ∧ (s.fsm = .idle ∨ s.fsm = .assemble ∨ s.fsm = .fault)) ∧
  ∀ (s : State) (inp : Inputs) (rest : List Inputs) (valid : Bool) (data : Byte),
    s.fsm = .exec → s.inputs = inp :: rest →
    step s = step { s with inputs := { inp with rqValid := valid, rqData := data } :: rest }

/-- The status word, bit by bit: BUSY is `fsm` = EXEC, FAULT is `fsm` = FAULT, bits 7 and 6 read as 0. -/
def Obligations.StatusWordBits : Prop :=
  ∀ s : State,
    s.status.getLsbD 0 = decide (s.fsm = .exec) ∧ s.status.getLsbD 1 = s.initDone ∧
    s.status.getLsbD 2 = decide (s.fsm = .fault) ∧
    (s.status.getLsbD 3 = decide (s.faultCause = .illegalOp)) ∧ (s.status.getLsbD 4 = decide (s.faultCause = .sendLen)) ∧
    s.status.getLsbD 5 = s.mapValid ∧ s.status.getLsbD 6 = false ∧ s.status.getLsbD 7 = false

/-! ## The requests: the plan each one builds, and that nothing else changes -/

/-- SEND plans exactly one transaction with its opcode and payload (41_transport.md R162, R166), and changes only `plan`,
`rq_cnt`, `fsm` and the progress of the plan. -/
def Obligations.SendPlansOneTransaction : Prop :=
  ∀ (opc : Byte) (p : List Byte) (s : State), ∃ plan,
    exec (.send opc p) s = .next { s with plan := plan, rqCnt := 0, fsm := .exec, phase := .ready } ∧
    plan.map (fun it => it.op) =
      ([.cd .cmd, .cs .act, .byte opc, .cd .data] ++ p.map Event.byte ++ [.cs .inact] : List Event).map MicroOp.emit

/-- INIT plans the 20 transactions of the init table in order, each followed by its WAIT where the delay is not 0, then the
full-screen fill in BG, with INIT_DONE cleared first and set last (42_display_driver.md R191). The last micro-operation of
step k moves `init_idx` to k + 1, and the fill moves `pix_rem` (10_state.md R44, R45); nothing else moves a counter. -/
def Obligations.InitPlansTheTableAndTheFill : Prop :=
  ∀ s : State, ∃ plan,
    exec .init s = .next { s with plan := plan, rqCnt := 0, fsm := .exec, phase := .ready, initIdx := 0 } ∧
    plan.map (fun it => it.op) =
      MicroOp.setInitDone false ::
        ((([0x01, 0x11, 0xB1, 0xB2, 0xB4, 0xC0, 0xC1, 0xC2, 0xC3, 0xC4, 0xC5, 0x20, 0x36, 0x3A, 0x2A, 0x2B, 0xE0, 0xE1,
            0x13, 0x29] : List Byte).zip s.cfg.initPayload).zipIdx.flatMap (fun x =>
          (tx x.1.1 x.1.2 ++
            (if x.2 = 0 ∧ 0 < s.cfg.delaySwresetMs then [Event.wait s.cfg.delaySwresetMs] else []) ++
            (if x.2 = 1 ∧ 0 < s.cfg.delaySlpoutMs then [Event.wait s.cfg.delaySlpoutMs] else [])).map MicroOp.emit)
        ++ (fillPlan s.cfg s.cfg.background).map (fun it => it.op) ++ [MicroOp.setInitDone true]) ∧
    plan.map (fun it => it.mark) =
      Mark.plain ::
        (s.cfg.initPayload.zipIdx.flatMap (fun x =>
          List.replicate (4 + x.1.length +
            (if x.2 = 0 ∧ 0 < s.cfg.delaySwresetMs ∨ x.2 = 1 ∧ 0 < s.cfg.delaySlpoutMs then 1 else 0)) Mark.plain
          ++ [Mark.initStep x.2])
        ++ rectMarks (s.cfg.width * s.cfg.height) ++ [Mark.plain])

/-- SET_WINDOW plans a CASET and a RASET transaction with the coordinates high byte first, unchecked
(42_display_driver.md R200, R201). -/
def Obligations.SetWindowPlansTwoTransactions : Prop :=
  ∀ (x0 y0 x1 y1 : Word) (s : State), ∃ plan,
    exec (.setWindow x0 y0 x1 y1) s = .next { s with plan := plan, rqCnt := 0, fsm := .exec, phase := .ready } ∧
    plan.map (fun it => it.op) =
      (tx 0x2A [hi8 x0, lo8 x0, hi8 x1, lo8 x1] ++ tx 0x2B [hi8 y0, lo8 y0, hi8 y1, lo8 y1]).map MicroOp.emit

/-- An in-bounds DRAW_RECT of at least one pixel plans its window and a stream of `w * h` pixels of its colour
(42_display_driver.md R211); the window's last coordinates are `X + Wd - 1` and `Y + Ht - 1` (R214). The RAMWR opcode byte
loads `pix_rem` with `w * h` and each pixel's low byte decrements it (10_state.md R45). -/
def Obligations.DrawRectPlansWindowAndStream : Prop :=
  ∀ (x y w h c x1 y1 : Word) (s : State),
    x.toNat + w.toNat ≤ s.cfg.width → y.toNat + h.toNat ≤ s.cfg.height → 1 ≤ w.toNat → 1 ≤ h.toNat →
    x1.toNat = x.toNat + w.toNat - 1 → y1.toNat = y.toNat + h.toNat - 1 →
    ∃ plan,
      exec (.drawRect x y w h c) s = .next { s with plan := plan, rqCnt := 0, fsm := .exec, phase := .ready } ∧
      plan.map (fun it => it.op) =
        (tx 0x2A [hi8 x, lo8 x, hi8 x1, lo8 x1] ++ tx 0x2B [hi8 y, lo8 y, hi8 y1, lo8 y1] ++
          tx 0x2C (List.replicate (w.toNat * h.toNat) [hi8 c, lo8 c]).flatten).map MicroOp.emit ∧
      plan.map (fun it => it.mark) = rectMarks (w.toNat * h.toNat)

/-- An out-of-bounds DRAW_RECT plans nothing and is over at the next edge without reset: no event, no flag; BUSY was 1 for
that one edge (42_display_driver.md R213). -/
def Obligations.OutOfBoundsDrawRectDoesNothing : Prop :=
  ∀ (x y w h c : Word) (s : State),
    s.cfg.width < x.toNat + w.toNat ∨ s.cfg.height < y.toNat + h.toNat →
    exec (.drawRect x y w h c) s = .next { s with plan := [], rqCnt := 0, fsm := .exec, phase := .ready } ∧
    (s.inputNow.rst = false →
      step { s with plan := [], rqCnt := 0, fsm := .exec, phase := .ready } =
        .next { s with inputs := s.inputs.tail, rstPrev := false, plan := [], rqCnt := 0, fsm := .idle, phase := .ready })

/-- A DRAW_RECT of no area within bounds: under EMIT its window, with the end reduced modulo 2^16, and a RAMWR frame without
data; under DROP nothing (42_display_driver.md R215). -/
def Obligations.ZeroAreaFollowsThePolicy : Prop :=
  ∀ (x y w h c : Word) (s : State),
    x.toNat + w.toNat ≤ s.cfg.width → y.toNat + h.toNat ≤ s.cfg.height → w = 0 ∨ h = 0 →
    ∃ plan,
      exec (.drawRect x y w h c) s = .next { s with plan := plan, rqCnt := 0, fsm := .exec, phase := .ready } ∧
      (s.cfg.zeroArea = .drop → plan = []) ∧
      (s.cfg.zeroArea = .emit → ∃ x1 y1 : Word,
        x1.toNat = (x.toNat + w.toNat + 65535) % 65536 ∧ y1.toNat = (y.toNat + h.toNat + 65535) % 65536 ∧
        plan.map (fun it => it.op) =
          (tx 0x2A [hi8 x, lo8 x, hi8 x1, lo8 x1] ++ tx 0x2B [hi8 y, lo8 y, hi8 y1, lo8 y1] ++ tx 0x2C []).map MicroOp.emit ∧
        plan.map (fun it => it.mark) = rectMarks 0)

/-- FILL_SCREEN is DRAW_RECT of the whole screen, which is in bounds for every configuration: it plans the window
`(0, 0, W - 1, H - 1)` and `W * H` pixels of its colour (42_display_driver.md R220, R221), which `pix_rem` counts
(10_state.md R45). -/
def Obligations.FillScreenIsDrawRectOfTheScreen : Prop :=
  ∀ (c w h x1 y1 : Word) (s : State),
    w.toNat = s.cfg.width → h.toNat = s.cfg.height → x1.toNat = s.cfg.width - 1 → y1.toNat = s.cfg.height - 1 →
    exec (.fillScreen c) s = exec (.drawRect 0 0 w h c) s ∧
    ∃ plan,
      exec (.fillScreen c) s = .next { s with plan := plan, rqCnt := 0, fsm := .exec, phase := .ready } ∧
      plan.map (fun it => it.op) =
        (tx 0x2A [0, 0, hi8 x1, lo8 x1] ++ tx 0x2B [0, 0, hi8 y1, lo8 y1] ++
          tx 0x2C (List.replicate (s.cfg.width * s.cfg.height) [hi8 c, lo8 c]).flatten).map MicroOp.emit ∧
      plan.map (fun it => it.mark) = rectMarks (s.cfg.width * s.cfg.height)

/-- MAP plans one sample (43_input_mapper.md R232). -/
def Obligations.MapPlansOneSample : Prop :=
  ∀ s : State, ∃ plan,
    exec .map s = .next { s with plan := plan, rqCnt := 0, fsm := .exec, phase := .ready } ∧
    plan.map (fun it => it.op) = [MicroOp.sample]

/-! ## The panel commands (20_memory.md R101-R108)

Each changes nothing but the panel, and both panel models in the same way (`mapPanels`, log 5). -/

/-- Outside the quiet time, SWRESET without data forgets everything and starts its own; SLPOUT without data wakes the panel
and starts its own; either with data forgets everything (20_memory.md R104). -/
def Obligations.SleepAndResetCommands : Prop :=
  ∀ (d : List Byte) (s : State), ∃ f g : Panel → Panel,
    exec (.swreset d) s = .next (s.mapPanels f) ∧ exec (.slpout d) s = .next (s.mapPanels g) ∧
    ∀ p : Panel, p.quiet = 0 →
      f p = forgotten (if d = [] then s.cfg.tSwresetMs else 0) ∧
      g p = if d = [] then { p with awake := .yes, quiet := s.cfg.tSlpoutMs } else forgotten 0

/-- Outside the quiet time, CASET and RASET with four data bytes set their window, high bytes first; with any other count
the window is unknown (20_memory.md R101, R102). -/
def Obligations.WindowCommandsSetTheWindow : Prop :=
  ∀ (d : List Byte) (s : State), ∃ (f g : Panel → Panel) (window : Option (Word × Word)),
    exec (.caset d) s = .next (s.mapPanels f) ∧ exec (.raset d) s = .next (s.mapPanels g) ∧
    (∀ p : Panel, p.quiet = 0 → f p = { p with cols := window } ∧ g p = { p with rows := window }) ∧
    (d.length ≠ 4 → window = none) ∧
    ∀ d0 d1 d2 d3 : Byte, d = [d0, d1, d2, d3] → ∃ a b : Word, window = some (a, b) ∧
      a.toNat = d0.toNat * 256 + d1.toNat ∧ b.toNat = d2.toNat * 256 + d3.toNat

/-- A well-formed RAMWR writes its pixels into the window row by row, and no other cell (20_memory.md R103). -/
def Obligations.RamwrFillsTheWindowRowByRow : Prop :=
  ∀ (d : List Byte) (s : State), ∃ f : Panel → Panel, exec (.ramwr d) s = .next (s.mapPanels f) ∧
    ∀ (p : Panel) (xs xe ys ye : Word),
    p.Ready → p.cols = some (xs, xe) → p.rows = some (ys, ye) →
    xs.toNat ≤ xe.toNat → xe.toNat < s.cfg.width → ys.toNat ≤ ye.toNat → ye.toNat < s.cfg.height →
    d.length % 2 = 0 → d.length / 2 ≤ (xe.toNat - xs.toNat + 1) * (ye.toNat - ys.toNat + 1) →
    ∃ fm, f p = { p with fm := fm } ∧
      (∀ i, i < d.length / 2 →
        fm.read (cellNumber s.cfg (xs.toNat + i % (xe.toNat - xs.toNat + 1)) (ys.toNat + i / (xe.toNat - xs.toNat + 1)))
          = some (be16 (d.getD (2 * i) 0) (d.getD (2 * i + 1) 0))) ∧
      (∀ a, (∀ i, i < d.length / 2 →
        a ≠ cellNumber s.cfg (xs.toNat + i % (xe.toNat - xs.toNat + 1)) (ys.toNat + i / (xe.toNat - xs.toNat + 1))) →
        fm.read a = p.fm.read a)

/-- Outside the quiet time, any other RAMWR forgets everything: an unknown or ill-placed window, a panel not known to be
awake and configured, an odd number of data bytes, or more pixels than the window holds (20_memory.md R103). -/
def Obligations.IllFormedStreamHavocs : Prop :=
  ∀ (d : List Byte) (s : State), ∃ f : Panel → Panel, exec (.ramwr d) s = .next (s.mapPanels f) ∧
    ∀ p : Panel, p.quiet = 0 →
    (p.awake ≠ .yes ∨ p.mode16 ≠ .yes ∨ p.orient ≠ .yes ∨ p.cols = none ∨ p.rows = none ∨ d.length % 2 = 1 ∨
      (∃ xs xe ys ye : Word, p.cols = some (xs, xe) ∧ p.rows = some (ys, ye) ∧
        (xe.toNat < xs.toNat ∨ s.cfg.width ≤ xe.toNat ∨ ye.toNat < ys.toNat ∨ s.cfg.height ≤ ye.toNat ∨
          (xe.toNat - xs.toNat + 1) * (ye.toNat - ys.toNat + 1) < d.length / 2))) →
    f p = forgotten 0

/-- Outside the quiet time, COLMOD makes the colour mode known exactly with the configured payload; MADCTL forgets every
cell and makes the access order known exactly with the configured payload (20_memory.md R105, R106). -/
def Obligations.ModeCommandsCompareTheirPayload : Prop :=
  ∀ (d p12 p13 : List Byte) (s : State),
    s.cfg.initPayload[12]? = some p12 → s.cfg.initPayload[13]? = some p13 → ∃ f g : Panel → Panel,
    exec (.colmod d) s = .next (s.mapPanels f) ∧ exec (.madctl d) s = .next (s.mapPanels g) ∧
    ∀ p : Panel, p.quiet = 0 →
      f p = { p with mode16 := if d = p13 then .yes else .unknown } ∧
      g p = { p with fm := [], orient := if d = p12 then .yes else .unknown }

/-- Outside the quiet time, each of the 14 NEUTRAL commands changes nothing with as many data bytes as the init table gives
it, and forgets everything with any other number (20_memory.md R108). -/
def Obligations.NeutralCommandsChangeNothing : Prop :=
  ∀ (d payload : List Byte) (s : State) (i : Instr) (k : Nat), (i, k) ∈ neutralCommands d →
    s.cfg.initPayload[k]? = some payload → ∃ f : Panel → Panel, exec i s = .next (s.mapPanels f) ∧
    ∀ p : Panel, p.quiet = 0 → f p = if d.length = payload.length then p else forgotten 0

/-- Inside the quiet time every one of the 21 panel commands only forgets everything and ends the quiet time
(20_memory.md R107). -/
def Obligations.QuietTimeTurnsEveryCommandAway : Prop :=
  ∀ (d : List Byte) (s : State) (i : Instr), i ∈ panelCommands d → ∃ f : Panel → Panel,
    exec i s = .next (s.mapPanels f) ∧ ∀ p : Panel, 0 < p.quiet → f p = forgotten 0

/-! ## The panel's frame memory -/

/-- A cell written reads as what was written, every other cell reads as before, and the canonical form is kept. -/
def Obligations.FrameMemoryReadsWhatWasWritten : Prop :=
  ∀ (fm : FrameMemory) (a b : Nat) (v : Word),
    (fm.write a v).read b = (if b = a then some v else fm.read b) ∧ (fm.wf = true → (fm.write a v).wf = true)

/-! ## The mapper (43_input_mapper.md) -/

/-- The mapped value lies in `[0, R]`, with the endpoints at the clamp limits, in both rounding modes; 16 bits hold it. -/
def Obligations.MapFnEndpointsAndRange : Prop :=
  ∀ (cfg : Config) (r : Nat),
    mapFn cfg cfg.clampLo = 0 ∧ mapFn cfg cfg.clampHi = cfg.width - cfg.spriteWidth ∧
    mapFn cfg r ≤ cfg.width - cfg.spriteWidth ∧ cfg.width - cfg.spriteWidth ≤ 65535 ∧
    (BitVec.ofNat 16 (mapFn cfg r)).toNat = mapFn cfg r

/-- Outside the clamp range the mapped value is that of the nearer limit. -/
def Obligations.MapFnSaturates : Prop :=
  ∀ (cfg : Config) (r : Nat),
    (r ≤ cfg.clampLo → mapFn cfg r = mapFn cfg cfg.clampLo) ∧ (cfg.clampHi ≤ r → mapFn cfg r = mapFn cfg cfg.clampHi)

/-- The mapped value never falls as the sample rises, in both rounding modes. With the reference constants it takes every
value from 0 to 106 on samples up to 1024, and 1, 51 and 106 first at 253, 500 and 772 (43_input_mapper.md R239). -/
def Obligations.MapFnIsMonotone : Prop :=
  (∀ (cfg : Config) (r r' : Nat), r ≤ r' → mapFn cfg r ≤ mapFn cfg r') ∧
  ∀ cfg : Config, cfg.width = 130 → cfg.spriteWidth = 24 → cfg.clampLo = 250 → cfg.clampHi = 774 →
    (∀ p, p ≤ 106 → ∃ r, r ≤ 1024 ∧ mapFn cfg r = p) ∧
    (∀ r, mapFn cfg r = 1 → 253 ≤ r) ∧ mapFn cfg 253 = 1 ∧ (∀ r, mapFn cfg r = 51 → 500 ≤ r) ∧ mapFn cfg 500 = 51 ∧
    (∀ r, mapFn cfg r = 106 → 772 ≤ r) ∧ mapFn cfg 772 = 106

/-- The mapped value is an integer nearest to `d * R / SPAN`; at a tie HALF_AWAY takes the upper neighbour and HALF_EVEN the
even one (43_input_mapper.md R234-R236). -/
def Obligations.MapFnRoundsToNearest : Prop :=
  ∀ (cfg : Config) (r d m range span : Nat), d = clamp cfg r - cfg.clampLo → m = mapFn cfg r →
    range = cfg.width - cfg.spriteWidth → span = cfg.clampHi - cfg.clampLo →
    2 * d * range ≤ 2 * span * m + span ∧ 2 * span * m ≤ 2 * d * range + span ∧
    (cfg.rounding = .halfAway → 2 * d * range ≠ 2 * span * m + span) ∧
    (cfg.rounding = .halfEven → 2 * d * range = 2 * span * m + span ∨ 2 * span * m = 2 * d * range + span → m % 2 = 0)

/-- With the reference constants `q(r)` is a half-integer only at r = 381 and r = 643, where HALF_AWAY gives 27 and 80 and
HALF_EVEN 26 and 80; r = 381 is the one sample where the two modes differ. -/
def Obligations.TiesOfTheReferenceConstants : Prop :=
  ∀ cfg : Config, cfg.width = 130 → cfg.spriteWidth = 24 → cfg.clampLo = 250 → cfg.clampHi = 774 →
    (∀ r, r ≤ 2047 → ((2 * ((clamp cfg r - 250) * 106)) % 1048 = 524 ↔ r = 381 ∨ r = 643)) ∧
    2 * ((clamp cfg 381 - 250) * 106) = 53 * 524 ∧ 2 * ((clamp cfg 643 - 250) * 106) = 159 * 524 ∧
    mapHalfAway cfg (381 - 250) = 27 ∧ mapHalfAway cfg (643 - 250) = 80 ∧
    mapHalfEven cfg (381 - 250) = 26 ∧ mapHalfEven cfg (643 - 250) = 80 ∧
    (∀ r, r ≤ 2047 →
      (mapHalfAway cfg (clamp cfg r - 250) ≠ mapHalfEven cfg (clamp cfg r - 250) ↔ r = 381)) ∧
    mapFn cfg 500 = 51

/-- The ADC handshake: `Sample` asks for a sample, waits any number of edges, takes the value at the first edge with
`adc_ack` = 1, and at the next edge writes `map_raw`, `map_pixel` and MAP_VALID together; nothing else of the block
changes (43_input_mapper.md R233, 10_state.md R32). -/
def Obligations.SampleWritesTheMapResult : Prop :=
  ∀ (s : State) (first taken last : Inputs) (waits rest : List Inputs) (items : List PlanItem),
    s.fsm = .exec → s.phase = .ready → s.plan = ⟨.sample, .plain⟩ :: items →
    s.inputs = first :: (waits ++ taken :: last :: rest) →
    first.rst = false → taken.rst = false → last.rst = false →
    (∀ w ∈ waits, w.rst = false ∧ w.adcAck = false) → taken.adcAck = true →
    runEdges (waits.length + 3) s = .next { s with
      inputs := rest, rstPrev := false, plan := items, phase := .ready, adcWait := false, mapRaw := taken.adcData,
      mapPixel := BitVec.ofNat 16 (mapFn s.cfg taken.adcData.toNat), mapValid := true }

/-- An ADC that never acknowledges keeps the block in EXEC with `adc_req` = 1, however long it runs without reset
(43_input_mapper.md R233, 70_reset_and_hazards.md R350). -/
def Obligations.SilentAdcHoldsTheBlock : Prop :=
  ∀ (s : State) (k : Nat), s.fsm = .exec → s.phase = .ready → s.plan = [⟨.sample, .plain⟩] →
    (∀ inp ∈ s.inputs.take (k + 1), inp.rst = false ∧ inp.adcAck = false) →
    ∃ t, runEdges (k + 1) s = .next t ∧ t.fsm = .exec ∧ t.adcReq = true ∧ t.status.getLsbD 0 = true ∧
      t.rqReady false = false ∧ t.mapValid = s.mapValid ∧ t.log = s.log

/-! ## Execution and the panel port (41_transport.md) -/

/-- With nothing left of the plan, the next edge without reset leads to IDLE and changes nothing else
(10_state.md R40 arm 5, R41). A `SetInitDone(v)` at the head of the plan is over after one edge, at which INIT_DONE becomes v
(R43, R51), and nothing else changes but the counter its mark moves. That each takes one edge is the model's choice (logs 6
and 14). -/
def Obligations.EmptyPlanLeadsToIdle : Prop :=
  (∀ s : State, s.fsm = .exec → s.plan = [] → s.inputNow.rst = false →
    step s = .next { s with inputs := s.inputs.tail, rstPrev := false, fsm := .idle }) ∧
  ∀ (s : State) (v : Bool) (m : Mark) (items : List PlanItem),
    s.fsm = .exec → s.plan = ⟨.setInitDone v, m⟩ :: items → s.inputNow.rst = false →
    step s = .next (State.applyMark { s with
      inputs := s.inputs.tail, rstPrev := false, plan := items, phase := .ready, initDone := v } m)

/-- A plan without a sample runs to its end in the number of edges counted for it, when no reset comes: its events are
appended to the trace in order, and nothing else is (10_state.md R43, 20_memory.md R96, R97). The number of edges is the
model's choice (log 6). -/
def Obligations.PlanRunsToItsEnd : Prop :=
  ∀ (s : State) (n : Nat), s.fsm = .exec → s.phase = .ready → sampleFree s.plan = true → n = planEdges s.cfg s.plan →
    s.NoReset n →
    ∃ t, runEdges n s = .next t ∧ t.plan = [] ∧ t.fsm = .exec ∧ t.phase = .ready ∧
      t.trace = s.trace ++ (planEvents s.plan).map TraceItem.event ∧ t.inputs = s.inputs.drop n ∧ SameBesidesExecution s t

/-- Every well-formed request but MAP, started between requests, is over after its plan's edges and one more, when no reset
comes: the block is again between requests, its events are appended to the trace and nothing else is, and INIT_DONE is
set by INIT only. At the end of INIT `init_idx` is 20, after another request it is as before, and `pix_rem` is 0
(10_state.md R44, R45). The number of edges and the one edge more are the model's choice (logs 6 and 14). -/
def Obligations.RequestRunsToCompletion : Prop :=
  ∀ (i : Instr) (s : State), isRequest i = true → i ≠ .map → i.wellFormed = true → s.Resting →
    ∃ t0, exec i s = .next t0 ∧ ∀ n, n = planEdges t0.cfg t0.plan + 1 → t0.NoReset n →
      ∃ t, runEdges n t0 = .next t ∧ t.Resting ∧
        t.trace = s.trace ++ (planEvents t0.plan).map TraceItem.event ∧
        t.initDone = (if i = .init then true else s.initDone) ∧
        t.initIdx = (if i = .init then 20 else s.initIdx) ∧ t.pixRem = 0 ∧ SameBesidesExecution s t

/-- `BYTE(b)` on the pins: bit 7 first, each bit on `mosi` for a half period with `sclk` = 0 and then for a half period with
`sclk` = 1; after the byte `sclk` is 0 and `mosi` is bit 0 (41_transport.md R168). The event is in the trace at the eighth
falling edge and no earlier (log 7); there the byte joins the frame in progress, and the input of that edge says whether the
bus loses it (93_implementation_defined.md I11; log 16). The edge counts are the model's (log 6). -/
def Obligations.ByteIsShiftedMsbFirst : Prop :=
  ∀ (s : State) (b : Byte) (m : Mark) (items : List PlanItem) (D : Nat),
    s.fsm = .exec → s.phase = .ready → s.plan = ⟨.emit (.byte b), m⟩ :: items → D = sclkDiv s.cfg →
    s.NoReset (16 * D + 1) →
    (∀ k j, k < 8 → j < D →
      (∃ t, runEdges (2 * D * k + j + 1) s = .next t ∧ t.sclk = false ∧ t.mosi = b.getLsbD (7 - k) ∧
        t.cs = s.cs ∧ t.cd = s.cd ∧ t.log = s.log) ∧
      (∃ t, runEdges (2 * D * k + D + j + 1) s = .next t ∧ t.sclk = true ∧
        t.mosi = b.getLsbD (7 - k) ∧ t.cs = s.cs ∧ t.cd = s.cd ∧ t.log = s.log)) ∧
    (∃ t, runEdges (16 * D + 1) s = .next t ∧ t.sclk = false ∧ t.mosi = b.getLsbD 0 ∧
      t.plan = items ∧ t.phase = .ready ∧ t.cs = s.cs ∧ t.cd = s.cd ∧ t.log = .event (.byte b) :: s.log ∧
      t.rx = (if s.cs = s.cfg.csActive then (if s.cd then CdLevel.data else CdLevel.cmd, b) :: s.rx else s.rx) ∧
      t.rxFaulty = (s.rxFaulty || (s.inputs.getD (16 * D) quietInputs).busFault) ∧
      t.lostBytes =
        if (s.inputs.getD (16 * D) quietInputs).busFault then s.log.length :: s.lostBytes else s.lostBytes)

/-- A change of CS or CD comes one half period of SCLK after the block turns to it and no earlier: until then the lines and
the trace stand still (41_transport.md R169). -/
def Obligations.LineChangeKeepsItsDistance : Prop :=
  ∀ (s : State) (e : Event) (m : Mark) (items : List PlanItem),
    s.fsm = .exec → s.phase = .ready → s.plan = ⟨.emit e, m⟩ :: items → ((∃ a, e = .cs a) ∨ ∃ l, e = .cd l) →
    s.NoReset (sclkDiv s.cfg + 1) →
    (∀ j, j ≤ sclkDiv s.cfg → ∃ t, runEdges j s = .next t ∧ t.cs = s.cs ∧ t.cd = s.cd ∧
      t.sclk = s.sclk ∧ t.mosi = s.mosi ∧ t.log = s.log ∧ t.plan = s.plan) ∧
    (∃ t, runEdges (sclkDiv s.cfg + 1) s = .next t ∧ t.log = .event e :: s.log ∧ t.plan = items ∧
      t.sclk = s.sclk ∧ t.mosi = s.mosi ∧
      (∀ a, e = .cs a → t.cd = s.cd ∧ (t.cs = s.cfg.csActive ↔ a = .act)) ∧
      (∀ l, e = .cd l → t.cs = s.cs ∧ (t.cd = true ↔ l = .data)))

/-- A WAIT of at least 1 ms lasts `ms * CLK_HZ / 1000` edges, rounded up, after the edge that starts it; the lines stand
still throughout, and at its end the panel's quiet time is shorter by `ms` (10_state.md R46, 41_transport.md R171,
20_memory.md R107). -/
def Obligations.WaitLastsItsTime : Prop :=
  ∀ (s : State) (ms n : Nat) (m : Mark) (items : List PlanItem),
    s.fsm = .exec → s.phase = .ready → s.plan = ⟨.emit (.wait ms), m⟩ :: items → 1 ≤ ms →
    ms * s.cfg.clkHz ≤ 1000 * n → 1000 * n < ms * s.cfg.clkHz + 1000 → s.NoReset (n + 1) →
    (∀ j, j ≤ n → ∃ t, runEdges j s = .next t ∧ t.plan = s.plan ∧ t.cs = s.cs ∧ t.cd = s.cd ∧
      t.sclk = s.sclk ∧ t.mosi = s.mosi ∧ t.log = s.log ∧
      ∀ rule, t.panelBy rule = s.panelBy rule) ∧
    (∃ t, runEdges (n + 1) s = .next t ∧ t.plan = items ∧ t.cs = s.cs ∧ t.cd = s.cd ∧
      t.sclk = s.sclk ∧ t.mosi = s.mosi ∧ t.log = .event (.wait ms) :: s.log ∧
      ∀ rule, t.panelBy rule = { s.panelBy rule with quiet := (s.panelBy rule).quiet - ms })

/-- The serial clock is never faster than `SCLK_HZ`, and the divider is the least that keeps it so; a clock that is a
multiple of 8 MHz gives exactly 4 MHz, any other less (41_transport.md R170). -/
def Obligations.SerialClockIsAtMostFourMegahertz : Prop :=
  ∀ cfg : Config, 1 ≤ sclkDiv cfg ∧ cfg.clkHz ≤ 4000000 * (2 * sclkDiv cfg) ∧
    (∀ d, cfg.clkHz ≤ 4000000 * (2 * d) → sclkDiv cfg ≤ d) ∧
    (cfg.clkHz % 8000000 = 0 → cfg.clkHz = 4000000 * (2 * sclkDiv cfg)) ∧
    (cfg.clkHz % 8000000 ≠ 0 → cfg.clkHz < 4000000 * (2 * sclkDiv cfg))

/-- In a coherent state an edge without reset changes `mosi` only into `sclk` = 0, so `mosi` is stable across every rising
edge of `sclk`, and changes CS or CD only with `sclk` = 0 before and after (41_transport.md R168, R169). -/
def Obligations.LinesMoveOnlyWhileSclkIsLow : Prop :=
  ∀ s t : State, s.Coherent → s.inputNow.rst = false → step s = .next t →
    (t.sclk = true → t.mosi = s.mosi) ∧ (t.cs ≠ s.cs ∨ t.cd ≠ s.cd → s.sclk = false ∧ t.sclk = false)

/-! ## Invariants -/

/-- The machine after reset meets the invariant and its panel agrees with its trace. -/
def Obligations.ResetStateIsCoherent : Prop := State.reset.Coherent ∧ State.reset.PanelAgrees

/-- Every step keeps the invariant: the frame memory's canonical form, the fault flags, the assembly buffer's counters, the
discipline of the panel port, the pins of a byte in progress, `init_idx`, `pix_rem` and the map result. -/
def Obligations.StepKeepsCoherence : Prop :=
  ∀ s t : State, s.Coherent → step s = .next t → t.Coherent

/-- A coherent state never stops: every step from it answers a next state, with no fault and no refusal. -/
def Obligations.CoherentStateNeverStops : Prop := ∀ s : State, s.Coherent → ∃ t, step s = .next t

/-- No step changes the configuration (10_state.md R57). -/
def Obligations.StepKeepsTheConfiguration : Prop := ∀ s t : State, step s = .next t → t.cfg = s.cfg

/-- A step never rewrites the trace, one total order to which events are only appended (20_memory.md R96), and appends at
most one entry. That it is at most one rests on the model's step and edges (logs 1 and 6): a step is one edge of `clk`, each
CS or CD change and each byte has edges of its own (41_transport.md R169, 70_reset_and_hazards.md R360), and a reset edge
emits nothing else (60_exceptions.md R304). -/
def Obligations.TraceOnlyGrows : Prop :=
  ∀ s t : State, step s = .next t → t.trace = s.trace ∨ ∃ x, t.trace = s.trace ++ [x]

/-- INIT_DONE changes only by an INIT's own micro-operations and by reset; MAP_VALID is set only by a sample and cleared only
by reset; FAULT_CAUSE is written only by fault entry and by reset (10_state.md R51-R53). -/
def Obligations.FlagsChangeOnlyByTheirWriters : Prop :=
  ∀ s t : State, step s = .next t → s.inputNow.rst = false →
    (t.initDone ≠ s.initDone → s.fsm = .exec ∧ ∃ m items, s.plan = ⟨.setInitDone t.initDone, m⟩ :: items) ∧
    ((t.mapValid, t.mapPixel, t.mapRaw) ≠ (s.mapValid, s.mapPixel, s.mapRaw) →
      t.mapValid = true ∧ s.fsm = .exec ∧ ∃ r, s.phase = .sampled r ∧ t.mapRaw = r) ∧
    (t.faultCause ≠ s.faultCause → t.fsm = .fault ∧ t.faultCause ≠ .none ∧ (s.fsm = .idle ∨ s.fsm = .assemble))

/-- Every step keeps the panel in agreement with the panel model evaluated on the trace and on the places of the bytes that
the bus dropped or corrupted (the model's choices of logs 5, 9 and 16). -/
def Obligations.PanelFollowsTheTrace : Prop :=
  ∀ s t : State, s.PanelAgrees → step s = .next t → t.PanelAgrees

/-! ## The panel's picture (20_memory.md section 7) -/

/-- The frame view of a transaction is one closed frame: its opcode with CD = CMD, its payload with CD = DATA
(00_scope.md R16, 30_encoding.md R132). -/
def Obligations.TransactionIsOneFrame : Prop :=
  ∀ (o : Byte) (p : List Byte) (rest : List TraceItem),
    frameViewFrom .data none ((tx o p).map TraceItem.event ++ rest) =
      ⟨(.cmd, o) :: p.map (fun b => (.data, b)), .closed⟩ :: frameViewFrom .data none rest

/-- INIT emits 23 closed frames with the opcodes of the table and of the fill, which hold every byte it shifts; the number of
bytes is the one 42_display_driver.md R194 gives, 11 + 2 * W * H of them for the fill; beside them it emits only the
WAITs of R192. -/
def Obligations.InitTraceHasItsShape : Prop :=
  ∀ (cfg : Config) (es : List Event) (frames : List Frame),
    es = planEvents (initPlan cfg) → frames = frameView (es.map TraceItem.event) →
    frames.length = 23 ∧ (∀ f ∈ frames, f.ending = .closed) ∧
    frames.map (fun f => f.bytes.head?) =
      ([0x01, 0x11, 0xB1, 0xB2, 0xB4, 0xC0, 0xC1, 0xC2, 0xC3, 0xC4, 0xC5, 0x20, 0x36, 0x3A, 0x2A, 0x2B, 0xE0, 0xE1, 0x13,
        0x29, 0x2A, 0x2B, 0x2C] : List Byte).map (fun o => some (CdLevel.cmd, o)) ∧
    (frames.flatMap (fun f => f.bytes)).map (fun b => b.2) = shiftedBytes es ∧
    (shiftedBytes es).length = (cfg.initPayload.map (fun p => 1 + p.length)).sum + 11 + 2 * cfg.width * cfg.height ∧
    (shiftedBytes (planEvents (fillPlan cfg cfg.background))).length = 11 + 2 * cfg.width * cfg.height ∧
    es.filterMap (fun e => match e with
        | .wait ms => some ms
        | _ => none) =
      (if 0 < cfg.delaySwresetMs then [cfg.delaySwresetMs] else []) ++
        (if 0 < cfg.delaySlpoutMs then [cfg.delaySlpoutMs] else [])

/-- When the two delays cover the panel's settling times and SLPOUT carries no data, INIT leaves the panel known whatever it
was: awake, in the configured mode and order, the window the whole screen, every cell BG (70_reset_and_hazards.md R342); a
SWRESET with data has no settling time to cover. When SLPOUT carries data, or a delay is too short for the panel, INIT
leaves it wholly unknown (20_memory.md R107). -/
def Obligations.InitLeavesThePanelKnown : Prop :=
  ∀ (cfg : Config) (p q : Panel) (w h : Word),
    w.toNat = cfg.width - 1 → h.toNat = cfg.height - 1 →
    q = panelAfter cfg p (planEvents (initPlan cfg)) →
    (cfg.tSwresetMs ≤ cfg.delaySwresetMs ∨ cfg.initPayload[0]? ≠ some [] → cfg.tSlpoutMs ≤ cfg.delaySlpoutMs →
      cfg.initPayload[1]? = some [] →
      q.Ready ∧ q.cols = some (0, w) ∧ q.rows = some (0, h) ∧
      ∀ col row, col < cfg.width → row < cfg.height → q.cell cfg col row = some cfg.background) ∧
    (cfg.initPayload[1]? ≠ some [] ∨ cfg.delaySlpoutMs < cfg.tSlpoutMs ∨
        (p.quiet = 0 ∧ cfg.initPayload[0]? = some [] ∧ cfg.delaySwresetMs < cfg.tSwresetMs) →
      q = forgotten 0)

/-- On a configured panel an in-bounds DRAW_RECT of at least one pixel paints exactly its rectangle: its cells hold the
colour, every other cell of the screen is as before, and the panel stays configured. -/
def Obligations.DrawRectPaintsExactlyItsRectangle : Prop :=
  ∀ (cfg : Config) (p q : Panel) (x y w h c : Word),
    p.Ready → x.toNat + w.toNat ≤ cfg.width → y.toNat + h.toNat ≤ cfg.height → 1 ≤ w.toNat → 1 ≤ h.toNat →
    q = panelAfter cfg p (planEvents (drawPlan cfg x y w h c)) →
    q.Ready ∧
    ∀ col row, col < cfg.width → row < cfg.height →
      q.cell cfg col row =
        if (x.toNat ≤ col ∧ col < x.toNat + w.toNat) ∧ (y.toNat ≤ row ∧ row < y.toNat + h.toNat) then some c
        else p.cell cfg col row

/-! ## The bus (41_transport.md R165) -/

/-- The block cannot tell that the bus dropped or corrupted a byte: of two states that differ at most in the panel's side and
in what the bus does to bytes, one goes on exactly if the other does, the states after the step again differ in no more
than that, and outputs, `status` among them, and trace are the same (41_transport.md R165, 93_implementation_defined.md
I11; log 16). -/
def Obligations.BusFaultsAreUnobservable : Prop :=
  ∀ s s' t : State, s.blockSide = s'.blockSide → step s = .next t →
    ∃ t', step s' = .next t' ∧ t'.blockSide = t.blockSide ∧ t'.trace = t.trace ∧ ∀ rst, t'.outputs rst = t.outputs rst
end

