-- ==== Sys2Proof/Laws/Memory.lean ====
section
/-! SUPPORT. The panel's frame memory: reads after writes, and that every operation keeps the canonical form. -/

namespace Sys2Proof.Machine

@[simp] theorem read_nil (a : Nat) : FrameMemory.read [] a = none := rfl

@[simp] theorem wf_nil : FrameMemory.wf [] = true := rfl

@[simp] theorem read_write_same (fm : FrameMemory) (a : Nat) (v : Word) : (fm.write a v).read a = some v := by
  induction fm with
  | nil => simp [FrameMemory.write, FrameMemory.read]
  | cons c rest ih =>
    obtain ⟨b, w⟩ := c
    simp only [FrameMemory.write]
    split
    · simp [FrameMemory.read]
    · split
      · simp [FrameMemory.read]
      · rename_i h; simpa [FrameMemory.read, h] using ih

@[simp] theorem read_write_other (fm : FrameMemory) {a b : Nat} (v : Word) (h : b ≠ a) :
    (fm.write a v).read b = fm.read b := by
  induction fm with
  | nil => simp [FrameMemory.write, FrameMemory.read, h]
  | cons c rest ih =>
    obtain ⟨k, w⟩ := c
    simp only [FrameMemory.write]
    split
    · simp [FrameMemory.read, h]
    · split
      · rename_i hk; subst hk; simp [FrameMemory.read, h]
      · simp only [FrameMemory.read, ih]

/-- The cells a write lists are the one written and those listed before. -/
theorem mem_write {fm : FrameMemory} {a : Nat} {v : Word} {c : Nat × Word} (h : c ∈ fm.write a v) :
    c = (a, v) ∨ c ∈ fm := by
  induction fm with
  | nil => simpa [FrameMemory.write] using h
  | cons d rest ih =>
    obtain ⟨k, w⟩ := d
    simp only [FrameMemory.write] at h
    split at h
    · simpa using h
    · split at h
      · rcases List.mem_cons.1 h with h | h
        · exact .inl h
        · exact .inr (List.mem_cons_of_mem _ h)
      · rcases List.mem_cons.1 h with h | h
        · exact .inr (h ▸ List.mem_cons_self)
        · exact (ih h).imp id (List.mem_cons_of_mem _)

/-- A write keeps the canonical form. -/
theorem wf_write {fm : FrameMemory} (h : fm.wf = true) (a : Nat) (v : Word) : (fm.write a v).wf = true := by
  simp only [FrameMemory.wf, decide_eq_true_eq] at h ⊢
  induction fm with
  | nil => simp [FrameMemory.write]
  | cons c rest ih =>
    obtain ⟨k, w⟩ := c
    obtain ⟨hk, hr⟩ := List.pairwise_cons.1 h
    simp only [FrameMemory.write]
    split
    · rename_i hlt
      refine List.pairwise_cons.2 ⟨fun d hd => ?_, h⟩
      rcases List.mem_cons.1 hd with rfl | hd
      · exact hlt
      · exact hlt.trans (hk d hd)
    · split
      · rename_i heq
        subst heq
        exact List.pairwise_cons.2 ⟨hk, hr⟩
      · refine List.pairwise_cons.2 ⟨fun d hd => ?_, ih hr⟩
        rcases mem_write hd with rfl | hd
        · simp only; omega
        · exact hk d hd

/-! ## Streams -/

theorem wf_writePixels {cfg : Config} {xs ys ww : Nat} (cs : List Word) :
    ∀ {i : Nat} {fm : FrameMemory}, fm.wf = true → (writePixels cfg xs ys ww i cs fm).wf = true := by
  induction cs with
  | nil => exact fun h => h
  | cons v rest ih => exact fun h => ih (wf_write h _ _)

/-- A stream lists no cell but those it writes. -/
theorem mem_writePixels {cfg : Config} {xs ys ww : Nat} (cs : List Word) :
    ∀ {i : Nat} {fm : FrameMemory} {c : Nat × Word}, c ∈ writePixels cfg xs ys ww i cs fm →
      c ∈ fm ∨ ∃ j, i ≤ j ∧ j < i + cs.length ∧ c.1 = cellNumber cfg (xs + j % ww) (ys + j / ww) := by
  induction cs with
  | nil => exact fun h => .inl h
  | cons v rest ih =>
    intro i fm c h
    rcases ih h with h | ⟨j, h1, h2, h3⟩
    · rcases mem_write h with rfl | h
      · exact .inr ⟨i, le_refl _, by simp, rfl⟩
      · exact .inl h
    · exact .inr ⟨j, by omega, by simp only [List.length_cons]; omega, h3⟩

/-- Cells a stream does not reach read as before. -/
theorem read_writePixels_other {cfg : Config} {xs ys ww a : Nat} (cs : List Word) :
    ∀ {i : Nat} {fm : FrameMemory}, (∀ j, i ≤ j → j < i + cs.length → a ≠ cellNumber cfg (xs + j % ww) (ys + j / ww)) →
      (writePixels cfg xs ys ww i cs fm).read a = fm.read a := by
  induction cs with
  | nil => exact fun _ => rfl
  | cons v rest ih =>
    intro i fm h
    simp only [List.length_cons] at h
    rw [writePixels, ih (fun j h1 h2 => h j (by omega) (by omega)), read_write_other]
    exact h i (le_refl _) (by omega)

/-- Cells of a screen have different numbers. -/
theorem cellNumber_inj {cfg : Config} {c r c' r' : Nat} (h : c < cfg.width) (h' : c' < cfg.width)
    (he : cellNumber cfg c r = cellNumber cfg c' r') : c = c' ∧ r = r' := by
  simp only [cellNumber] at he
  have hw : 0 < cfg.width := by omega
  have e1 : (r * cfg.width + c) % cfg.width = c := by rw [Nat.mul_comm, Nat.mul_add_mod, Nat.mod_eq_of_lt h]
  have e2 : (r' * cfg.width + c') % cfg.width = c' := by rw [Nat.mul_comm, Nat.mul_add_mod, Nat.mod_eq_of_lt h']
  have hc : c = c' := by rw [← e1, ← e2, he]
  subst hc
  exact ⟨rfl, Nat.eq_of_mul_eq_mul_right hw (by omega)⟩

/-- The pixel a stream writes at its place `j`. -/
theorem read_writePixels {cfg : Config} {xs ys ww : Nat} (hw : 0 < ww) (hx : xs + ww ≤ cfg.width) (cs : List Word) :
    ∀ {i j : Nat} {fm : FrameMemory} (_ : i ≤ j) (hj : j - i < cs.length),
      (writePixels cfg xs ys ww i cs fm).read (cellNumber cfg (xs + j % ww) (ys + j / ww)) = some cs[j - i] := by
  induction cs with
  | nil => intro i j fm _ hj; simp at hj
  | cons v rest ih =>
    intro i j fm h1 hj
    simp only [List.length_cons] at hj
    by_cases he : i = j
    · subst he
      rw [writePixels, read_writePixels_other, read_write_same]
      · simp
      · intro k h2 h3 hk
        have hm1 := Nat.mod_lt i hw
        have hm2 := Nat.mod_lt k hw
        obtain ⟨hc, hr⟩ := cellNumber_inj (by omega) (by omega) hk
        have e1 := Nat.div_add_mod i ww
        have e2 := Nat.div_add_mod k ww
        rw [show i / ww = k / ww by omega] at e1
        omega
    · rw [writePixels, ih (by omega) (by omega)]
      have : j - i = (j - (i + 1)) + 1 := by omega
      simp [this]

end Sys2Proof.Machine
end

