-- ==== Sys2Proof/Laws/PerInstr.lean ====
section
/-! SUPPORT. Decoding undoes encoding, per instruction, and the small lemmas of the byte helpers. -/

namespace Sys2Proof

theorem be16_toNat (a b : Byte) : (be16 a b).toNat = a.toNat * 256 + b.toNat := by
  rw [be16, BitVec.toNat_append, ← Nat.shiftLeft_add_eq_or_of_lt b.isLt, Nat.shiftLeft_eq]

theorem hi8_toNat (v : Word) : (hi8 v).toNat = v.toNat / 256 := by
  have := v.isLt
  simp only [hi8, BitVec.extractLsb'_toNat, Nat.shiftRight_eq_div_pow]
  omega

theorem lo8_toNat (v : Word) : (lo8 v).toNat = v.toNat % 256 := by
  simp only [lo8, BitVec.extractLsb'_toNat, Nat.shiftRight_eq_div_pow]
  omega

@[simp] theorem be16_hi8_lo8 (v : Word) : be16 (hi8 v) (lo8 v) = v := by
  apply BitVec.eq_of_toNat_eq
  rw [be16_toNat, hi8_toNat, lo8_toNat]
  omega

@[simp] theorem hi8_be16 (a b : Byte) : hi8 (be16 a b) = a := by
  apply BitVec.eq_of_toNat_eq
  rw [hi8_toNat, be16_toNat]
  omega

@[simp] theorem lo8_be16 (a b : Byte) : lo8 (be16 a b) = b := by
  apply BitVec.eq_of_toNat_eq
  rw [lo8_toNat, be16_toNat]
  omega

@[simp] theorem operandBytes_length (v : Word) : (operandBytes v).length = 2 := rfl

/-- A frame of one command byte and data bytes decodes as its opcode says. -/
theorem decodeFrame_frameOf {op : Byte} {data : List Byte} {i : Instr} (h : panelCommand op data = some i) :
    decodeFrame (frameOf op data) = .ok i := by
  have h1 : (data.map (fun b => (CdLevel.data, b))).all (fun b => b.1 == .data) = true := by simp
  have h2 : (data.map (fun b => (CdLevel.data, b))).map (fun b => b.2) = data := by simp [Function.comp_def]
  simp [frameOf, decodeFrame, h2, h]

end Sys2Proof

namespace Sys2Proof.Laws.EncodeDecodes

/-- A well-formed instruction is read back from its words. -/
def Statement (i : Instr) : Prop := i.wellFormed = true → decode (encode i) = .ok i

theorem send (opc : Byte) (payload : List Byte) : Statement (.send opc payload) := by
  intro h
  have h16 : payload.length ≤ 16 := by simpa [Instr.wellFormed, maxPayload] using h
  have hl : (BitVec.ofNat 8 payload.length).toNat = payload.length := by
    rw [BitVec.toNat_ofNat]; omega
  have : ¬ maxPayload < payload.length := by simp [maxPayload]; omega
  simp [encode, decode, decodeRequest, decodeSend, hl, this, -BitVec.toNat_ofNat]

theorem init : Statement .init := fun _ => rfl

theorem setWindow (x0 y0 x1 y1 : Word) : Statement (.setWindow x0 y0 x1 y1) := fun _ => by
  simp [encode, decode, decodeRequest, decodeSetWindow, operandBytes]

theorem drawRect (x y w h c : Word) : Statement (.drawRect x y w h c) := fun _ => by
  simp [encode, decode, decodeRequest, decodeDrawRect, operandBytes]

theorem fillScreen (c : Word) : Statement (.fillScreen c) := fun _ => by
  simp [encode, decode, decodeRequest, decodeFillScreen, operandBytes]

theorem map : Statement .map := fun _ => rfl

theorem swreset (data : List Byte) : Statement (.swreset data) := fun _ => decodeFrame_frameOf (op := 0x01) rfl

theorem slpout (data : List Byte) : Statement (.slpout data) := fun _ => decodeFrame_frameOf (op := 0x11) rfl

theorem invoff (data : List Byte) : Statement (.invoff data) := fun _ => decodeFrame_frameOf (op := 0x20) rfl

theorem caset (data : List Byte) : Statement (.caset data) := fun _ => decodeFrame_frameOf (op := 0x2A) rfl

theorem raset (data : List Byte) : Statement (.raset data) := fun _ => decodeFrame_frameOf (op := 0x2B) rfl

theorem ramwr (data : List Byte) : Statement (.ramwr data) := fun _ => decodeFrame_frameOf (op := 0x2C) rfl

theorem colmod (data : List Byte) : Statement (.colmod data) := fun _ => decodeFrame_frameOf (op := 0x3A) rfl

theorem madctl (data : List Byte) : Statement (.madctl data) := fun _ => decodeFrame_frameOf (op := 0x36) rfl

theorem frmctr1 (data : List Byte) : Statement (.frmctr1 data) := fun _ => decodeFrame_frameOf (op := 0xB1) rfl

theorem frmctr2 (data : List Byte) : Statement (.frmctr2 data) := fun _ => decodeFrame_frameOf (op := 0xB2) rfl

theorem invctr (data : List Byte) : Statement (.invctr data) := fun _ => decodeFrame_frameOf (op := 0xB4) rfl

theorem pwctr1 (data : List Byte) : Statement (.pwctr1 data) := fun _ => decodeFrame_frameOf (op := 0xC0) rfl

theorem pwctr2 (data : List Byte) : Statement (.pwctr2 data) := fun _ => decodeFrame_frameOf (op := 0xC1) rfl

theorem pwctr3 (data : List Byte) : Statement (.pwctr3 data) := fun _ => decodeFrame_frameOf (op := 0xC2) rfl

theorem pwctr4 (data : List Byte) : Statement (.pwctr4 data) := fun _ => decodeFrame_frameOf (op := 0xC3) rfl

theorem pwctr5 (data : List Byte) : Statement (.pwctr5 data) := fun _ => decodeFrame_frameOf (op := 0xC4) rfl

theorem vmctr1 (data : List Byte) : Statement (.vmctr1 data) := fun _ => decodeFrame_frameOf (op := 0xC5) rfl

theorem gmctrp1 (data : List Byte) : Statement (.gmctrp1 data) := fun _ => decodeFrame_frameOf (op := 0xE0) rfl

theorem gmctrn1 (data : List Byte) : Statement (.gmctrn1 data) := fun _ => decodeFrame_frameOf (op := 0xE1) rfl

theorem noron (data : List Byte) : Statement (.noron data) := fun _ => decodeFrame_frameOf (op := 0x13) rfl

theorem dispon (data : List Byte) : Statement (.dispon data) := fun _ => decodeFrame_frameOf (op := 0x29) rfl

end Sys2Proof.Laws.EncodeDecodes
end

