-- ==== Sys2Proof/Laws/Panel.lean ====
section
/-! SUPPORT. What the panel's moves do: streams, the shared gate `accept`, and that every move keeps the frame memory in
canonical form and on the screen. -/

namespace Sys2Proof.Machine

/-! ## Streams -/

theorem streamColours_length (d : List Byte) : (streamColours d).length = d.length / 2 := by
  induction d using streamColours.induct with
  | case1 hi lo rest ih => simp only [streamColours, List.length_cons, ih]; omega
  | case2 d h =>
    match d with
    | [] => rfl
    | [_] => simp [streamColours]
    | a :: b :: t => exact absurd rfl (h a b t)

/-- The colour a stream spells at place `i`. -/
theorem streamColours_getElem (d : List Byte) :
    ∀ (i : Nat) (h : i < (streamColours d).length),
      (streamColours d)[i] = be16 (d.getD (2 * i) 0) (d.getD (2 * i + 1) 0) := by
  induction d using streamColours.induct with
  | case1 hi lo rest ih =>
    intro i h
    cases i with
    | zero => simp [streamColours]
    | succ i =>
      simp only [streamColours, List.length_cons] at h
      simpa [streamColours, show 2 * (i + 1) = 2 * i + 1 + 1 by omega] using ih i (by omega)
  | case2 d h =>
    match d with
    | [] => intro i h; simp [streamColours] at h
    | [_] => intro i h; simp [streamColours] at h
    | a :: b :: t => exact absurd rfl (h a b t)

theorem pixelBytes_length (n : Nat) (c : Word) : (pixelBytes n c).length = 2 * n := by
  simp [pixelBytes, Nat.mul_comm]

theorem streamColours_pixelBytes (n : Nat) (c : Word) : streamColours (pixelBytes n c) = List.replicate n c := by
  induction n with
  | zero => rfl
  | succ n ih =>
    simpa [pixelBytes, List.replicate_succ, operandBytes, streamColours] using ih

/-! ## The gate and havoc -/

theorem havoc_eq (p : Panel) : p.havoc = forgotten p.quiet := rfl

/-- What `accept` can do: inside the quiet time forget everything, otherwise the effect. -/
theorem accept_cases (p : Panel) (f : Panel → Panel) :
    (0 < p.quiet ∧ p.accept f = forgotten 0) ∨ (p.quiet = 0 ∧ p.accept f = f p) := by
  by_cases h : 0 < p.quiet
  · exact .inl ⟨h, by simp [Panel.accept, h]; rfl⟩
  · exact .inr ⟨by omega, by simp [Panel.accept, h]⟩

theorem accept_of_quiet {p : Panel} (h : p.quiet = 0) (f : Panel → Panel) : p.accept f = f p := by
  simp [Panel.accept, h]

theorem accept_havoc (p : Panel) : p.accept Panel.havoc = forgotten 0 := by
  rcases accept_cases p Panel.havoc with ⟨_, h⟩ | ⟨h, e⟩
  · exact h
  · rw [e, havoc_eq, h]

/-- What a block reset can leave of the panel: nothing, or all but the access order. -/
theorem blockReset_cases (rule : ResetRule) (cut : Bool) (p : Panel) :
    ((cut = true ∨ rule = .forgets) ∧ p.blockReset rule cut = forgotten 0) ∨
    (cut = false ∧ rule = .keeps ∧ p.blockReset rule cut = { p with orient := .unknown }) := by
  cases rule with
  | forgets => exact .inl ⟨.inr rfl, rfl⟩
  | keeps =>
    cases cut with
    | true => exact .inl ⟨.inl rfl, accept_havoc p⟩
    | false => exact .inr ⟨rfl, rfl, rfl⟩

/-- A block reset held for further edges changes nothing more. -/
theorem blockReset_blockReset (rule : ResetRule) (cut : Bool) (p : Panel) :
    (p.blockReset rule cut).blockReset rule false = p.blockReset rule cut := by
  cases rule with
  | forgets => rfl
  | keeps => rcases blockReset_cases .keeps cut p with ⟨_, e⟩ | ⟨_, _, e⟩ <;> rw [e] <;> rfl

/-! ## The panel model on a trace -/

/-- A lost byte beyond the end of a trace changes nothing of what the panel made of it. -/
theorem panelView_lost_past (rule : ResetRule) (cfg : Config) {n : Nat} (lost : List Nat) {log : List TraceItem}
    (h : log.length ≤ n) :
    panelView rule cfg (n :: lost) log = panelView rule cfg lost log := by
  induction log with
  | nil => rfl
  | cons x older ih =>
    simp only [List.length_cons] at h
    have hn : (older.length == n) = false := by simp; omega
    simp only [panelView, ih (by omega), List.contains_cons, hn, Bool.false_or]

/-! ## The frame memory's invariant -/

/-- The frame memory is canonical and names cells of the screen only. -/
abbrev Panel.MemoryOk (cfg : Config) (p : Panel) : Prop :=
  p.fm.wf = true ∧ ∀ c ∈ p.fm, c.1 < cfg.width * cfg.height

theorem forgotten_memoryOk (cfg : Config) (q : Nat) : (forgotten q).MemoryOk cfg :=
  ⟨rfl, fun _ h => absurd h List.not_mem_nil⟩

theorem havoc_memoryOk (cfg : Config) (p : Panel) : p.havoc.MemoryOk cfg := forgotten_memoryOk cfg p.quiet

/-- A cell of the screen has a number below `W * H`. -/
theorem cellNumber_lt {cfg : Config} {c r : Nat} (hc : c < cfg.width) (hr : r < cfg.height) :
    cellNumber cfg c r < cfg.width * cfg.height := by
  have h1 : (r + 1) * cfg.width ≤ cfg.height * cfg.width := Nat.mul_le_mul_right _ hr
  simp only [cellNumber]
  rw [Nat.mul_comm cfg.width]
  rw [Nat.add_mul] at h1
  omega

/-- What RAMWR can do: fill the window, or forget everything. -/
theorem ramwr_cases (cfg : Config) (d : List Byte) (p : Panel) :
    (∃ cols rows, p.cols = some cols ∧ p.rows = some rows ∧ streamFits cfg p cols rows d = true ∧
      Panel.ramwr cfg d p = { p with
        fm := writePixels cfg cols.1.toNat rows.1.toNat (cols.2.toNat - cols.1.toNat + 1) 0 (streamColours d) p.fm }) ∨
    Panel.ramwr cfg d p = p.havoc := by
  unfold Panel.ramwr
  split
  · rename_i cols rows hc hr
    split
    · rename_i hf
      exact .inl ⟨cols, rows, hc, hr, hf, rfl⟩
    · exact .inr rfl
  · exact .inr rfl

theorem ramwr_memoryOk {cfg : Config} {d : List Byte} {p : Panel} (h : p.MemoryOk cfg) :
    (Panel.ramwr cfg d p).MemoryOk cfg := by
  rcases ramwr_cases cfg d p with ⟨cols, rows, _, _, hf, he⟩ | he
  · rw [he]
    refine ⟨wf_writePixels _ h.1, fun c hc => ?_⟩
    rcases mem_writePixels _ hc with hc | ⟨j, _, hj, hn⟩
    · exact h.2 c hc
    · simp only [streamFits, decide_eq_true_eq] at hf
      obtain ⟨_, _, _, ⟨hx1, hx2⟩, ⟨hy1, hy2⟩, _, hl⟩ := hf
      rw [streamColours_length] at hj
      rw [hn]
      have hm := Nat.mod_lt j (show 0 < cols.2.toNat - cols.1.toNat + 1 by omega)
      have hd : j / (cols.2.toNat - cols.1.toNat + 1) < rows.2.toNat - rows.1.toNat + 1 :=
        Nat.div_lt_of_lt_mul (by omega)
      exact cellNumber_lt (by omega) (by omega)
  · rw [he]; exact havoc_memoryOk cfg p

theorem neutral_memoryOk {cfg : Config} {k : Nat} {d : List Byte} {p : Panel} (h : p.MemoryOk cfg) :
    (Panel.neutral cfg k d p).MemoryOk cfg := by
  unfold Panel.neutral
  split
  · exact h
  · exact havoc_memoryOk cfg p

/-- Every panel command keeps the frame memory canonical and on the screen. -/
theorem command_memoryOk {cfg : Config} (i : Instr) {p : Panel} (h : p.MemoryOk cfg) :
    (Panel.command cfg i p).MemoryOk cfg := by
  cases i
  case swreset d => simp only [Panel.command, Panel.swreset]; split <;> exact forgotten_memoryOk cfg _
  case slpout d => simp only [Panel.command, Panel.slpout]; split; exacts [h, havoc_memoryOk cfg p]
  case caset => exact h
  case raset => exact h
  case ramwr => exact ramwr_memoryOk h
  case colmod => exact h
  case madctl => exact ⟨rfl, fun _ h => absurd h List.not_mem_nil⟩
  all_goals first | exact neutral_memoryOk h | exact havoc_memoryOk cfg p

theorem blockReset_memoryOk {cfg : Config} (rule : ResetRule) (cut : Bool) {p : Panel} (h : p.MemoryOk cfg) :
    (p.blockReset rule cut).MemoryOk cfg := by
  rcases blockReset_cases rule cut p with ⟨_, e⟩ | ⟨_, _, e⟩ <;> rw [e]
  · exact forgotten_memoryOk cfg 0
  · exact h

theorem accept_memoryOk {cfg : Config} {p : Panel} {f : Panel → Panel} (h : p.quiet = 0 → (f p).MemoryOk cfg) :
    (p.accept f).MemoryOk cfg := by
  rcases accept_cases p f with ⟨_, e⟩ | ⟨hq, e⟩
  · rw [e]; exact forgotten_memoryOk cfg 0
  · rw [e]; exact h hq

end Sys2Proof.Machine
end

