-- ==== Sys2Proof/Laws/State.lean ====
section
/-! SUPPORT. What each operation on the state does to each field: one lemma per field. -/

namespace Sys2Proof.Machine

variable (s : State)

/-! ### `State.start` -/

@[simp] theorem start_cfg (plan : List PlanItem) : (s.start plan).cfg = s.cfg := rfl
@[simp] theorem start_inputs (plan : List PlanItem) : (s.start plan).inputs = s.inputs := rfl
@[simp] theorem start_rstPrev (plan : List PlanItem) : (s.start plan).rstPrev = s.rstPrev := rfl
@[simp] theorem start_rq (plan : List PlanItem) : (s.start plan).rq = s.rq := rfl
@[simp] theorem start_rqCnt (plan : List PlanItem) : (s.start plan).rqCnt = 0 := rfl
@[simp] theorem start_fsm (plan : List PlanItem) : (s.start plan).fsm = .exec := rfl
@[simp] theorem start_plan (plan : List PlanItem) : (s.start plan).plan = plan := rfl
@[simp] theorem start_phase (plan : List PlanItem) : (s.start plan).phase = .ready := rfl
@[simp] theorem start_initIdx (plan : List PlanItem) : (s.start plan).initIdx = s.initIdx := rfl
@[simp] theorem start_pixRem (plan : List PlanItem) : (s.start plan).pixRem = s.pixRem := rfl
@[simp] theorem start_delayCnt (plan : List PlanItem) : (s.start plan).delayCnt = s.delayCnt := rfl
@[simp] theorem start_adcWait (plan : List PlanItem) : (s.start plan).adcWait = s.adcWait := rfl
@[simp] theorem start_cs (plan : List PlanItem) : (s.start plan).cs = s.cs := rfl
@[simp] theorem start_cd (plan : List PlanItem) : (s.start plan).cd = s.cd := rfl
@[simp] theorem start_sclk (plan : List PlanItem) : (s.start plan).sclk = s.sclk := rfl
@[simp] theorem start_mosi (plan : List PlanItem) : (s.start plan).mosi = s.mosi := rfl
@[simp] theorem start_shreg (plan : List PlanItem) : (s.start plan).shreg = s.shreg := rfl
@[simp] theorem start_bitIdx (plan : List PlanItem) : (s.start plan).bitIdx = s.bitIdx := rfl
@[simp] theorem start_initDone (plan : List PlanItem) : (s.start plan).initDone = s.initDone := rfl
@[simp] theorem start_faultCause (plan : List PlanItem) : (s.start plan).faultCause = s.faultCause := rfl
@[simp] theorem start_mapValid (plan : List PlanItem) : (s.start plan).mapValid = s.mapValid := rfl
@[simp] theorem start_mapPixel (plan : List PlanItem) : (s.start plan).mapPixel = s.mapPixel := rfl
@[simp] theorem start_mapRaw (plan : List PlanItem) : (s.start plan).mapRaw = s.mapRaw := rfl
@[simp] theorem start_log (plan : List PlanItem) : (s.start plan).log = s.log := rfl
@[simp] theorem start_rx (plan : List PlanItem) : (s.start plan).rx = s.rx := rfl
@[simp] theorem start_rxFaulty (plan : List PlanItem) : (s.start plan).rxFaulty = s.rxFaulty := rfl
@[simp] theorem start_lostBytes (plan : List PlanItem) : (s.start plan).lostBytes = s.lostBytes := rfl
@[simp] theorem start_panelSinceReset (plan : List PlanItem) : (s.start plan).panelSinceReset = s.panelSinceReset := rfl
@[simp] theorem start_panelAcrossResets (plan : List PlanItem) : (s.start plan).panelAcrossResets = s.panelAcrossResets := rfl

/-! ### `State.raiseFault` -/

@[simp] theorem raiseFault_cfg (c : FaultCause) : (s.raiseFault c).cfg = s.cfg := rfl
@[simp] theorem raiseFault_inputs (c : FaultCause) : (s.raiseFault c).inputs = s.inputs := rfl
@[simp] theorem raiseFault_rstPrev (c : FaultCause) : (s.raiseFault c).rstPrev = s.rstPrev := rfl
@[simp] theorem raiseFault_rq (c : FaultCause) : (s.raiseFault c).rq = s.rq := rfl
@[simp] theorem raiseFault_rqCnt (c : FaultCause) : (s.raiseFault c).rqCnt = 0 := rfl
@[simp] theorem raiseFault_fsm (c : FaultCause) : (s.raiseFault c).fsm = .fault := rfl
@[simp] theorem raiseFault_plan (c : FaultCause) : (s.raiseFault c).plan = [] := rfl
@[simp] theorem raiseFault_phase (c : FaultCause) : (s.raiseFault c).phase = s.phase := rfl
@[simp] theorem raiseFault_initIdx (c : FaultCause) : (s.raiseFault c).initIdx = s.initIdx := rfl
@[simp] theorem raiseFault_pixRem (c : FaultCause) : (s.raiseFault c).pixRem = s.pixRem := rfl
@[simp] theorem raiseFault_delayCnt (c : FaultCause) : (s.raiseFault c).delayCnt = s.delayCnt := rfl
@[simp] theorem raiseFault_adcWait (c : FaultCause) : (s.raiseFault c).adcWait = s.adcWait := rfl
@[simp] theorem raiseFault_cs (c : FaultCause) : (s.raiseFault c).cs = s.cs := rfl
@[simp] theorem raiseFault_cd (c : FaultCause) : (s.raiseFault c).cd = s.cd := rfl
@[simp] theorem raiseFault_sclk (c : FaultCause) : (s.raiseFault c).sclk = s.sclk := rfl
@[simp] theorem raiseFault_mosi (c : FaultCause) : (s.raiseFault c).mosi = s.mosi := rfl
@[simp] theorem raiseFault_shreg (c : FaultCause) : (s.raiseFault c).shreg = s.shreg := rfl
@[simp] theorem raiseFault_bitIdx (c : FaultCause) : (s.raiseFault c).bitIdx = s.bitIdx := rfl
@[simp] theorem raiseFault_initDone (c : FaultCause) : (s.raiseFault c).initDone = s.initDone := rfl
@[simp] theorem raiseFault_faultCause (c : FaultCause) : (s.raiseFault c).faultCause = c := rfl
@[simp] theorem raiseFault_mapValid (c : FaultCause) : (s.raiseFault c).mapValid = s.mapValid := rfl
@[simp] theorem raiseFault_mapPixel (c : FaultCause) : (s.raiseFault c).mapPixel = s.mapPixel := rfl
@[simp] theorem raiseFault_mapRaw (c : FaultCause) : (s.raiseFault c).mapRaw = s.mapRaw := rfl
@[simp] theorem raiseFault_log (c : FaultCause) : (s.raiseFault c).log = s.log := rfl
@[simp] theorem raiseFault_rx (c : FaultCause) : (s.raiseFault c).rx = s.rx := rfl
@[simp] theorem raiseFault_rxFaulty (c : FaultCause) : (s.raiseFault c).rxFaulty = s.rxFaulty := rfl
@[simp] theorem raiseFault_lostBytes (c : FaultCause) : (s.raiseFault c).lostBytes = s.lostBytes := rfl
@[simp] theorem raiseFault_panelSinceReset (c : FaultCause) : (s.raiseFault c).panelSinceReset = s.panelSinceReset := rfl
@[simp] theorem raiseFault_panelAcrossResets (c : FaultCause) : (s.raiseFault c).panelAcrossResets = s.panelAcrossResets := rfl

/-! ### `State.record` -/

@[simp] theorem record_cfg (e : Event) : (s.record e).cfg = s.cfg := rfl
@[simp] theorem record_inputs (e : Event) : (s.record e).inputs = s.inputs := rfl
@[simp] theorem record_rstPrev (e : Event) : (s.record e).rstPrev = s.rstPrev := rfl
@[simp] theorem record_rq (e : Event) : (s.record e).rq = s.rq := rfl
@[simp] theorem record_rqCnt (e : Event) : (s.record e).rqCnt = s.rqCnt := rfl
@[simp] theorem record_fsm (e : Event) : (s.record e).fsm = s.fsm := rfl
@[simp] theorem record_plan (e : Event) : (s.record e).plan = s.plan := rfl
@[simp] theorem record_phase (e : Event) : (s.record e).phase = s.phase := rfl
@[simp] theorem record_initIdx (e : Event) : (s.record e).initIdx = s.initIdx := rfl
@[simp] theorem record_pixRem (e : Event) : (s.record e).pixRem = s.pixRem := rfl
@[simp] theorem record_delayCnt (e : Event) : (s.record e).delayCnt = s.delayCnt := rfl
@[simp] theorem record_adcWait (e : Event) : (s.record e).adcWait = s.adcWait := rfl
@[simp] theorem record_cs (e : Event) : (s.record e).cs = s.cs := rfl
@[simp] theorem record_cd (e : Event) : (s.record e).cd = s.cd := rfl
@[simp] theorem record_sclk (e : Event) : (s.record e).sclk = s.sclk := rfl
@[simp] theorem record_mosi (e : Event) : (s.record e).mosi = s.mosi := rfl
@[simp] theorem record_shreg (e : Event) : (s.record e).shreg = s.shreg := rfl
@[simp] theorem record_bitIdx (e : Event) : (s.record e).bitIdx = s.bitIdx := rfl
@[simp] theorem record_initDone (e : Event) : (s.record e).initDone = s.initDone := rfl
@[simp] theorem record_faultCause (e : Event) : (s.record e).faultCause = s.faultCause := rfl
@[simp] theorem record_mapValid (e : Event) : (s.record e).mapValid = s.mapValid := rfl
@[simp] theorem record_mapPixel (e : Event) : (s.record e).mapPixel = s.mapPixel := rfl
@[simp] theorem record_mapRaw (e : Event) : (s.record e).mapRaw = s.mapRaw := rfl
@[simp] theorem record_log (e : Event) : (s.record e).log = .event e :: s.log := rfl
@[simp] theorem record_rx (e : Event) : (s.record e).rx = s.rx := rfl
@[simp] theorem record_rxFaulty (e : Event) : (s.record e).rxFaulty = s.rxFaulty := rfl
@[simp] theorem record_lostBytes (e : Event) : (s.record e).lostBytes = s.lostBytes := rfl
@[simp] theorem record_panelSinceReset (e : Event) : (s.record e).panelSinceReset = s.panelSinceReset := rfl
@[simp] theorem record_panelAcrossResets (e : Event) : (s.record e).panelAcrossResets = s.panelAcrossResets := rfl

/-! ### `State.finish` -/

@[simp] theorem finish_cfg (m : Mark) : (s.finish m).cfg = s.cfg := by cases m <;> rfl
@[simp] theorem finish_inputs (m : Mark) : (s.finish m).inputs = s.inputs := by cases m <;> rfl
@[simp] theorem finish_rstPrev (m : Mark) : (s.finish m).rstPrev = s.rstPrev := by cases m <;> rfl
@[simp] theorem finish_rq (m : Mark) : (s.finish m).rq = s.rq := by cases m <;> rfl
@[simp] theorem finish_rqCnt (m : Mark) : (s.finish m).rqCnt = s.rqCnt := by cases m <;> rfl
@[simp] theorem finish_fsm (m : Mark) : (s.finish m).fsm = s.fsm := by cases m <;> rfl
@[simp] theorem finish_plan (m : Mark) : (s.finish m).plan = s.plan.tail := by cases m <;> rfl
@[simp] theorem finish_phase (m : Mark) : (s.finish m).phase = .ready := by cases m <;> rfl
@[simp] theorem finish_delayCnt (m : Mark) : (s.finish m).delayCnt = s.delayCnt := by cases m <;> rfl
@[simp] theorem finish_adcWait (m : Mark) : (s.finish m).adcWait = s.adcWait := by cases m <;> rfl
@[simp] theorem finish_cs (m : Mark) : (s.finish m).cs = s.cs := by cases m <;> rfl
@[simp] theorem finish_cd (m : Mark) : (s.finish m).cd = s.cd := by cases m <;> rfl
@[simp] theorem finish_sclk (m : Mark) : (s.finish m).sclk = s.sclk := by cases m <;> rfl
@[simp] theorem finish_mosi (m : Mark) : (s.finish m).mosi = s.mosi := by cases m <;> rfl
@[simp] theorem finish_shreg (m : Mark) : (s.finish m).shreg = s.shreg := by cases m <;> rfl
@[simp] theorem finish_bitIdx (m : Mark) : (s.finish m).bitIdx = s.bitIdx := by cases m <;> rfl
@[simp] theorem finish_initDone (m : Mark) : (s.finish m).initDone = s.initDone := by cases m <;> rfl
@[simp] theorem finish_faultCause (m : Mark) : (s.finish m).faultCause = s.faultCause := by cases m <;> rfl
@[simp] theorem finish_mapValid (m : Mark) : (s.finish m).mapValid = s.mapValid := by cases m <;> rfl
@[simp] theorem finish_mapPixel (m : Mark) : (s.finish m).mapPixel = s.mapPixel := by cases m <;> rfl
@[simp] theorem finish_mapRaw (m : Mark) : (s.finish m).mapRaw = s.mapRaw := by cases m <;> rfl
@[simp] theorem finish_log (m : Mark) : (s.finish m).log = s.log := by cases m <;> rfl
@[simp] theorem finish_rx (m : Mark) : (s.finish m).rx = s.rx := by cases m <;> rfl
@[simp] theorem finish_rxFaulty (m : Mark) : (s.finish m).rxFaulty = s.rxFaulty := by cases m <;> rfl
@[simp] theorem finish_lostBytes (m : Mark) : (s.finish m).lostBytes = s.lostBytes := by cases m <;> rfl
@[simp] theorem finish_panelSinceReset (m : Mark) : (s.finish m).panelSinceReset = s.panelSinceReset := by cases m <;> rfl
@[simp] theorem finish_panelAcrossResets (m : Mark) : (s.finish m).panelAcrossResets = s.panelAcrossResets := by cases m <;> rfl

/-! ### `State.driveCd` -/

@[simp] theorem driveCd_cfg (l : CdLevel) : (s.driveCd l).cfg = s.cfg := rfl
@[simp] theorem driveCd_inputs (l : CdLevel) : (s.driveCd l).inputs = s.inputs := rfl
@[simp] theorem driveCd_rstPrev (l : CdLevel) : (s.driveCd l).rstPrev = s.rstPrev := rfl
@[simp] theorem driveCd_rq (l : CdLevel) : (s.driveCd l).rq = s.rq := rfl
@[simp] theorem driveCd_rqCnt (l : CdLevel) : (s.driveCd l).rqCnt = s.rqCnt := rfl
@[simp] theorem driveCd_fsm (l : CdLevel) : (s.driveCd l).fsm = s.fsm := rfl
@[simp] theorem driveCd_plan (l : CdLevel) : (s.driveCd l).plan = s.plan := rfl
@[simp] theorem driveCd_phase (l : CdLevel) : (s.driveCd l).phase = s.phase := rfl
@[simp] theorem driveCd_initIdx (l : CdLevel) : (s.driveCd l).initIdx = s.initIdx := rfl
@[simp] theorem driveCd_pixRem (l : CdLevel) : (s.driveCd l).pixRem = s.pixRem := rfl
@[simp] theorem driveCd_delayCnt (l : CdLevel) : (s.driveCd l).delayCnt = s.delayCnt := rfl
@[simp] theorem driveCd_adcWait (l : CdLevel) : (s.driveCd l).adcWait = s.adcWait := rfl
@[simp] theorem driveCd_cs (l : CdLevel) : (s.driveCd l).cs = s.cs := rfl
@[simp] theorem driveCd_cd (l : CdLevel) : (s.driveCd l).cd = cdBit l := rfl
@[simp] theorem driveCd_sclk (l : CdLevel) : (s.driveCd l).sclk = s.sclk := rfl
@[simp] theorem driveCd_mosi (l : CdLevel) : (s.driveCd l).mosi = s.mosi := rfl
@[simp] theorem driveCd_shreg (l : CdLevel) : (s.driveCd l).shreg = s.shreg := rfl
@[simp] theorem driveCd_bitIdx (l : CdLevel) : (s.driveCd l).bitIdx = s.bitIdx := rfl
@[simp] theorem driveCd_initDone (l : CdLevel) : (s.driveCd l).initDone = s.initDone := rfl
@[simp] theorem driveCd_faultCause (l : CdLevel) : (s.driveCd l).faultCause = s.faultCause := rfl
@[simp] theorem driveCd_mapValid (l : CdLevel) : (s.driveCd l).mapValid = s.mapValid := rfl
@[simp] theorem driveCd_mapPixel (l : CdLevel) : (s.driveCd l).mapPixel = s.mapPixel := rfl
@[simp] theorem driveCd_mapRaw (l : CdLevel) : (s.driveCd l).mapRaw = s.mapRaw := rfl
@[simp] theorem driveCd_log (l : CdLevel) : (s.driveCd l).log = .event (.cd l) :: s.log := rfl
@[simp] theorem driveCd_rx (l : CdLevel) : (s.driveCd l).rx = s.rx := rfl
@[simp] theorem driveCd_rxFaulty (l : CdLevel) : (s.driveCd l).rxFaulty = s.rxFaulty := rfl
@[simp] theorem driveCd_lostBytes (l : CdLevel) : (s.driveCd l).lostBytes = s.lostBytes := rfl
@[simp] theorem driveCd_panelSinceReset (l : CdLevel) : (s.driveCd l).panelSinceReset = s.panelSinceReset := rfl
@[simp] theorem driveCd_panelAcrossResets (l : CdLevel) : (s.driveCd l).panelAcrossResets = s.panelAcrossResets := rfl

/-! ### `State.driveCs` -/

@[simp] theorem driveCs_cfg (a : CsLevel) : (s.driveCs a).cfg = s.cfg := rfl
@[simp] theorem driveCs_inputs (a : CsLevel) : (s.driveCs a).inputs = s.inputs := rfl
@[simp] theorem driveCs_rstPrev (a : CsLevel) : (s.driveCs a).rstPrev = s.rstPrev := rfl
@[simp] theorem driveCs_rq (a : CsLevel) : (s.driveCs a).rq = s.rq := rfl
@[simp] theorem driveCs_rqCnt (a : CsLevel) : (s.driveCs a).rqCnt = s.rqCnt := rfl
@[simp] theorem driveCs_fsm (a : CsLevel) : (s.driveCs a).fsm = s.fsm := rfl
@[simp] theorem driveCs_plan (a : CsLevel) : (s.driveCs a).plan = s.plan := rfl
@[simp] theorem driveCs_phase (a : CsLevel) : (s.driveCs a).phase = s.phase := rfl
@[simp] theorem driveCs_initIdx (a : CsLevel) : (s.driveCs a).initIdx = s.initIdx := rfl
@[simp] theorem driveCs_pixRem (a : CsLevel) : (s.driveCs a).pixRem = s.pixRem := rfl
@[simp] theorem driveCs_delayCnt (a : CsLevel) : (s.driveCs a).delayCnt = s.delayCnt := rfl
@[simp] theorem driveCs_adcWait (a : CsLevel) : (s.driveCs a).adcWait = s.adcWait := rfl
@[simp] theorem driveCs_cs (a : CsLevel) : (s.driveCs a).cs = a.bit s.cfg := rfl
@[simp] theorem driveCs_cd (a : CsLevel) : (s.driveCs a).cd = s.cd := rfl
@[simp] theorem driveCs_sclk (a : CsLevel) : (s.driveCs a).sclk = s.sclk := rfl
@[simp] theorem driveCs_mosi (a : CsLevel) : (s.driveCs a).mosi = s.mosi := rfl
@[simp] theorem driveCs_shreg (a : CsLevel) : (s.driveCs a).shreg = s.shreg := rfl
@[simp] theorem driveCs_bitIdx (a : CsLevel) : (s.driveCs a).bitIdx = s.bitIdx := rfl
@[simp] theorem driveCs_initDone (a : CsLevel) : (s.driveCs a).initDone = s.initDone := rfl
@[simp] theorem driveCs_faultCause (a : CsLevel) : (s.driveCs a).faultCause = s.faultCause := rfl
@[simp] theorem driveCs_mapValid (a : CsLevel) : (s.driveCs a).mapValid = s.mapValid := rfl
@[simp] theorem driveCs_mapPixel (a : CsLevel) : (s.driveCs a).mapPixel = s.mapPixel := rfl
@[simp] theorem driveCs_mapRaw (a : CsLevel) : (s.driveCs a).mapRaw = s.mapRaw := rfl
@[simp] theorem driveCs_log (a : CsLevel) : (s.driveCs a).log = .event (.cs a) :: s.log := rfl
@[simp] theorem driveCs_rx (a : CsLevel) : (s.driveCs a).rx = [] := rfl
@[simp] theorem driveCs_rxFaulty (a : CsLevel) : (s.driveCs a).rxFaulty = false := rfl
@[simp] theorem driveCs_lostBytes (a : CsLevel) : (s.driveCs a).lostBytes = s.lostBytes := rfl
@[simp] theorem driveCs_panelSinceReset (a : CsLevel) : (s.driveCs a).panelSinceReset = s.panelSinceReset := rfl
@[simp] theorem driveCs_panelAcrossResets (a : CsLevel) : (s.driveCs a).panelAcrossResets = s.panelAcrossResets := rfl

/-! ### `State.byteDone` -/

@[simp] theorem byteDone_cfg (b : Byte) (f : Bool) : (s.byteDone b f).cfg = s.cfg := rfl
@[simp] theorem byteDone_inputs (b : Byte) (f : Bool) : (s.byteDone b f).inputs = s.inputs := rfl
@[simp] theorem byteDone_rstPrev (b : Byte) (f : Bool) : (s.byteDone b f).rstPrev = s.rstPrev := rfl
@[simp] theorem byteDone_rq (b : Byte) (f : Bool) : (s.byteDone b f).rq = s.rq := rfl
@[simp] theorem byteDone_rqCnt (b : Byte) (f : Bool) : (s.byteDone b f).rqCnt = s.rqCnt := rfl
@[simp] theorem byteDone_fsm (b : Byte) (f : Bool) : (s.byteDone b f).fsm = s.fsm := rfl
@[simp] theorem byteDone_plan (b : Byte) (f : Bool) : (s.byteDone b f).plan = s.plan := rfl
@[simp] theorem byteDone_phase (b : Byte) (f : Bool) : (s.byteDone b f).phase = s.phase := rfl
@[simp] theorem byteDone_initIdx (b : Byte) (f : Bool) : (s.byteDone b f).initIdx = s.initIdx := rfl
@[simp] theorem byteDone_pixRem (b : Byte) (f : Bool) : (s.byteDone b f).pixRem = s.pixRem := rfl
@[simp] theorem byteDone_delayCnt (b : Byte) (f : Bool) : (s.byteDone b f).delayCnt = s.delayCnt := rfl
@[simp] theorem byteDone_adcWait (b : Byte) (f : Bool) : (s.byteDone b f).adcWait = s.adcWait := rfl
@[simp] theorem byteDone_cs (b : Byte) (f : Bool) : (s.byteDone b f).cs = s.cs := rfl
@[simp] theorem byteDone_cd (b : Byte) (f : Bool) : (s.byteDone b f).cd = s.cd := rfl
@[simp] theorem byteDone_sclk (b : Byte) (f : Bool) : (s.byteDone b f).sclk = s.sclk := rfl
@[simp] theorem byteDone_mosi (b : Byte) (f : Bool) : (s.byteDone b f).mosi = s.mosi := rfl
@[simp] theorem byteDone_shreg (b : Byte) (f : Bool) : (s.byteDone b f).shreg = s.shreg := rfl
@[simp] theorem byteDone_bitIdx (b : Byte) (f : Bool) : (s.byteDone b f).bitIdx = s.bitIdx := rfl
@[simp] theorem byteDone_initDone (b : Byte) (f : Bool) : (s.byteDone b f).initDone = s.initDone := rfl
@[simp] theorem byteDone_faultCause (b : Byte) (f : Bool) : (s.byteDone b f).faultCause = s.faultCause := rfl
@[simp] theorem byteDone_mapValid (b : Byte) (f : Bool) : (s.byteDone b f).mapValid = s.mapValid := rfl
@[simp] theorem byteDone_mapPixel (b : Byte) (f : Bool) : (s.byteDone b f).mapPixel = s.mapPixel := rfl
@[simp] theorem byteDone_mapRaw (b : Byte) (f : Bool) : (s.byteDone b f).mapRaw = s.mapRaw := rfl
@[simp] theorem byteDone_log (b : Byte) (f : Bool) : (s.byteDone b f).log = .event (.byte b) :: s.log := rfl
@[simp] theorem byteDone_rx (b : Byte) (f : Bool) : (s.byteDone b f).rx = if s.csAsserted then (cdOfBit s.cd, b) :: s.rx else s.rx := rfl
@[simp] theorem byteDone_rxFaulty (b : Byte) (f : Bool) : (s.byteDone b f).rxFaulty = (s.rxFaulty || f) := rfl
@[simp] theorem byteDone_lostBytes (b : Byte) (f : Bool) : (s.byteDone b f).lostBytes = if f then s.log.length :: s.lostBytes else s.lostBytes := rfl
@[simp] theorem byteDone_panelSinceReset (b : Byte) (f : Bool) : (s.byteDone b f).panelSinceReset = s.panelSinceReset := rfl
@[simp] theorem byteDone_panelAcrossResets (b : Byte) (f : Bool) : (s.byteDone b f).panelAcrossResets = s.panelAcrossResets := rfl

/-! ### `State.waitDone` -/

@[simp] theorem waitDone_cfg (ms : Nat) : (s.waitDone ms).cfg = s.cfg := rfl
@[simp] theorem waitDone_inputs (ms : Nat) : (s.waitDone ms).inputs = s.inputs := rfl
@[simp] theorem waitDone_rstPrev (ms : Nat) : (s.waitDone ms).rstPrev = s.rstPrev := rfl
@[simp] theorem waitDone_rq (ms : Nat) : (s.waitDone ms).rq = s.rq := rfl
@[simp] theorem waitDone_rqCnt (ms : Nat) : (s.waitDone ms).rqCnt = s.rqCnt := rfl
@[simp] theorem waitDone_fsm (ms : Nat) : (s.waitDone ms).fsm = s.fsm := rfl
@[simp] theorem waitDone_plan (ms : Nat) : (s.waitDone ms).plan = s.plan := rfl
@[simp] theorem waitDone_phase (ms : Nat) : (s.waitDone ms).phase = s.phase := rfl
@[simp] theorem waitDone_initIdx (ms : Nat) : (s.waitDone ms).initIdx = s.initIdx := rfl
@[simp] theorem waitDone_pixRem (ms : Nat) : (s.waitDone ms).pixRem = s.pixRem := rfl
@[simp] theorem waitDone_delayCnt (ms : Nat) : (s.waitDone ms).delayCnt = 0 := rfl
@[simp] theorem waitDone_adcWait (ms : Nat) : (s.waitDone ms).adcWait = s.adcWait := rfl
@[simp] theorem waitDone_cs (ms : Nat) : (s.waitDone ms).cs = s.cs := rfl
@[simp] theorem waitDone_cd (ms : Nat) : (s.waitDone ms).cd = s.cd := rfl
@[simp] theorem waitDone_sclk (ms : Nat) : (s.waitDone ms).sclk = s.sclk := rfl
@[simp] theorem waitDone_mosi (ms : Nat) : (s.waitDone ms).mosi = s.mosi := rfl
@[simp] theorem waitDone_shreg (ms : Nat) : (s.waitDone ms).shreg = s.shreg := rfl
@[simp] theorem waitDone_bitIdx (ms : Nat) : (s.waitDone ms).bitIdx = s.bitIdx := rfl
@[simp] theorem waitDone_initDone (ms : Nat) : (s.waitDone ms).initDone = s.initDone := rfl
@[simp] theorem waitDone_faultCause (ms : Nat) : (s.waitDone ms).faultCause = s.faultCause := rfl
@[simp] theorem waitDone_mapValid (ms : Nat) : (s.waitDone ms).mapValid = s.mapValid := rfl
@[simp] theorem waitDone_mapPixel (ms : Nat) : (s.waitDone ms).mapPixel = s.mapPixel := rfl
@[simp] theorem waitDone_mapRaw (ms : Nat) : (s.waitDone ms).mapRaw = s.mapRaw := rfl
@[simp] theorem waitDone_log (ms : Nat) : (s.waitDone ms).log = .event (.wait ms) :: s.log := rfl
@[simp] theorem waitDone_rx (ms : Nat) : (s.waitDone ms).rx = s.rx := rfl
@[simp] theorem waitDone_rxFaulty (ms : Nat) : (s.waitDone ms).rxFaulty = s.rxFaulty := rfl
@[simp] theorem waitDone_lostBytes (ms : Nat) : (s.waitDone ms).lostBytes = s.lostBytes := rfl
@[simp] theorem waitDone_panelSinceReset (ms : Nat) : (s.waitDone ms).panelSinceReset = s.panelSinceReset.wait ms := rfl
@[simp] theorem waitDone_panelAcrossResets (ms : Nat) : (s.waitDone ms).panelAcrossResets = s.panelAcrossResets.wait ms := rfl

/-! ### `State.mapResult` -/

@[simp] theorem mapResult_cfg (r : Sample) : (s.mapResult r).cfg = s.cfg := rfl
@[simp] theorem mapResult_inputs (r : Sample) : (s.mapResult r).inputs = s.inputs := rfl
@[simp] theorem mapResult_rstPrev (r : Sample) : (s.mapResult r).rstPrev = s.rstPrev := rfl
@[simp] theorem mapResult_rq (r : Sample) : (s.mapResult r).rq = s.rq := rfl
@[simp] theorem mapResult_rqCnt (r : Sample) : (s.mapResult r).rqCnt = s.rqCnt := rfl
@[simp] theorem mapResult_fsm (r : Sample) : (s.mapResult r).fsm = s.fsm := rfl
@[simp] theorem mapResult_plan (r : Sample) : (s.mapResult r).plan = s.plan := rfl
@[simp] theorem mapResult_phase (r : Sample) : (s.mapResult r).phase = s.phase := rfl
@[simp] theorem mapResult_initIdx (r : Sample) : (s.mapResult r).initIdx = s.initIdx := rfl
@[simp] theorem mapResult_pixRem (r : Sample) : (s.mapResult r).pixRem = s.pixRem := rfl
@[simp] theorem mapResult_delayCnt (r : Sample) : (s.mapResult r).delayCnt = s.delayCnt := rfl
@[simp] theorem mapResult_adcWait (r : Sample) : (s.mapResult r).adcWait = false := rfl
@[simp] theorem mapResult_cs (r : Sample) : (s.mapResult r).cs = s.cs := rfl
@[simp] theorem mapResult_cd (r : Sample) : (s.mapResult r).cd = s.cd := rfl
@[simp] theorem mapResult_sclk (r : Sample) : (s.mapResult r).sclk = s.sclk := rfl
@[simp] theorem mapResult_mosi (r : Sample) : (s.mapResult r).mosi = s.mosi := rfl
@[simp] theorem mapResult_shreg (r : Sample) : (s.mapResult r).shreg = s.shreg := rfl
@[simp] theorem mapResult_bitIdx (r : Sample) : (s.mapResult r).bitIdx = s.bitIdx := rfl
@[simp] theorem mapResult_initDone (r : Sample) : (s.mapResult r).initDone = s.initDone := rfl
@[simp] theorem mapResult_faultCause (r : Sample) : (s.mapResult r).faultCause = s.faultCause := rfl
@[simp] theorem mapResult_mapValid (r : Sample) : (s.mapResult r).mapValid = true := rfl
@[simp] theorem mapResult_mapPixel (r : Sample) : (s.mapResult r).mapPixel = BitVec.ofNat 16 (mapFn s.cfg r.toNat) := rfl
@[simp] theorem mapResult_mapRaw (r : Sample) : (s.mapResult r).mapRaw = r := rfl
@[simp] theorem mapResult_log (r : Sample) : (s.mapResult r).log = s.log := rfl
@[simp] theorem mapResult_rx (r : Sample) : (s.mapResult r).rx = s.rx := rfl
@[simp] theorem mapResult_rxFaulty (r : Sample) : (s.mapResult r).rxFaulty = s.rxFaulty := rfl
@[simp] theorem mapResult_lostBytes (r : Sample) : (s.mapResult r).lostBytes = s.lostBytes := rfl
@[simp] theorem mapResult_panelSinceReset (r : Sample) : (s.mapResult r).panelSinceReset = s.panelSinceReset := rfl
@[simp] theorem mapResult_panelAcrossResets (r : Sample) : (s.mapResult r).panelAcrossResets = s.panelAcrossResets := rfl

/-! ### `State.mapPanels` -/

@[simp] theorem mapPanels_cfg (f : Panel → Panel) : (s.mapPanels f).cfg = s.cfg := rfl
@[simp] theorem mapPanels_inputs (f : Panel → Panel) : (s.mapPanels f).inputs = s.inputs := rfl
@[simp] theorem mapPanels_rstPrev (f : Panel → Panel) : (s.mapPanels f).rstPrev = s.rstPrev := rfl
@[simp] theorem mapPanels_rq (f : Panel → Panel) : (s.mapPanels f).rq = s.rq := rfl
@[simp] theorem mapPanels_rqCnt (f : Panel → Panel) : (s.mapPanels f).rqCnt = s.rqCnt := rfl
@[simp] theorem mapPanels_fsm (f : Panel → Panel) : (s.mapPanels f).fsm = s.fsm := rfl
@[simp] theorem mapPanels_plan (f : Panel → Panel) : (s.mapPanels f).plan = s.plan := rfl
@[simp] theorem mapPanels_phase (f : Panel → Panel) : (s.mapPanels f).phase = s.phase := rfl
@[simp] theorem mapPanels_initIdx (f : Panel → Panel) : (s.mapPanels f).initIdx = s.initIdx := rfl
@[simp] theorem mapPanels_pixRem (f : Panel → Panel) : (s.mapPanels f).pixRem = s.pixRem := rfl
@[simp] theorem mapPanels_delayCnt (f : Panel → Panel) : (s.mapPanels f).delayCnt = s.delayCnt := rfl
@[simp] theorem mapPanels_adcWait (f : Panel → Panel) : (s.mapPanels f).adcWait = s.adcWait := rfl
@[simp] theorem mapPanels_cs (f : Panel → Panel) : (s.mapPanels f).cs = s.cs := rfl
@[simp] theorem mapPanels_cd (f : Panel → Panel) : (s.mapPanels f).cd = s.cd := rfl
@[simp] theorem mapPanels_sclk (f : Panel → Panel) : (s.mapPanels f).sclk = s.sclk := rfl
@[simp] theorem mapPanels_mosi (f : Panel → Panel) : (s.mapPanels f).mosi = s.mosi := rfl
@[simp] theorem mapPanels_shreg (f : Panel → Panel) : (s.mapPanels f).shreg = s.shreg := rfl
@[simp] theorem mapPanels_bitIdx (f : Panel → Panel) : (s.mapPanels f).bitIdx = s.bitIdx := rfl
@[simp] theorem mapPanels_initDone (f : Panel → Panel) : (s.mapPanels f).initDone = s.initDone := rfl
@[simp] theorem mapPanels_faultCause (f : Panel → Panel) : (s.mapPanels f).faultCause = s.faultCause := rfl
@[simp] theorem mapPanels_mapValid (f : Panel → Panel) : (s.mapPanels f).mapValid = s.mapValid := rfl
@[simp] theorem mapPanels_mapPixel (f : Panel → Panel) : (s.mapPanels f).mapPixel = s.mapPixel := rfl
@[simp] theorem mapPanels_mapRaw (f : Panel → Panel) : (s.mapPanels f).mapRaw = s.mapRaw := rfl
@[simp] theorem mapPanels_log (f : Panel → Panel) : (s.mapPanels f).log = s.log := rfl
@[simp] theorem mapPanels_rx (f : Panel → Panel) : (s.mapPanels f).rx = s.rx := rfl
@[simp] theorem mapPanels_rxFaulty (f : Panel → Panel) : (s.mapPanels f).rxFaulty = s.rxFaulty := rfl
@[simp] theorem mapPanels_lostBytes (f : Panel → Panel) : (s.mapPanels f).lostBytes = s.lostBytes := rfl
@[simp] theorem mapPanels_panelSinceReset (f : Panel → Panel) : (s.mapPanels f).panelSinceReset = f s.panelSinceReset := rfl
@[simp] theorem mapPanels_panelAcrossResets (f : Panel → Panel) : (s.mapPanels f).panelAcrossResets = f s.panelAcrossResets := rfl

/-! ### `State.panelFrame` -/

@[simp] theorem panelFrame_cfg (f : Panel → Panel) : (s.panelFrame f).cfg = s.cfg := rfl
@[simp] theorem panelFrame_inputs (f : Panel → Panel) : (s.panelFrame f).inputs = s.inputs := rfl
@[simp] theorem panelFrame_rstPrev (f : Panel → Panel) : (s.panelFrame f).rstPrev = s.rstPrev := rfl
@[simp] theorem panelFrame_rq (f : Panel → Panel) : (s.panelFrame f).rq = s.rq := rfl
@[simp] theorem panelFrame_rqCnt (f : Panel → Panel) : (s.panelFrame f).rqCnt = s.rqCnt := rfl
@[simp] theorem panelFrame_fsm (f : Panel → Panel) : (s.panelFrame f).fsm = s.fsm := rfl
@[simp] theorem panelFrame_plan (f : Panel → Panel) : (s.panelFrame f).plan = s.plan := rfl
@[simp] theorem panelFrame_phase (f : Panel → Panel) : (s.panelFrame f).phase = s.phase := rfl
@[simp] theorem panelFrame_initIdx (f : Panel → Panel) : (s.panelFrame f).initIdx = s.initIdx := rfl
@[simp] theorem panelFrame_pixRem (f : Panel → Panel) : (s.panelFrame f).pixRem = s.pixRem := rfl
@[simp] theorem panelFrame_delayCnt (f : Panel → Panel) : (s.panelFrame f).delayCnt = s.delayCnt := rfl
@[simp] theorem panelFrame_adcWait (f : Panel → Panel) : (s.panelFrame f).adcWait = s.adcWait := rfl
@[simp] theorem panelFrame_cs (f : Panel → Panel) : (s.panelFrame f).cs = s.cs := rfl
@[simp] theorem panelFrame_cd (f : Panel → Panel) : (s.panelFrame f).cd = s.cd := rfl
@[simp] theorem panelFrame_sclk (f : Panel → Panel) : (s.panelFrame f).sclk = s.sclk := rfl
@[simp] theorem panelFrame_mosi (f : Panel → Panel) : (s.panelFrame f).mosi = s.mosi := rfl
@[simp] theorem panelFrame_shreg (f : Panel → Panel) : (s.panelFrame f).shreg = s.shreg := rfl
@[simp] theorem panelFrame_bitIdx (f : Panel → Panel) : (s.panelFrame f).bitIdx = s.bitIdx := rfl
@[simp] theorem panelFrame_initDone (f : Panel → Panel) : (s.panelFrame f).initDone = s.initDone := rfl
@[simp] theorem panelFrame_faultCause (f : Panel → Panel) : (s.panelFrame f).faultCause = s.faultCause := rfl
@[simp] theorem panelFrame_mapValid (f : Panel → Panel) : (s.panelFrame f).mapValid = s.mapValid := rfl
@[simp] theorem panelFrame_mapPixel (f : Panel → Panel) : (s.panelFrame f).mapPixel = s.mapPixel := rfl
@[simp] theorem panelFrame_mapRaw (f : Panel → Panel) : (s.panelFrame f).mapRaw = s.mapRaw := rfl
@[simp] theorem panelFrame_log (f : Panel → Panel) : (s.panelFrame f).log = s.log := rfl
@[simp] theorem panelFrame_rx (f : Panel → Panel) : (s.panelFrame f).rx = s.rx := rfl
@[simp] theorem panelFrame_rxFaulty (f : Panel → Panel) : (s.panelFrame f).rxFaulty = s.rxFaulty := rfl
@[simp] theorem panelFrame_lostBytes (f : Panel → Panel) : (s.panelFrame f).lostBytes = s.lostBytes := rfl
@[simp] theorem panelFrame_panelSinceReset (f : Panel → Panel) : (s.panelFrame f).panelSinceReset = s.panelSinceReset.accept f := rfl
@[simp] theorem panelFrame_panelAcrossResets (f : Panel → Panel) : (s.panelFrame f).panelAcrossResets = s.panelAcrossResets.accept f := rfl

/-! ### `State.takeByte` -/

@[simp] theorem takeByte_cfg (b : Byte) : (s.takeByte b).cfg = s.cfg := rfl
@[simp] theorem takeByte_inputs (b : Byte) : (s.takeByte b).inputs = s.inputs := rfl
@[simp] theorem takeByte_rstPrev (b : Byte) : (s.takeByte b).rstPrev = s.rstPrev := rfl
@[simp] theorem takeByte_rq (b : Byte) : (s.takeByte b).rq = s.rq.setIfInBounds s.rqCnt.toNat b := rfl
@[simp] theorem takeByte_rqCnt (b : Byte) : (s.takeByte b).rqCnt = s.rqCnt + 1 := rfl
@[simp] theorem takeByte_fsm (b : Byte) : (s.takeByte b).fsm = s.fsm := rfl
@[simp] theorem takeByte_plan (b : Byte) : (s.takeByte b).plan = s.plan := rfl
@[simp] theorem takeByte_phase (b : Byte) : (s.takeByte b).phase = s.phase := rfl
@[simp] theorem takeByte_initIdx (b : Byte) : (s.takeByte b).initIdx = s.initIdx := rfl
@[simp] theorem takeByte_pixRem (b : Byte) : (s.takeByte b).pixRem = s.pixRem := rfl
@[simp] theorem takeByte_delayCnt (b : Byte) : (s.takeByte b).delayCnt = s.delayCnt := rfl
@[simp] theorem takeByte_adcWait (b : Byte) : (s.takeByte b).adcWait = s.adcWait := rfl
@[simp] theorem takeByte_cs (b : Byte) : (s.takeByte b).cs = s.cs := rfl
@[simp] theorem takeByte_cd (b : Byte) : (s.takeByte b).cd = s.cd := rfl
@[simp] theorem takeByte_sclk (b : Byte) : (s.takeByte b).sclk = s.sclk := rfl
@[simp] theorem takeByte_mosi (b : Byte) : (s.takeByte b).mosi = s.mosi := rfl
@[simp] theorem takeByte_shreg (b : Byte) : (s.takeByte b).shreg = s.shreg := rfl
@[simp] theorem takeByte_bitIdx (b : Byte) : (s.takeByte b).bitIdx = s.bitIdx := rfl
@[simp] theorem takeByte_initDone (b : Byte) : (s.takeByte b).initDone = s.initDone := rfl
@[simp] theorem takeByte_faultCause (b : Byte) : (s.takeByte b).faultCause = s.faultCause := rfl
@[simp] theorem takeByte_mapValid (b : Byte) : (s.takeByte b).mapValid = s.mapValid := rfl
@[simp] theorem takeByte_mapPixel (b : Byte) : (s.takeByte b).mapPixel = s.mapPixel := rfl
@[simp] theorem takeByte_mapRaw (b : Byte) : (s.takeByte b).mapRaw = s.mapRaw := rfl
@[simp] theorem takeByte_log (b : Byte) : (s.takeByte b).log = s.log := rfl
@[simp] theorem takeByte_rx (b : Byte) : (s.takeByte b).rx = s.rx := rfl
@[simp] theorem takeByte_rxFaulty (b : Byte) : (s.takeByte b).rxFaulty = s.rxFaulty := rfl
@[simp] theorem takeByte_lostBytes (b : Byte) : (s.takeByte b).lostBytes = s.lostBytes := rfl
@[simp] theorem takeByte_panelSinceReset (b : Byte) : (s.takeByte b).panelSinceReset = s.panelSinceReset := rfl
@[simp] theorem takeByte_panelAcrossResets (b : Byte) : (s.takeByte b).panelAcrossResets = s.panelAcrossResets := rfl

/-! ### `State.popInputs` -/

@[simp] theorem popInputs_cfg : (s.popInputs).cfg = s.cfg := rfl
@[simp] theorem popInputs_inputs : (s.popInputs).inputs = s.inputs.tail := rfl
@[simp] theorem popInputs_rstPrev : (s.popInputs).rstPrev = s.rstPrev := rfl
@[simp] theorem popInputs_rq : (s.popInputs).rq = s.rq := rfl
@[simp] theorem popInputs_rqCnt : (s.popInputs).rqCnt = s.rqCnt := rfl
@[simp] theorem popInputs_fsm : (s.popInputs).fsm = s.fsm := rfl
@[simp] theorem popInputs_plan : (s.popInputs).plan = s.plan := rfl
@[simp] theorem popInputs_phase : (s.popInputs).phase = s.phase := rfl
@[simp] theorem popInputs_initIdx : (s.popInputs).initIdx = s.initIdx := rfl
@[simp] theorem popInputs_pixRem : (s.popInputs).pixRem = s.pixRem := rfl
@[simp] theorem popInputs_delayCnt : (s.popInputs).delayCnt = s.delayCnt := rfl
@[simp] theorem popInputs_adcWait : (s.popInputs).adcWait = s.adcWait := rfl
@[simp] theorem popInputs_cs : (s.popInputs).cs = s.cs := rfl
@[simp] theorem popInputs_cd : (s.popInputs).cd = s.cd := rfl
@[simp] theorem popInputs_sclk : (s.popInputs).sclk = s.sclk := rfl
@[simp] theorem popInputs_mosi : (s.popInputs).mosi = s.mosi := rfl
@[simp] theorem popInputs_shreg : (s.popInputs).shreg = s.shreg := rfl
@[simp] theorem popInputs_bitIdx : (s.popInputs).bitIdx = s.bitIdx := rfl
@[simp] theorem popInputs_initDone : (s.popInputs).initDone = s.initDone := rfl
@[simp] theorem popInputs_faultCause : (s.popInputs).faultCause = s.faultCause := rfl
@[simp] theorem popInputs_mapValid : (s.popInputs).mapValid = s.mapValid := rfl
@[simp] theorem popInputs_mapPixel : (s.popInputs).mapPixel = s.mapPixel := rfl
@[simp] theorem popInputs_mapRaw : (s.popInputs).mapRaw = s.mapRaw := rfl
@[simp] theorem popInputs_log : (s.popInputs).log = s.log := rfl
@[simp] theorem popInputs_rx : (s.popInputs).rx = s.rx := rfl
@[simp] theorem popInputs_rxFaulty : (s.popInputs).rxFaulty = s.rxFaulty := rfl
@[simp] theorem popInputs_lostBytes : (s.popInputs).lostBytes = s.lostBytes := rfl
@[simp] theorem popInputs_panelSinceReset : (s.popInputs).panelSinceReset = s.panelSinceReset := rfl
@[simp] theorem popInputs_panelAcrossResets : (s.popInputs).panelAcrossResets = s.panelAcrossResets := rfl

/-! ### `State.driveBit` -/

@[simp] theorem driveBit_cfg (i : BitVec 3) : (s.driveBit i).cfg = s.cfg := rfl
@[simp] theorem driveBit_inputs (i : BitVec 3) : (s.driveBit i).inputs = s.inputs := rfl
@[simp] theorem driveBit_rstPrev (i : BitVec 3) : (s.driveBit i).rstPrev = s.rstPrev := rfl
@[simp] theorem driveBit_rq (i : BitVec 3) : (s.driveBit i).rq = s.rq := rfl
@[simp] theorem driveBit_rqCnt (i : BitVec 3) : (s.driveBit i).rqCnt = s.rqCnt := rfl
@[simp] theorem driveBit_fsm (i : BitVec 3) : (s.driveBit i).fsm = s.fsm := rfl
@[simp] theorem driveBit_plan (i : BitVec 3) : (s.driveBit i).plan = s.plan := rfl
@[simp] theorem driveBit_phase (i : BitVec 3) : (s.driveBit i).phase = .low (sclkDiv s.cfg - 1) := rfl
@[simp] theorem driveBit_initIdx (i : BitVec 3) : (s.driveBit i).initIdx = s.initIdx := rfl
@[simp] theorem driveBit_pixRem (i : BitVec 3) : (s.driveBit i).pixRem = s.pixRem := rfl
@[simp] theorem driveBit_delayCnt (i : BitVec 3) : (s.driveBit i).delayCnt = s.delayCnt := rfl
@[simp] theorem driveBit_adcWait (i : BitVec 3) : (s.driveBit i).adcWait = s.adcWait := rfl
@[simp] theorem driveBit_cs (i : BitVec 3) : (s.driveBit i).cs = s.cs := rfl
@[simp] theorem driveBit_cd (i : BitVec 3) : (s.driveBit i).cd = s.cd := rfl
@[simp] theorem driveBit_sclk (i : BitVec 3) : (s.driveBit i).sclk = false := rfl
@[simp] theorem driveBit_mosi (i : BitVec 3) : (s.driveBit i).mosi = s.shreg.getLsbD i.toNat := rfl
@[simp] theorem driveBit_shreg (i : BitVec 3) : (s.driveBit i).shreg = s.shreg := rfl
@[simp] theorem driveBit_bitIdx (i : BitVec 3) : (s.driveBit i).bitIdx = i := rfl
@[simp] theorem driveBit_initDone (i : BitVec 3) : (s.driveBit i).initDone = s.initDone := rfl
@[simp] theorem driveBit_faultCause (i : BitVec 3) : (s.driveBit i).faultCause = s.faultCause := rfl
@[simp] theorem driveBit_mapValid (i : BitVec 3) : (s.driveBit i).mapValid = s.mapValid := rfl
@[simp] theorem driveBit_mapPixel (i : BitVec 3) : (s.driveBit i).mapPixel = s.mapPixel := rfl
@[simp] theorem driveBit_mapRaw (i : BitVec 3) : (s.driveBit i).mapRaw = s.mapRaw := rfl
@[simp] theorem driveBit_log (i : BitVec 3) : (s.driveBit i).log = s.log := rfl
@[simp] theorem driveBit_rx (i : BitVec 3) : (s.driveBit i).rx = s.rx := rfl
@[simp] theorem driveBit_rxFaulty (i : BitVec 3) : (s.driveBit i).rxFaulty = s.rxFaulty := rfl
@[simp] theorem driveBit_lostBytes (i : BitVec 3) : (s.driveBit i).lostBytes = s.lostBytes := rfl
@[simp] theorem driveBit_panelSinceReset (i : BitVec 3) : (s.driveBit i).panelSinceReset = s.panelSinceReset := rfl
@[simp] theorem driveBit_panelAcrossResets (i : BitVec 3) : (s.driveBit i).panelAcrossResets = s.panelAcrossResets := rfl

/-! ### `State.resetEdge` -/

@[simp] theorem resetEdge_cfg : (s.resetEdge).cfg = s.cfg := rfl
@[simp] theorem resetEdge_inputs : (s.resetEdge).inputs = s.inputs := rfl
@[simp] theorem resetEdge_rstPrev : (s.resetEdge).rstPrev = true := rfl
@[simp] theorem resetEdge_rq : (s.resetEdge).rq = Vector.replicate 19 0 := rfl
@[simp] theorem resetEdge_rqCnt : (s.resetEdge).rqCnt = 0 := rfl
@[simp] theorem resetEdge_fsm : (s.resetEdge).fsm = .idle := rfl
@[simp] theorem resetEdge_plan : (s.resetEdge).plan = [] := rfl
@[simp] theorem resetEdge_phase : (s.resetEdge).phase = .ready := rfl
@[simp] theorem resetEdge_initIdx : (s.resetEdge).initIdx = 0 := rfl
@[simp] theorem resetEdge_pixRem : (s.resetEdge).pixRem = 0 := rfl
@[simp] theorem resetEdge_delayCnt : (s.resetEdge).delayCnt = 0 := rfl
@[simp] theorem resetEdge_adcWait : (s.resetEdge).adcWait = false := rfl
@[simp] theorem resetEdge_cs : (s.resetEdge).cs = !s.cfg.csActive := rfl
@[simp] theorem resetEdge_cd : (s.resetEdge).cd = true := rfl
@[simp] theorem resetEdge_sclk : (s.resetEdge).sclk = false := rfl
@[simp] theorem resetEdge_mosi : (s.resetEdge).mosi = false := rfl
@[simp] theorem resetEdge_shreg : (s.resetEdge).shreg = 0 := rfl
@[simp] theorem resetEdge_bitIdx : (s.resetEdge).bitIdx = 0 := rfl
@[simp] theorem resetEdge_initDone : (s.resetEdge).initDone = false := rfl
@[simp] theorem resetEdge_faultCause : (s.resetEdge).faultCause = .none := rfl
@[simp] theorem resetEdge_mapValid : (s.resetEdge).mapValid = false := rfl
@[simp] theorem resetEdge_mapPixel : (s.resetEdge).mapPixel = 0 := rfl
@[simp] theorem resetEdge_mapRaw : (s.resetEdge).mapRaw = 0 := rfl
@[simp] theorem resetEdge_log : (s.resetEdge).log = if s.rstPrev then s.log else .reset :: s.log := rfl
@[simp] theorem resetEdge_rx : (s.resetEdge).rx = [] := rfl
@[simp] theorem resetEdge_rxFaulty : (s.resetEdge).rxFaulty = false := rfl
@[simp] theorem resetEdge_lostBytes : (s.resetEdge).lostBytes = s.lostBytes := rfl
@[simp] theorem resetEdge_panelSinceReset : (s.resetEdge).panelSinceReset = Panel.powerOn := rfl
@[simp] theorem resetEdge_panelAcrossResets : (s.resetEdge).panelAcrossResets = s.panelAcrossResets.blockReset .keeps s.csAsserted := rfl

/-! ### The panel models -/

@[simp] theorem panelBy_forgets : s.panelBy .forgets = s.panelSinceReset := rfl
@[simp] theorem panelBy_keeps : s.panelBy .keeps = s.panelAcrossResets := rfl
@[simp] theorem mapPanels_panelBy (f : Panel → Panel) (rule : ResetRule) :
    (s.mapPanels f).panelBy rule = f (s.panelBy rule) := by cases rule <;> rfl
@[simp] theorem panelFrame_panelBy (f : Panel → Panel) (rule : ResetRule) :
    (s.panelFrame f).panelBy rule = (s.panelBy rule).accept f := by cases rule <;> rfl
@[simp] theorem waitDone_panelBy (ms : Nat) (rule : ResetRule) :
    (s.waitDone ms).panelBy rule = (s.panelBy rule).wait ms := by cases rule <;> rfl
@[simp] theorem resetEdge_panelBy (rule : ResetRule) :
    s.resetEdge.panelBy rule = (s.panelBy rule).blockReset rule s.csAsserted := by cases rule <;> rfl

/-! ### The marks -/

@[simp] theorem finish_initIdx_plain : (s.finish .plain).initIdx = s.initIdx := rfl
@[simp] theorem finish_initIdx_initStep (k : Nat) : (s.finish (.initStep k)).initIdx = BitVec.ofNat 5 (k + 1) := rfl
@[simp] theorem finish_initIdx_loadPixels (n : Nat) : (s.finish (.loadPixels n)).initIdx = s.initIdx := rfl
@[simp] theorem finish_initIdx_pixelDone : (s.finish .pixelDone).initIdx = s.initIdx := rfl
@[simp] theorem finish_pixRem_plain : (s.finish .plain).pixRem = s.pixRem := rfl
@[simp] theorem finish_pixRem_initStep (k : Nat) : (s.finish (.initStep k)).pixRem = s.pixRem := rfl
@[simp] theorem finish_pixRem_loadPixels (n : Nat) : (s.finish (.loadPixels n)).pixRem = BitVec.ofNat 32 n := rfl
@[simp] theorem finish_pixRem_pixelDone : (s.finish .pixelDone).pixRem = s.pixRem - 1 := rfl

end Sys2Proof.Machine
end

