-- ==== Sys2Proof/Laws/Step.lean ====
section
/-! SUPPORT. What a meaning, an edge and a step can do, each said once. -/

namespace Sys2Proof.Machine

/-! ## The meanings -/

/-- A panel command's meaning is its effect on the panel, through the quiet-time gate. -/
theorem exec_panelCommand {op : Byte} {d : List Byte} {i : Instr} (h : panelCommand op d = some i) (s : State) :
    exec i s = .next (s.panelFrame (Panel.command s.cfg i)) := by
  unfold panelCommand at h
  split at h <;> cases h <;> rfl

/-- The plan a request builds (30_encoding.md R140). -/
def requestPlan (cfg : Config) : Instr → List PlanItem
  | .send opc p => emits (tx opc p)
  | .init => initPlan cfg
  | .setWindow x0 y0 x1 y1 => emits (windowEvents x0 y0 x1 y1)
  | .drawRect x y w h c => drawPlan cfg x y w h c
  | .fillScreen c => fillPlan cfg c
  | .map => [⟨.sample, .plain⟩]
  | _ => []

/-- A request's meaning starts its plan; INIT also sets `init_idx` to 0. -/
theorem exec_request {i : Instr} {bs : List Byte} (h : encode i = .request bs) (s : State) :
    exec i s = .next { s.start (requestPlan s.cfg i) with initIdx := if i = .init then 0 else s.initIdx } := by
  cases i <;> first | rfl | cases h

/-- Every meaning answers a next state. -/
theorem exec_next (i : Instr) (s : State) : ∃ t, exec i s = .next t := by cases i <;> exact ⟨_, rfl⟩

/-- What a frame that decodes is. -/
theorem decodeFrame_ok {f : List FrameByte} {i : Instr} (h : decodeFrame f = .ok i) :
    ∃ op d, panelCommand op d = some i := by
  unfold decodeFrame at h
  split at h
  · cases h
  · cases h
  · split at h
    · split at h
      · rename_i hp; cases h; exact ⟨_, _, hp⟩
      · cases h
    · cases h

/-! ## Request assembly -/

theorem held_length {s : State} (h : s.rqCnt.toNat ≤ 19) : s.held.length = s.rqCnt.toNat := by
  simp [State.held, h]

/-- A byte taken within the buffer is the last of the bytes held. -/
theorem held_takeByte {s : State} (b : Byte) (h : s.rqCnt.toNat < 19) : (s.takeByte b).held = s.held ++ [b] := by
  have hc : (s.rqCnt + 1).toNat = s.rqCnt.toNat + 1 := by
    rw [BitVec.toNat_add]; simp; omega
  simp only [State.held, takeByte_rq, takeByte_rqCnt, hc, Vector.setIfInBounds, Vector.toList]
  rw [Array.toList_setIfInBounds]
  apply List.ext_getElem
  · simp; omega
  · intro n h1 h2
    simp only [List.length_take, List.length_set, Array.length_toList, Vector.size_toArray] at h1
    by_cases hn : n = s.rqCnt.toNat
    · subst hn
      simp
    · have : n < s.rqCnt.toNat := by omega
      simp [List.getElem_append, this, List.getElem_set_of_ne (Ne.symm hn)]
      omega

/-- A byte string as long as its request is a request. -/
theorem decodeRequest_of_length {bs : List Byte} (h : requestLength bs = some bs.length) (h19 : bs.length ≤ 19) :
    ∃ i, decodeRequest bs = .ok i := by
  unfold requestLength at h
  split at h
  · rename_i opc len p
    simp only [Option.some.injEq, List.length_cons] at h h19
    refine ⟨.send opc p, ?_⟩
    simp only [decodeRequest, decodeSend]
    rw [if_neg (by simp [maxPayload]; omega), if_neg (by omega), if_neg (by omega)]
  · rename_i t
    cases t <;> simp at h
    exact ⟨_, rfl⟩
  · rename_i t
    simp only [Option.some.injEq, List.length_cons] at h
    match t with
    | [a, b, c, d, e, f, g, i] => exact ⟨_, rfl⟩
    | [] | [_] | [_, _] | [_, _, _] | [_, _, _, _] | [_, _, _, _, _] | [_, _, _, _, _, _] | [_, _, _, _, _, _, _] => simp at h
    | _ :: _ :: _ :: _ :: _ :: _ :: _ :: _ :: _ :: _ => simp at h
  · rename_i t
    simp only [Option.some.injEq, List.length_cons] at h
    match t with
    | [a, b, c, d, e, f, g, i, j, k] => exact ⟨_, rfl⟩
    | [] | [_] | [_, _] | [_, _, _] | [_, _, _, _] | [_, _, _, _, _] | [_, _, _, _, _, _] | [_, _, _, _, _, _, _]
    | [_, _, _, _, _, _, _, _] | [_, _, _, _, _, _, _, _, _] => simp at h
    | _ :: _ :: _ :: _ :: _ :: _ :: _ :: _ :: _ :: _ :: _ :: _ => simp at h
  · rename_i t
    simp only [Option.some.injEq, List.length_cons] at h
    match t with
    | [a, b] => exact ⟨_, rfl⟩
    | [] | [_] => simp at h
    | _ :: _ :: _ :: _ => simp at h
  · rename_i t
    cases t <;> simp at h
    exact ⟨_, rfl⟩
  · cases h

/-- What the transfer of a byte comes to (30_encoding.md R121). -/
theorem transfer_cases (s : State) (b : Byte) :
    (19 ≤ s.rqCnt.toNat ∧ s.transfer b = .stop .assemblyOverrun) ∨
    s.rqCnt.toNat < 19 ∧
      ((∃ c, spellingFault (s.held ++ [b]) = some c ∧ s.transfer b = .settled ((s.takeByte b).raiseFault c)) ∨
       spellingFault (s.held ++ [b]) = none ∧
        ((∃ i, requestLength (s.held ++ [b]) = some (s.rqCnt.toNat + 1) ∧ decodeRequest (s.held ++ [b]) = .ok i ∧
            s.transfer b = .run i (s.takeByte b)) ∨
         requestLength (s.held ++ [b]) ≠ some (s.rqCnt.toNat + 1) ∧
          ((isRequestOp ((s.held ++ [b]).headD 0) = true ∧
              s.transfer b = .settled { s.takeByte b with fsm := .assemble }) ∨
           (isRequestOp ((s.held ++ [b]).headD 0) = false ∧ s.transfer b = .refuse .unspelledRequest)))) := by
  by_cases hc : 19 ≤ s.rqCnt.toNat
  · exact .inl ⟨hc, by simp [State.transfer, hc]⟩
  · refine .inr ⟨by omega, ?_⟩
    have hh := held_takeByte b (show s.rqCnt.toNat < 19 by omega)
    have hl : (s.held ++ [b]).length = s.rqCnt.toNat + 1 := by simp [held_length (show s.rqCnt.toNat ≤ 19 by omega)]
    cases hs : spellingFault (s.held ++ [b]) with
    | some c => exact .inl ⟨c, rfl, by simp [State.transfer, hc, hh, hs]⟩
    | none =>
      refine .inr ⟨rfl, ?_⟩
      by_cases hr : requestLength (s.held ++ [b]) = some (s.rqCnt.toNat + 1)
      · obtain ⟨i, hi⟩ := decodeRequest_of_length (bs := s.held ++ [b]) (by rw [hr, hl]) (by omega)
        exact .inl ⟨i, hr, hi, by simp [State.transfer, hc, hh, hs, hr, hl, hi]⟩
      · refine .inr ⟨hr, ?_⟩
        cases hop : isRequestOp ((s.held ++ [b]).headD 0) with
        | true => exact .inl ⟨rfl, by simp only [State.transfer, hc, hh, hs, hr, hl, hop, if_false, if_true]⟩
        | false => exact .inr ⟨rfl, by simp only [State.transfer, hc, hh, hs, hr, hl, hop, if_false, Bool.false_eq_true]⟩

/-! ## The panel port -/

@[simp] theorem frameCommand_faulty (bytes : List FrameByte) : frameCommand true bytes = none := rfl

/-- A frame makes a panel command exactly if its bytes came as they were sent and decode to it. -/
theorem frameCommand_eq_some {faulty : Bool} {bytes : List FrameByte} {i : Instr} :
    frameCommand faulty bytes = some i ↔ faulty = false ∧ decodeFrame bytes = .ok i := by
  cases faulty <;> cases h : decodeFrame bytes <;> simp [frameCommand, h, Except.toOption]

/-- What the end of a frame comes to. -/
theorem closeFrame_cases (s : State) :
    (s.csAsserted = true ∧ ∃ i, frameCommand s.rxFaulty s.openFrame = some i ∧
      s.closeFrame = .run i (s.driveCs .inact)) ∨
    (s.csAsserted = true ∧ frameCommand s.rxFaulty s.openFrame = none ∧
      s.closeFrame = .settled ((s.driveCs .inact).panelFrame Panel.havoc)) ∨
    (s.csAsserted = false ∧ s.closeFrame = .settled (s.driveCs .inact)) := by
  unfold State.closeFrame
  cases h : s.csAsserted with
  | false => exact .inr (.inr ⟨rfl, rfl⟩)
  | true =>
    cases hd : frameCommand s.rxFaulty s.openFrame with
    | some i => exact .inl ⟨rfl, i, rfl, rfl⟩
    | none => exact .inr (.inl ⟨rfl, rfl, rfl⟩)

/-! ## Edges and steps -/

theorem edge_of_reset {s : State} (h : s.inputNow.rst = true) : s.edge = .settled s.popInputs.resetEdge := by
  simp [State.edge, h]

theorem edge_of_work {s : State} (h : s.inputNow.rst = false) :
    s.edge = { s.popInputs with rstPrev := false }.workEdge s.inputNow := by
  simp [State.edge, h]

/-- A step that goes on either settles or runs the instruction its edge completes. -/
theorem step_cases {s t : State} (h : step s = .next t) :
    s.edge = .settled t ∨ ∃ i u, s.edge = .run i u ∧ exec i u = .next t := by
  unfold step at h
  split at h
  · rename_i he; cases h; exact .inl he
  · rename_i i u he; exact .inr ⟨i, u, he, h⟩
  · cases h
  · cases h

theorem step_of_settled {s t : State} (h : s.edge = .settled t) : step s = .next t := by simp [step, h]

theorem step_of_run {s u : State} {i : Instr} (h : s.edge = .run i u) : step s = exec i u := by simp [step, h]

end Sys2Proof.Machine
end

