-- ==== Sys2Proof/Laws/Sequencer.lean ====
section
/-! SUPPORT. What one edge of each micro-operation can do, each said once. -/

namespace Sys2Proof.Machine

/-- An edge of a CS or CD change: it happens, or its distance from SCLK is counted down, or the count starts. -/
theorem lineEdge_cases (s : State) (happens : State → Edge) (m : Mark) :
    (s.phase = .gap 0 ∧ s.lineEdge happens m = happens (s.finish m)) ∨
    (∃ n, s.phase = .gap (n + 1) ∧ s.lineEdge happens m = .settled { s with phase := .gap n }) ∨
    ((∀ n, s.phase ≠ .gap n) ∧ s.lineEdge happens m = .settled { s with phase := .gap (sclkDiv s.cfg - 1) }) := by
  unfold State.lineEdge
  split
  · rename_i h; exact .inl ⟨h, rfl⟩
  · rename_i n h; exact .inr (.inl ⟨n, h, rfl⟩)
  · rename_i h0 h1
    refine .inr (.inr ⟨fun n hn => ?_, rfl⟩)
    cases n with
    | zero => exact h0 hn
    | succ n => exact h1 n hn

/-- An edge of a byte: SCLK rises, a half period goes on, the byte is done, the next bit follows, or the first bit starts. -/
theorem byteEdge_cases (s : State) (inp : Inputs) (b : Byte) (m : Mark) :
    (s.phase = .low 0 ∧ s.byteEdge inp b m = { s with sclk := true, phase := .high (sclkDiv s.cfg - 1) }) ∨
    (∃ n, s.phase = .low (n + 1) ∧ s.byteEdge inp b m = { s with phase := .low n }) ∨
    (s.phase = .high 0 ∧ s.bitIdx = 0 ∧ s.byteEdge inp b m = ({ s with sclk := false }.byteDone b inp.busFault).finish m) ∨
    (s.phase = .high 0 ∧ s.bitIdx ≠ 0 ∧ s.byteEdge inp b m = s.driveBit (s.bitIdx - 1)) ∨
    (∃ n, s.phase = .high (n + 1) ∧ s.byteEdge inp b m = { s with phase := .high n }) ∨
    ((∀ n, s.phase ≠ .low n ∧ s.phase ≠ .high n) ∧ s.byteEdge inp b m = { s with shreg := b }.driveBit 7) := by
  unfold State.byteEdge
  split
  · rename_i h; exact .inl ⟨h, rfl⟩
  · rename_i n h; exact .inr (.inl ⟨n, h, rfl⟩)
  · rename_i h
    split
    · rename_i h0; exact .inr (.inr (.inl ⟨h, h0, rfl⟩))
    · rename_i h0; exact .inr (.inr (.inr (.inl ⟨h, h0, rfl⟩)))
  · rename_i n h; exact .inr (.inr (.inr (.inr (.inl ⟨n, h, rfl⟩))))
  · rename_i h1 h2 h3 h4
    refine .inr (.inr (.inr (.inr (.inr ⟨fun n => ?_, rfl⟩))))
    cases n with
    | zero => exact ⟨h1, h3⟩
    | succ n => exact ⟨h2 n, h4 n⟩

/-- An edge of a WAIT: it is over, its count goes on, or it starts. -/
theorem waitEdge_cases (s : State) (ms : Nat) (m : Mark) :
    (s.phase = .delay ∧ waitEdges s.cfg ms ≤ s.delayCnt + 1 ∧ s.waitEdge ms m = (s.waitDone ms).finish m) ∨
    (s.phase = .delay ∧ s.delayCnt + 1 < waitEdges s.cfg ms ∧
      s.waitEdge ms m = { s with delayCnt := s.delayCnt + 1 }) ∨
    (s.phase ≠ .delay ∧ s.waitEdge ms m = { s with delayCnt := 0, phase := .delay }) := by
  unfold State.waitEdge
  split
  · rename_i h
    split
    · rename_i hw; exact .inl ⟨h, hw, rfl⟩
    · rename_i hw; exact .inr (.inl ⟨h, by omega, rfl⟩)
  · rename_i h; exact .inr (.inr ⟨h, rfl⟩)

/-- An edge of a sample: the results are written, the sample is taken, the ADC has not answered, or the request starts. -/
theorem sampleEdge_cases (s : State) (inp : Inputs) (m : Mark) :
    (∃ r, s.phase = .sampled r ∧ s.sampleEdge inp m = (s.mapResult r).finish m) ∨
    (s.phase = .adc ∧ inp.adcAck = true ∧ s.sampleEdge inp m = { s with phase := .sampled inp.adcData }) ∨
    (s.phase = .adc ∧ inp.adcAck = false ∧ s.sampleEdge inp m = s) ∨
    ((∀ r, s.phase ≠ .sampled r) ∧ s.phase ≠ .adc ∧ s.sampleEdge inp m = { s with adcWait := true, phase := .adc }) := by
  unfold State.sampleEdge
  split
  · rename_i r h; exact .inl ⟨r, h, rfl⟩
  · rename_i h
    cases ha : inp.adcAck with
    | true => exact .inr (.inl ⟨h, rfl, rfl⟩)
    | false => exact .inr (.inr (.inl ⟨h, rfl, rfl⟩))
  · rename_i h1 h2; exact .inr (.inr (.inr ⟨h1, h2, rfl⟩))

/-- An edge in EXEC, by what is left of the plan. -/
theorem sequence_cases (s : State) (inp : Inputs) :
    (s.plan = [] ∧ s.sequence inp = .settled { s with fsm := .idle }) ∨
    ∃ op m items, s.plan = ⟨op, m⟩ :: items ∧
      ((op = .emit (.cs .act) ∧ s.sequence inp = s.lineEdge (fun s => .settled (s.driveCs .act)) m) ∨
       (op = .emit (.cs .inact) ∧ s.sequence inp = s.lineEdge State.closeFrame m) ∨
       (∃ l, op = .emit (.cd l) ∧ s.sequence inp = s.lineEdge (fun s => .settled (s.driveCd l)) m) ∨
       (∃ b, op = .emit (.byte b) ∧ s.sequence inp = .settled (s.byteEdge inp b m)) ∨
       (∃ ms, op = .emit (.wait ms) ∧ s.sequence inp = .settled (s.waitEdge ms m)) ∨
       (∃ v, op = .setInitDone v ∧ s.sequence inp = .settled ({ s with initDone := v }.finish m)) ∨
       (op = .sample ∧ s.sequence inp = .settled (s.sampleEdge inp m))) := by
  cases h : s.plan with
  | nil => exact .inl ⟨rfl, by simp [State.sequence, h]⟩
  | cons it items =>
    obtain ⟨op, m⟩ := it
    refine .inr ⟨op, m, items, rfl, ?_⟩
    match op with
    | .emit (.cs .act) => exact .inl ⟨rfl, by simp only [State.sequence, h]⟩
    | .emit (.cs .inact) => exact .inr (.inl ⟨rfl, by simp only [State.sequence, h]⟩)
    | .emit (.cd l) => exact .inr (.inr (.inl ⟨l, rfl, by simp only [State.sequence, h]⟩))
    | .emit (.byte b) => exact .inr (.inr (.inr (.inl ⟨b, rfl, by simp only [State.sequence, h]⟩)))
    | .emit (.wait ms) => exact .inr (.inr (.inr (.inr (.inl ⟨ms, rfl, by simp only [State.sequence, h]⟩))))
    | .setInitDone v => exact .inr (.inr (.inr (.inr (.inr (.inl ⟨v, rfl, by simp only [State.sequence, h]⟩)))))
    | .sample => exact .inr (.inr (.inr (.inr (.inr (.inr ⟨rfl, by simp only [State.sequence, h]⟩)))))

/-! ## The counters a mark moves -/

/-- What finishing a micro-operation changes. -/
theorem applyMark_cases (s : State) (m : Mark) :
    (m = .plain ∧ s.applyMark m = s) ∨
    (∃ k, m = .initStep k ∧ s.applyMark m = { s with initIdx := BitVec.ofNat 5 (k + 1) }) ∨
    (∃ n, m = .loadPixels n ∧ s.applyMark m = { s with pixRem := BitVec.ofNat 32 n }) ∨
    (m = .pixelDone ∧ s.applyMark m = { s with pixRem := s.pixRem - 1 }) := by
  cases m with
  | plain => exact .inl ⟨rfl, rfl⟩
  | initStep k => exact .inr (.inl ⟨k, rfl, rfl⟩)
  | loadPixels n => exact .inr (.inr (.inl ⟨n, rfl, rfl⟩))
  | pixelDone => exact .inr (.inr (.inr ⟨rfl, rfl⟩))

end Sys2Proof.Machine
end

