-- ==== Sys2Proof/Laws/Run.lean ====
section
/-! SUPPORT. Runs of several edges, and what an edge in EXEC comes to. -/

namespace Sys2Proof.Machine

@[simp] theorem runEdges_zero (s : State) : runEdges 0 s = .next s := rfl

theorem runEdges_succ {k : Nat} {s t : State} (h : step s = .next t) : runEdges (k + 1) s = runEdges k t := by
  have h' : Sys2Proof.core.step s = .next t := h
  simp only [runEdges, Host.Core.run, h']
  rfl

/-- A run is a shorter run followed by the rest. -/
theorem runEdges_add {a b : Nat} {s t : State} (h : runEdges a s = .next t) : runEdges (a + b) s = runEdges b t := by
  induction a generalizing s with
  | zero => cases h; simp
  | succ a ih =>
    have go : ∀ o : Host.Outcome State Fault Refusal, step s = o → runEdges (a + 1 + b) s = runEdges b t := by
      intro o hs
      cases o with
      | next x =>
        rw [runEdges_succ hs] at h
        rw [show a + 1 + b = (a + b) + 1 by omega, runEdges_succ hs, ih h]
      | fault r =>
        have h' : Sys2Proof.core.step s = .fault r := hs
        simp only [runEdges, Host.Core.run, h', reduceCtorEq] at h
      | refused r =>
        have h' : Sys2Proof.core.step s = .refused r := hs
        simp only [runEdges, Host.Core.run, h', reduceCtorEq] at h
    exact go _ rfl

/-- One more edge at the end of a run. -/
theorem runEdges_snoc {k : Nat} {s t u : State} (h : runEdges k s = .next t) (hs : step t = .next u) :
    runEdges (k + 1) s = .next u := by
  rw [runEdges_add h, ← Nat.zero_add 1, runEdges_succ hs, runEdges_zero]

/-! ## Inputs without reset -/

theorem noReset_mono {s : State} {m n : Nat} (h : s.NoReset n) (hm : m ≤ n) : s.NoReset m := by
  intro inp hi
  rw [show s.inputs.take m = (s.inputs.take n).take m by rw [List.take_take, Nat.min_eq_left hm]] at hi
  exact h inp (List.mem_of_mem_take hi)

/-- Without reset in `n` edges, the inputs at each of them have `rst` = 0. -/
theorem noReset_at {s : State} {n k : Nat} (h : s.NoReset n) (hk : k < n) :
    ((s.inputs.drop k).headD quietInputs).rst = false := by
  cases hd : s.inputs.drop k with
  | nil => rfl
  | cons x t =>
    have hx : s.inputs[k]? = some x := by
      have := congrArg (fun l => l[0]?) hd
      simpa [List.getElem?_drop] using this
    obtain ⟨h2, h3⟩ := List.getElem?_eq_some_iff.1 hx
    exact h x (List.mem_take_iff_getElem.2 ⟨k, by omega, h3⟩)

theorem noReset_now {s : State} {n : Nat} (h : s.NoReset n) (hn : 0 < n) : s.inputNow.rst = false := by
  simpa [State.inputNow] using noReset_at h hn

theorem noReset_drop {s t : State} {k n : Nat} (h : s.NoReset (k + n)) (ht : t.inputs = s.inputs.drop k) :
    t.NoReset n := by
  intro inp hi
  rw [ht, List.take_drop] at hi
  exact h inp (List.mem_of_mem_drop hi)

/-- An edge in EXEC without reset goes on with the plan. -/
theorem edge_of_exec {s : State} (hf : s.fsm = .exec) (hr : s.inputNow.rst = false) :
    s.edge = ({ s with inputs := s.inputs.tail, rstPrev := false } : State).sequence s.inputNow := by
  rw [edge_of_work hr]
  simp only [State.workEdge, State.popInputs, hf]

end Sys2Proof.Machine
end

