-- ==== Sys2Proof/Laws/Inversion.lean ====
section
/-! SUPPORT. What a step that goes on did: one inversion lemma for the step and one for each way the sequencer goes on. -/

namespace Sys2Proof.Machine

/-- SCLK's half period has at least one edge. -/
theorem sclkDiv_pos (cfg : Config) : 1 ≤ sclkDiv cfg := by
  have h := cfg.wf.2.2.2.2.2
  simp only [sclkDiv, sclkHz] at *
  omega

/-- The state an edge without reset starts from: the inputs are read off. -/
def State.started (s : State) : State := { s.popInputs with rstPrev := false }

/-- What a step that goes on did: a reset, nothing, the transfer of a byte, or an edge of the sequencer. -/
theorem step_inv {s t : State} (h : step s = .next t) :
    (s.inputNow.rst = true ∧ t = s.popInputs.resetEdge) ∨
    (s.inputNow.rst = false ∧ s.fsm ≠ .exec ∧ t = s.started) ∨
    (s.inputNow.rst = false ∧ (s.fsm = .idle ∨ s.fsm = .assemble) ∧ s.inputNow.rqValid = true ∧ s.rqCnt.toNat < 19 ∧
      ∃ b, b = s.inputNow.rqData ∧
        ((∃ c, spellingFault (s.held ++ [b]) = some c ∧ t = (s.started.takeByte b).raiseFault c) ∨
         (∃ i, decodeRequest (s.held ++ [b]) = .ok i ∧ exec i (s.started.takeByte b) = .next t) ∨
         (spellingFault (s.held ++ [b]) = none ∧ requestLength (s.held ++ [b]) ≠ some (s.rqCnt.toNat + 1) ∧
           isRequestOp ((s.held ++ [b]).headD 0) = true ∧ t = { s.started.takeByte b with fsm := .assemble }))) ∨
    (s.inputNow.rst = false ∧ s.fsm = .exec ∧
      (s.started.sequence s.inputNow = .settled t ∨
        ∃ i v, s.started.sequence s.inputNow = .run i v ∧ exec i v = .next t)) := by
  cases hr : s.inputNow.rst with
  | true =>
    rw [step_of_settled (edge_of_reset hr)] at h
    cases h
    exact .inl ⟨rfl, rfl⟩
  | false =>
    have e : s.edge = s.started.workEdge s.inputNow := edge_of_work hr
    have quiet : s.fsm ≠ .exec → s.edge = .settled s.started →
        s.fsm ≠ .exec ∧ t = s.started := fun hf e => by
      rw [step_of_settled e] at h
      cases h
      exact ⟨hf, rfl⟩
    have byte : ∀ b, s.edge = s.started.transfer b → s.rqCnt.toNat < 19 ∧
        ((∃ c, spellingFault (s.held ++ [b]) = some c ∧ t = (s.started.takeByte b).raiseFault c) ∨
         (∃ i, decodeRequest (s.held ++ [b]) = .ok i ∧ exec i (s.started.takeByte b) = .next t) ∨
         (spellingFault (s.held ++ [b]) = none ∧ requestLength (s.held ++ [b]) ≠ some (s.rqCnt.toNat + 1) ∧
           isRequestOp ((s.held ++ [b]).headD 0) = true ∧ t = { s.started.takeByte b with fsm := .assemble })) := by
      intro b e
      rcases transfer_cases s.started b with ⟨_, e'⟩ | ⟨h19, ⟨c, hc, e'⟩ | ⟨hs, ⟨i, _, hd, e'⟩ | ⟨hl, ⟨hop, e'⟩ | ⟨_, e'⟩⟩⟩⟩
      · simp [step, e, e'] at h
      · rw [step_of_settled (e.trans e')] at h
        cases h
        exact ⟨h19, .inl ⟨c, hc, rfl⟩⟩
      · rw [step_of_run (e.trans e')] at h
        exact ⟨h19, .inr (.inl ⟨i, hd, h⟩)⟩
      · rw [step_of_settled (e.trans e')] at h
        cases h
        exact ⟨h19, .inr (.inr ⟨hs, hl, hop, rfl⟩)⟩
      · simp [step, e, e'] at h
    have hfsm : s.started.fsm = s.fsm := rfl
    unfold State.workEdge at e
    split at e <;> rename_i hf <;> rw [hfsm] at hf
    · split at e
      · rename_i hv
        obtain ⟨h19, hb⟩ := byte _ e
        exact .inr (.inr (.inl ⟨rfl, .inl hf, hv, h19, _, rfl, hb⟩))
      · exact .inr (.inl ⟨rfl, quiet (by simp [hf]) e⟩)
    · split at e
      · rename_i hv
        obtain ⟨h19, hb⟩ := byte _ e
        exact .inr (.inr (.inl ⟨rfl, .inr hf, hv, h19, _, rfl, hb⟩))
      · exact .inr (.inl ⟨rfl, quiet (by simp [hf]) e⟩)
    · refine .inr (.inr (.inr ⟨rfl, hf, ?_⟩))
      rcases step_cases h with h' | ⟨i, v, h', h''⟩
      · exact .inl (e.symm.trans h')
      · exact .inr ⟨i, v, e.symm.trans h', h''⟩
    · exact .inr (.inl ⟨rfl, quiet (by simp [hf]) e⟩)

/-- The sequencer runs an instruction only where a frame ends whose bytes came as they were sent and decode to it. -/
theorem sequence_run {s v : State} {inp : Inputs} {i : Instr} (h : s.sequence inp = .run i v) :
    ∃ m items, s.plan = ⟨.emit (.cs .inact), m⟩ :: items ∧ s.phase = .gap 0 ∧ s.csAsserted = true ∧
      frameCommand s.rxFaulty s.openFrame = some i ∧ v = (s.finish m).driveCs .inact := by
  rcases sequence_cases s inp with ⟨_, e⟩ | ⟨op, m, items, hp, hc⟩
  · rw [h] at e; cases e
  · have line : ∀ happens : State → Edge, s.sequence inp = s.lineEdge happens m →
        s.phase = .gap 0 ∧ happens (s.finish m) = .run i v := by
      intro happens e
      rw [h] at e
      rcases lineEdge_cases s happens m with ⟨hg, x⟩ | ⟨_, _, x⟩ | ⟨_, x⟩ <;> rw [x] at e
      · exact ⟨hg, e.symm⟩
      · cases e
      · cases e
    rcases hc with ⟨_, e⟩ | ⟨rfl, e⟩ | ⟨_, _, e⟩ | ⟨_, _, e⟩ | ⟨_, _, e⟩ | ⟨_, _, e⟩ | ⟨_, e⟩
    · cases (line _ e).2
    · obtain ⟨hg, e⟩ := line _ e
      have h1 : (s.finish m).csAsserted = s.csAsserted := by simp [State.csAsserted]
      have h2 : frameCommand (s.finish m).rxFaulty (s.finish m).openFrame = frameCommand s.rxFaulty s.openFrame := by
          simp [State.openFrame]
      rcases closeFrame_cases (s.finish m) with ⟨ha, j, hd, x⟩ | ⟨_, _, x⟩ | ⟨_, x⟩ <;> rw [x] at e <;> cases e
      exact ⟨m, items, hp, hg, h1 ▸ ha, h2 ▸ hd, rfl⟩
    · cases (line _ e).2
    all_goals rw [h] at e; cases e

/-- Where the sequencer settles, it did one of these. -/
theorem sequence_settled {s t : State} {inp : Inputs} (h : s.sequence inp = .settled t) :
    (s.plan = [] ∧ t = { s with fsm := .idle }) ∨
    ∃ op m items, s.plan = ⟨op, m⟩ :: items ∧
      ((∃ n e, op = .emit e ∧ ((∃ a, e = .cs a) ∨ ∃ l, e = .cd l) ∧ t = { s with phase := .gap n }) ∨
       (op = .emit (.cs .act) ∧ s.phase = .gap 0 ∧ t = (s.finish m).driveCs .act) ∨
       (op = .emit (.cs .inact) ∧ s.phase = .gap 0 ∧ s.csAsserted = true ∧ frameCommand s.rxFaulty s.openFrame = none ∧
         t = ((s.finish m).driveCs .inact).panelFrame Panel.havoc) ∨
       (op = .emit (.cs .inact) ∧ s.phase = .gap 0 ∧ s.csAsserted = false ∧ t = (s.finish m).driveCs .inact) ∨
       (∃ l, op = .emit (.cd l) ∧ s.phase = .gap 0 ∧ t = (s.finish m).driveCd l) ∨
       (∃ b, op = .emit (.byte b) ∧ t = s.byteEdge inp b m) ∨
       (∃ ms, op = .emit (.wait ms) ∧ t = s.waitEdge ms m) ∨
       (∃ v, op = .setInitDone v ∧ t = { s with initDone := v }.finish m) ∨
       (op = .sample ∧ t = s.sampleEdge inp m)) := by
  rcases sequence_cases s inp with ⟨hp, e⟩ | ⟨op, m, items, hp, hc⟩
  · rw [h] at e; cases e; exact .inl ⟨hp, rfl⟩
  · refine .inr ⟨op, m, items, hp, ?_⟩
    have line : ∀ (happens : State → Edge), s.sequence inp = s.lineEdge happens m →
        (∃ n, t = { s with phase := .gap n }) ∨ (s.phase = .gap 0 ∧ happens (s.finish m) = .settled t) := by
      intro happens e
      rw [h] at e
      rcases lineEdge_cases s happens m with ⟨hg, x⟩ | ⟨n, _, x⟩ | ⟨_, x⟩ <;> rw [x] at e
      · exact .inr ⟨hg, e.symm⟩
      · cases e; exact .inl ⟨n, rfl⟩
      · cases e; exact .inl ⟨_, rfl⟩
    rcases hc with ⟨rfl, e⟩ | ⟨rfl, e⟩ | ⟨l, rfl, e⟩ | ⟨b, rfl, e⟩ | ⟨ms, rfl, e⟩ | ⟨v, rfl, e⟩ | ⟨rfl, e⟩
    · rcases line _ e with ⟨n, ht⟩ | ⟨hg, e⟩
      · exact .inl ⟨n, _, rfl, .inl ⟨_, rfl⟩, ht⟩
      · cases e; exact .inr (.inl ⟨rfl, hg, rfl⟩)
    · rcases line _ e with ⟨n, ht⟩ | ⟨hg, e⟩
      · exact .inl ⟨n, _, rfl, .inl ⟨_, rfl⟩, ht⟩
      · have h1 : (s.finish m).csAsserted = s.csAsserted := by simp [State.csAsserted]
        have h2 : frameCommand (s.finish m).rxFaulty (s.finish m).openFrame = frameCommand s.rxFaulty s.openFrame := by
          simp [State.openFrame]
        rcases closeFrame_cases (s.finish m) with ⟨_, j, _, x⟩ | ⟨ha, hd, x⟩ | ⟨ha, x⟩ <;> rw [x] at e <;> cases e
        · exact .inr (.inr (.inl ⟨rfl, hg, h1 ▸ ha, h2 ▸ hd, rfl⟩))
        · exact .inr (.inr (.inr (.inl ⟨rfl, hg, h1 ▸ ha, rfl⟩)))
    · rcases line _ e with ⟨n, ht⟩ | ⟨hg, e⟩
      · exact .inl ⟨n, _, rfl, .inr ⟨_, rfl⟩, ht⟩
      · cases e; exact .inr (.inr (.inr (.inr (.inl ⟨l, rfl, hg, rfl⟩))))
    all_goals rw [h] at e; cases e
    · exact .inr (.inr (.inr (.inr (.inr (.inl ⟨b, rfl, rfl⟩)))))
    · exact .inr (.inr (.inr (.inr (.inr (.inr (.inl ⟨ms, rfl, rfl⟩))))))
    · exact .inr (.inr (.inr (.inr (.inr (.inr (.inr (.inl ⟨v, rfl, rfl⟩)))))))
    · exact .inr (.inr (.inr (.inr (.inr (.inr (.inr (.inr ⟨rfl, rfl⟩)))))))

/-! ## Where the lines put the port -/

/-- The events still to come continue from where the port stands. -/
theorem bus_emit {s : State} {e : Event} {m : Mark} {items : List PlanItem} (h : s.BusOk)
    (hp : s.plan = ⟨.emit e, m⟩ :: items) :
    ∃ b b', s.busState = some b ∧ b.next e = some b' ∧ b'.run items = some .idle := by
  simp only [State.BusOk, hp] at h
  cases hb : s.busState with
  | none => simp [hb] at h
  | some b =>
    simp only [hb, Option.bind_some, BusState.run] at h
    cases hn : b.next e with
    | none => simp [hn] at h
    | some b' => exact ⟨b, b', rfl, hn, by simpa [hn] using h⟩

/-- A micro-operation that drives no line stands between transactions. -/
theorem bus_silent {s : State} {op : MicroOp} {m : Mark} {items : List PlanItem} (h : s.BusOk)
    (hp : s.plan = ⟨op, m⟩ :: items) (ho : op = .sample ∨ ∃ v, op = .setInitDone v) :
    s.busState = some .idle ∧ BusState.idle.run items = some .idle := by
  simp only [State.BusOk, hp] at h
  cases hb : s.busState with
  | none => simp [hb] at h
  | some b =>
    simp only [hb, Option.bind_some] at h
    rcases ho with rfl | ⟨v, rfl⟩ <;> cases b <;> simp [BusState.run] at h ⊢ <;> exact h

theorem busOk_of {t : State} {b : BusState} (h : t.busState = some b) (hr : b.run t.plan = some .idle) : t.BusOk := by
  simp [State.BusOk, h, hr]

theorem busState_idle {s : State} (h : s.busState = some .idle) : s.csAsserted = false ∧ s.cd = true ∧ s.rx = [] := by
  unfold State.busState at h
  split at h <;> (try split at h) <;> cases h
  exact ⟨‹_›, ‹_›, by simpa [State.openFrame] using ‹s.openFrame = []›⟩

theorem busState_command {s : State} (h : s.busState = some .command) :
    s.csAsserted = false ∧ s.cd = false ∧ s.rx = [] := by
  unfold State.busState at h
  split at h <;> (try split at h) <;> cases h
  exact ⟨‹_›, ‹_›, by simpa [State.openFrame] using ‹s.openFrame = []›⟩

theorem busState_opened {s : State} (h : s.busState = some .opened) :
    s.csAsserted = true ∧ s.cd = false ∧ s.rx = [] := by
  unfold State.busState at h
  split at h <;> (try split at h) <;> cases h
  exact ⟨‹_›, ‹_›, by simpa [State.openFrame] using ‹s.openFrame = []›⟩

theorem busState_opcodeSent {s : State} (h : s.busState = some .opcodeSent) :
    s.csAsserted = true ∧ s.cd = false ∧ ∃ o, s.openFrame = [(.cmd, o)] := by
  unfold State.busState at h
  split at h <;> (try split at h) <;> cases h
  exact ⟨‹_›, ‹_›, _, ‹_›⟩

theorem busState_data {s : State} (h : s.busState = some .data) :
    s.csAsserted = true ∧ s.cd = true ∧
      ∃ o rest, s.openFrame = (.cmd, o) :: rest ∧ rest.all (fun b => b.1 == .data) = true := by
  unfold State.busState at h
  split at h <;> (try split at h) <;> cases h
  exact ⟨‹_›, ‹_›, _, _, ‹_›, ‹_›⟩

end Sys2Proof.Machine
end

