-- ==== Sys2Proof/Laws/Plans.lean ====
section
/-! SUPPORT. What the requests' plans are: their events, their discipline on the panel port, their marks. -/

namespace Sys2Proof.Machine

/-! ## Events -/

@[simp] theorem planEvents_nil : planEvents [] = [] := rfl

@[simp] theorem planEvents_append (p q : List PlanItem) : planEvents (p ++ q) = planEvents p ++ planEvents q := by
  simp [planEvents]

@[simp] theorem planEvents_cons_emit (e : Event) (m : Mark) (p : List PlanItem) :
    planEvents (⟨.emit e, m⟩ :: p) = e :: planEvents p := rfl

@[simp] theorem planEvents_cons_setInitDone (v : Bool) (m : Mark) (p : List PlanItem) :
    planEvents (⟨.setInitDone v, m⟩ :: p) = planEvents p := rfl

@[simp] theorem planEvents_emits (es : List Event) : planEvents (emits es) = es := by
  induction es with
  | nil => rfl
  | cons e rest ih => simpa [emits] using ih

@[simp] theorem ops_emits (es : List Event) : (emits es).map (fun it => it.op) = es.map MicroOp.emit := by
  simp [emits, Function.comp_def]

/-- The micro-operations of a pixel stream are those of `Tx(0x2C, pixels)`. -/
theorem ops_streamPlan (n : Nat) (c : Word) :
    (streamPlan n c).map (fun it => it.op) = (tx 0x2C (pixelBytes n c)).map MicroOp.emit := by
  have : ∀ n, ((List.replicate n [(⟨.emit (.byte (hi8 c)), .plain⟩ : PlanItem),
      ⟨.emit (.byte (lo8 c)), .pixelDone⟩]).flatten).map (fun it => it.op) =
        ((pixelBytes n c).map Event.byte).map MicroOp.emit := by
    intro n
    induction n with
    | zero => rfl
    | succ n ih => simp [List.replicate_succ, pixelBytes, operandBytes]
  simp [streamPlan, tx, txOpening, this]

@[simp] theorem marks_emits (es : List Event) :
    (emits es).map (fun it => it.mark) = List.replicate es.length .plain := by
  simp [emits, Function.comp_def]

/-- The marks of a pixel stream: `pix_rem` is loaded with the opcode byte and decremented with each pixel's low byte. -/
theorem marks_streamPlan (n : Nat) (c : Word) :
    (streamPlan n c).map (fun it => it.mark) =
      [.plain, .plain, .loadPixels n, .plain] ++ (List.replicate n [.plain, .pixelDone]).flatten ++ [.plain] := by
  simp [streamPlan]

/-- A plan's events are those its micro-operations emit. -/
theorem planEvents_of_ops {p : List PlanItem} {es : List Event}
    (h : p.map (fun it => it.op) = es.map MicroOp.emit) : planEvents p = es := by
  induction p generalizing es with
  | nil => cases es <;> simp_all
  | cons it rest ih =>
    obtain ⟨op, m⟩ := it
    cases es with
    | nil => simp at h
    | cons e es =>
      simp only [List.map_cons, List.cons.injEq] at h
      obtain ⟨rfl, h⟩ := h
      simp [ih h]

@[simp] theorem planEvents_streamPlan (n : Nat) (c : Word) : planEvents (streamPlan n c) = tx 0x2C (pixelBytes n c) :=
  planEvents_of_ops (ops_streamPlan n c)

/-! ## The panel port's discipline -/

theorem run_append (b : BusState) (p q : List PlanItem) : b.run (p ++ q) = (b.run p).bind (fun b' => b'.run q) := by
  induction p generalizing b with
  | nil => simp [BusState.run]
  | cons it rest ih =>
    obtain ⟨op, m⟩ := it
    cases op with
    | emit e =>
      simp only [List.cons_append, BusState.run]
      cases b.next e with
      | none => rfl
      | some b' => simpa using ih b'
    | setInitDone v => cases b <;> simp [BusState.run, ih]
    | sample => cases b <;> simp [BusState.run, ih]

/-- Bytes of a data phase leave the port in its data phase. -/
theorem run_data_bytes (p : List PlanItem) (h : ∀ it ∈ p, ∃ b, it.op = .emit (.byte b)) :
    BusState.data.run p = some .data := by
  induction p with
  | nil => rfl
  | cons it rest ih =>
    obtain ⟨b, hb⟩ := h it List.mem_cons_self
    obtain ⟨op, m⟩ := it
    subst hb
    simpa [BusState.run, BusState.next] using ih (fun x hx => h x (List.mem_cons_of_mem _ hx))

theorem run_txOpening (o : Byte) (p : List Byte) : BusState.idle.run (emits (txOpening o p)) = some .data := by
  have := run_data_bytes (emits (p.map Event.byte)) (by simp [emits])
  simp only [emits, txOpening, List.map_append, List.map_cons, List.map_nil] at this ⊢
  simpa [BusState.run, BusState.next] using this

/-- A transaction leads the port from idle to idle. -/
@[simp] theorem run_tx (o : Byte) (p : List Byte) : BusState.idle.run (emits (tx o p)) = some .idle := by
  have : emits (tx o p) = emits (txOpening o p) ++ emits [.cs .inact] := by simp [emits, tx]
  rw [this, run_append, run_txOpening]
  rfl

@[simp] theorem run_streamPlan (n : Nat) (c : Word) : BusState.idle.run (streamPlan n c) = some .idle := by
  have hb : BusState.data.run ((List.replicate n
      [(⟨.emit (.byte (hi8 c)), .plain⟩ : PlanItem), ⟨.emit (.byte (lo8 c)), .pixelDone⟩]).flatten) = some .data := by
    apply run_data_bytes
    intro it hit
    simp only [List.mem_flatten, List.mem_replicate] at hit
    obtain ⟨l, ⟨_, rfl⟩, hit⟩ := hit
    simp only [List.mem_cons, List.not_mem_nil, or_false] at hit
    rcases hit with rfl | rfl <;> exact ⟨_, rfl⟩
  rw [streamPlan, run_append, run_append]
  simp only [BusState.run, BusState.next, Option.bind_some, hb]

theorem emits_append (a b : List Event) : emits (a ++ b) = emits a ++ emits b := by simp [emits]

@[simp] theorem run_windowEvents (x0 y0 x1 y1 : Word) :
    BusState.idle.run (emits (windowEvents x0 y0 x1 y1)) = some .idle := by
  simp [windowEvents, emits_append, run_append]

@[simp] theorem run_rectPlan (x y w h c : Word) : BusState.idle.run (rectPlan x y w h c) = some .idle := by
  simp [rectPlan, run_append]

@[simp] theorem run_fillPlan (cfg : Config) (c : Word) : BusState.idle.run (fillPlan cfg c) = some .idle := by
  simp [fillPlan, run_append]

/-- What DRAW_RECT's plan can be. -/
theorem drawPlan_cases (cfg : Config) (x y w h c : Word) :
    drawPlan cfg x y w h c = [] ∨ (rectInBounds cfg x y w h = true ∧ drawPlan cfg x y w h c = rectPlan x y w h c) := by
  unfold drawPlan
  split
  · exact .inl rfl
  · rename_i hb
    split
    · exact .inl rfl
    · exact .inr ⟨by simpa using hb, rfl⟩

@[simp] theorem run_drawPlan (cfg : Config) (x y w h c : Word) :
    BusState.idle.run (drawPlan cfg x y w h c) = some .idle := by
  rcases drawPlan_cases cfg x y w h c with e | ⟨_, e⟩ <;> rw [e]
  · rfl
  · exact run_rectPlan x y w h c

@[simp] theorem run_initStepPlan (cfg : Config) (k : Nat) : BusState.idle.run (initStepPlan cfg k) = some .idle := by
  rw [initStepPlan, run_append, run_txOpening]
  split <;> rfl

theorem run_flatMap {α : Type} (f : α → List PlanItem) (l : List α)
    (h : ∀ a ∈ l, BusState.idle.run (f a) = some .idle) : BusState.idle.run (l.flatMap f) = some .idle := by
  induction l with
  | nil => rfl
  | cons a rest ih =>
    rw [List.flatMap_cons, run_append, h a List.mem_cons_self]
    exact ih (fun b hb => h b (List.mem_cons_of_mem _ hb))

theorem run_setInitDone (v : Bool) (m : Mark) (p : List PlanItem) :
    BusState.idle.run (⟨.setInitDone v, m⟩ :: p) = BusState.idle.run p := rfl

@[simp] theorem run_initPlan (cfg : Config) : BusState.idle.run (initPlan cfg) = some .idle := by
  have h := run_flatMap (initStepPlan cfg) (List.range nInit) (fun k _ => run_initStepPlan cfg k)
  rw [initPlan, run_setInitDone, run_append, run_append, h, Option.bind_some, run_fillPlan, Option.bind_some,
    run_setInitDone]
  rfl

@[simp] theorem run_requestPlan (cfg : Config) (i : Instr) : BusState.idle.run (requestPlan cfg i) = some .idle := by
  cases i
  case send => exact run_tx _ _
  case init => exact run_initPlan cfg
  case setWindow => exact run_windowEvents _ _ _ _
  case drawRect => exact run_drawPlan cfg _ _ _ _ _
  case fillScreen => exact run_fillPlan cfg _
  all_goals rfl

/-! ## Marks -/

theorem initStepsLeft_append (p q : List PlanItem) : initStepsLeft (p ++ q) = initStepsLeft p ++ initStepsLeft q := by
  simp [initStepsLeft]

/-- A plan none of whose marks moves a counter. -/
def plainMarks (p : List PlanItem) : Prop := ∀ it ∈ p, it.mark = .plain

theorem plainMarks_emits (es : List Event) : plainMarks (emits es) := by
  intro it h
  simp only [emits, List.mem_map] at h
  obtain ⟨_, _, rfl⟩ := h
  rfl

theorem initStepsLeft_plain {p : List PlanItem} (h : plainMarks p) : initStepsLeft p = [] := by
  simp only [initStepsLeft, List.filterMap_eq_nil_iff]
  intro it hit
  simp [h it hit]

theorem pixelsLeft_plain_append {p : List PlanItem} (h : plainMarks p) (q : List PlanItem) :
    pixelsLeft (p ++ q) = pixelsLeft q := by
  induction p with
  | nil => rfl
  | cons it rest ih =>
    obtain ⟨op, m⟩ := it
    have hm : m = .plain := h ⟨op, m⟩ List.mem_cons_self
    subst hm
    simpa [pixelsLeft] using ih (fun x hx => h x (List.mem_cons_of_mem _ hx))

theorem streamsOk_plain_append {p : List PlanItem} (h : plainMarks p) (q : List PlanItem) :
    streamsOk (p ++ q) ↔ streamsOk q := by
  induction p with
  | nil => rfl
  | cons it rest ih =>
    obtain ⟨op, m⟩ := it
    have hm : m = .plain := h ⟨op, m⟩ List.mem_cons_self
    subst hm
    simpa [streamsOk] using ih (fun x hx => h x (List.mem_cons_of_mem _ hx))

theorem pixelsLeft_append_of_zero (p : List PlanItem) {q : List PlanItem} (h : pixelsLeft q = 0) :
    pixelsLeft (p ++ q) = pixelsLeft p := by
  induction p with
  | nil => simp [h, pixelsLeft]
  | cons it rest ih => obtain ⟨op, m⟩ := it; cases m <;> simp [pixelsLeft, ih]

theorem streamsOk_append {p q : List PlanItem} (hp : streamsOk p) (hq : streamsOk q) (h : pixelsLeft q = 0) :
    streamsOk (p ++ q) := by
  induction p with
  | nil => simpa using hq
  | cons it rest ih =>
    obtain ⟨op, m⟩ := it
    cases m
    case loadPixels n =>
      obtain ⟨⟨h1, h2⟩, h3⟩ := hp
      exact ⟨⟨h1.trans (pixelsLeft_append_of_zero rest h).symm, h2⟩, ih h3⟩
    all_goals exact ih hp

theorem pixelsLeft_pixels (n : Nat) (a b : Byte) (q : List PlanItem) :
    pixelsLeft ((List.replicate n [(⟨.emit (.byte a), .plain⟩ : PlanItem), ⟨.emit (.byte b), .pixelDone⟩]).flatten ++ q) =
      pixelsLeft q + n := by
  induction n with
  | zero => rfl
  | succ n ih => simp only [List.replicate_succ, List.flatten_cons, List.cons_append, List.nil_append,
      pixelsLeft, ih]; omega

theorem streamsOk_pixels (n : Nat) (a b : Byte) {q : List PlanItem} (h : streamsOk q) :
    streamsOk ((List.replicate n [(⟨.emit (.byte a), .plain⟩ : PlanItem), ⟨.emit (.byte b), .pixelDone⟩]).flatten ++ q) := by
  induction n with
  | zero => exact h
  | succ n ih => simpa [List.replicate_succ, streamsOk] using ih

@[simp] theorem pixelsLeft_streamPlan (n : Nat) (c : Word) : pixelsLeft (streamPlan n c) = 0 := rfl

theorem streamsOk_streamPlan {n : Nat} (c : Word) (h : n < 2 ^ 32) : streamsOk (streamPlan n c) := by
  refine ⟨⟨?_, h⟩, streamsOk_pixels n _ _ trivial⟩
  exact ((pixelsLeft_pixels n (hi8 c) (lo8 c) [⟨.emit (.cs .inact), .plain⟩]).trans (Nat.zero_add n)).symm

theorem initStepsLeft_streamPlan (n : Nat) (c : Word) : initStepsLeft (streamPlan n c) = [] := by
  simp only [initStepsLeft, List.filterMap_eq_nil_iff]
  intro it hit
  simp only [streamPlan, List.cons_append, List.nil_append, List.mem_cons, List.mem_append,
    List.mem_flatten, List.mem_replicate, List.not_mem_nil, or_false] at hit
  rcases hit with rfl | rfl | rfl | rfl | ⟨l, ⟨_, rfl⟩, hit⟩ | rfl <;> try rfl
  simp only [List.mem_cons, List.not_mem_nil, or_false] at hit
  rcases hit with rfl | rfl <;> rfl

/-- The screen has fewer than 2^32 pixels (10_state.md R45). -/
theorem screen_lt (cfg : Config) : cfg.width * cfg.height < 2 ^ 32 := by
  obtain ⟨⟨_, hw⟩, ⟨_, hh⟩, _⟩ := cfg.wf
  calc cfg.width * cfg.height ≤ 65535 * 65535 := Nat.mul_le_mul hw hh
    _ < 2 ^ 32 := by norm_num

/-- The marks of a plan that draws no init step. -/
structure RequestMarks (p : List PlanItem) : Prop where
  steps : initStepsLeft p = []
  pixels : pixelsLeft p = 0
  streams : streamsOk p

theorem RequestMarks.nil : RequestMarks [] := ⟨rfl, rfl, trivial⟩

theorem RequestMarks.emits (es : List Event) : RequestMarks (emits es) := by
  have h := plainMarks_emits es
  refine ⟨initStepsLeft_plain h, ?_, ?_⟩
  · simpa [pixelsLeft] using pixelsLeft_plain_append h []
  · simpa [streamsOk] using streamsOk_plain_append h []

theorem RequestMarks.append {p q : List PlanItem} (hp : RequestMarks p) (hq : RequestMarks q) : RequestMarks (p ++ q) :=
  ⟨by rw [initStepsLeft_append, hp.steps, hq.steps]; rfl, by rw [pixelsLeft_append_of_zero _ hq.pixels, hp.pixels],
    streamsOk_append hp.streams hq.streams hq.pixels⟩

theorem RequestMarks.streamPlan {n : Nat} (c : Word) (h : n < 2 ^ 32) : RequestMarks (streamPlan n c) :=
  ⟨initStepsLeft_streamPlan n c, rfl, streamsOk_streamPlan c h⟩

theorem RequestMarks.fillPlan (cfg : Config) (c : Word) : RequestMarks (fillPlan cfg c) :=
  (RequestMarks.emits _).append (RequestMarks.streamPlan c (screen_lt cfg))

theorem RequestMarks.drawPlan (cfg : Config) (x y w h c : Word) : RequestMarks (drawPlan cfg x y w h c) := by
  rcases drawPlan_cases cfg x y w h c with e | ⟨hb, e⟩ <;> rw [e]
  · exact RequestMarks.nil
  · refine (RequestMarks.emits _).append (RequestMarks.streamPlan c ?_)
    simp only [rectInBounds, decide_eq_true_eq] at hb
    calc w.toNat * h.toNat ≤ cfg.width * cfg.height := Nat.mul_le_mul (by omega) (by omega)
      _ < 2 ^ 32 := screen_lt cfg

/-! ## INIT -/

theorem initStepsLeft_initStepPlan (cfg : Config) (k : Nat) : initStepsLeft (initStepPlan cfg k) = [k] := by
  rw [initStepPlan, initStepsLeft_append, initStepsLeft_plain (plainMarks_emits _)]
  split <;> rfl

theorem initStepsLeft_initPlan (cfg : Config) : initStepsLeft (initPlan cfg) = List.range nInit := by
  have h : ∀ l : List Nat, initStepsLeft (l.flatMap (initStepPlan cfg)) = l := by
    intro l
    induction l with
    | nil => rfl
    | cons k rest ih => rw [List.flatMap_cons, initStepsLeft_append, initStepsLeft_initStepPlan, ih]; rfl
  have hc : initStepsLeft (initPlan cfg) = initStepsLeft
      ((List.range nInit).flatMap (initStepPlan cfg) ++ fillPlan cfg cfg.background ++ [⟨.setInitDone true, .plain⟩]) := rfl
  rw [hc, initStepsLeft_append, initStepsLeft_append, h, (RequestMarks.fillPlan cfg cfg.background).steps]
  simp [initStepsLeft]

/-- A plan whose marks only name init steps. -/
theorem stepMarks_append {p : List PlanItem} (h : ∀ it ∈ p, it.mark = .plain ∨ ∃ k, it.mark = .initStep k)
    (q : List PlanItem) : pixelsLeft (p ++ q) = pixelsLeft q ∧ (streamsOk (p ++ q) ↔ streamsOk q) := by
  induction p with
  | nil => exact ⟨rfl, Iff.rfl⟩
  | cons it rest ih =>
    obtain ⟨op, m⟩ := it
    have ih := ih (fun x hx => h x (List.mem_cons_of_mem _ hx))
    rcases h ⟨op, m⟩ List.mem_cons_self with hm | ⟨k, hm⟩ <;> simp only at hm <;> subst hm <;>
      simpa [pixelsLeft, streamsOk] using ih

theorem initStepPlan_marks (cfg : Config) (k : Nat) :
    ∀ it ∈ initStepPlan cfg k, it.mark = .plain ∨ ∃ k, it.mark = .initStep k := by
  intro it h
  rcases List.mem_append.1 h with h | h
  · exact .inl (plainMarks_emits _ it h)
  · split at h <;> simp only [List.mem_cons, List.not_mem_nil, or_false] at h
    · rcases h with rfl | rfl
      · exact .inl rfl
      · exact .inr ⟨k, rfl⟩
    · exact .inr ⟨k, by rw [h]⟩

theorem initPlan_pixels (cfg : Config) : pixelsLeft (initPlan cfg) = 0 ∧ streamsOk (initPlan cfg) := by
  have hf := (RequestMarks.fillPlan cfg cfg.background).append (RequestMarks.mk (p := [⟨.setInitDone true, .plain⟩]) rfl rfl trivial)
  have hm := stepMarks_append (p := (List.range nInit).flatMap (initStepPlan cfg))
    (fun it h => by
      obtain ⟨k, _, h⟩ := List.mem_flatMap.1 h
      exact initStepPlan_marks cfg k it h)
    (fillPlan cfg cfg.background ++ [⟨.setInitDone true, .plain⟩])
  simp only [initPlan, pixelsLeft, streamsOk, List.append_assoc]
  exact ⟨hm.1.trans hf.pixels, hm.2.2 hf.streams⟩

/-- The marks of any request's plan. -/
theorem requestPlan_marks (cfg : Config) (i : Instr) :
    (initStepsLeft (requestPlan cfg i) = if i = .init then List.range nInit else []) ∧
      pixelsLeft (requestPlan cfg i) = 0 ∧ streamsOk (requestPlan cfg i) := by
  have pack : ∀ {p : List PlanItem}, RequestMarks p → initStepsLeft p = [] ∧ pixelsLeft p = 0 ∧ streamsOk p :=
    fun h => ⟨h.steps, h.pixels, h.streams⟩
  cases i
  case send => exact pack (RequestMarks.emits _)
  case init => exact ⟨initStepsLeft_initPlan cfg, initPlan_pixels cfg⟩
  case setWindow => exact pack (RequestMarks.emits _)
  case drawRect => exact pack (RequestMarks.drawPlan cfg _ _ _ _ _)
  case fillScreen => exact pack (RequestMarks.fillPlan cfg _)
  case map => exact pack ⟨rfl, rfl, trivial⟩
  all_goals exact pack RequestMarks.nil

end Sys2Proof.Machine
end

