-- ==== Sys2Proof/Tests/Slice0.lean ====
section
/-! SUPPORT. Small tests: what WellFormed refuses, words written out from the encoding tables, the spec's test vectors
(95_test_vectors.md), and one witness for the hypotheses of each statement that has some. -/

namespace Sys2Proof.Tests

open Sys2Proof.Machine

/-! ## Concrete configurations and states -/

/-- The reference configuration at 8 MHz, with example values for its OPEN parameters. -/
def panelParams : Params :=
  referenceParams 0x0000 (fun k => if k = 12 then [0xC8] else if k = 13 then [0x05] else []) 8000000 0 0

def panelCfg : Config := ⟨panelParams, by decide⟩

/-- A 3 by 2 screen with a pixel of sprite, and settling times that INIT waits for. -/
def smallParams : Params :=
  { panelParams with
    width := 3, height := 2, spriteWidth := 1, delaySwresetMs := 5, delaySlpoutMs := 120, tSwresetMs := 5, tSlpoutMs := 120 }

def smallCfg : Config := ⟨smallParams, by decide⟩

/-- Reset state of a block with this configuration. -/
def idleState (c : Config) : State := { State.reset with cfg := c, cs := !c.csActive, rstPrev := false }

/-- The inputs of an edge at which a byte is offered. -/
def offered (b : Byte) : Inputs := { quietInputs with rqValid := true, rqData := b }

/-- The inputs of an edge at which the ADC answers. -/
def answered (r : Sample) : Inputs := { quietInputs with adcAck := true, adcData := r }

/-- The inputs of an edge with reset. -/
def resetInputs : Inputs := { quietInputs with rst := true }

/-- ASSEMBLE with these bytes held. -/
def assembling (c : Config) (bytes : List Byte) : State :=
  { idleState c with
    fsm := .assemble
    rq := Vector.ofFn (fun i : Fin 19 => bytes.getD i.val 0)
    rqCnt := BitVec.ofNat 5 bytes.length }

/-- EXEC at the start of a plan. -/
def executing (c : Config) (plan : List PlanItem) : State := { idleState c with fsm := .exec, plan := plan }

/-- EXEC inside a transaction whose opcode byte is at its first bit. -/
def shifting (c : Config) : State :=
  { executing c (emits [.byte 0xA9, .cd .data, .cs .inact]) with
    phase := .low 0, cs := c.csActive, cd := false, shreg := 0xA9, bitIdx := 7, mosi := true }

/-- EXEC at the edge where CD falls. -/
def turningCd (c : Config) : State :=
  { executing c (emits [.cd .cmd, .cs .act, .byte 0x29, .cd .data, .cs .inact]) with phase := .gap 0 }

/-- A configured panel with the window of column 1 to 2, row 0 to 1. -/
def readyPanel : Panel where
  fm := [(0, 7)]
  cols := some (1, 2)
  rows := some (0, 1)
  awake := .yes
  mode16 := .yes
  orient := .yes
  quiet := 0

/-- A state in which both panel models have this panel. -/
def withPanel (s : State) (p : Panel) : State := s.mapPanels (fun _ => p)

def readyState (c : Config) : State := withPanel (idleState c) readyPanel

/-! ## WellFormed refuses -/

theorem test_send_long : (Instr.send 0x36 (List.replicate 17 0)).wellFormed = false := by decide
theorem test_send_longest : (Instr.send 0x36 (List.replicate 16 0)).wellFormed = true := by decide
theorem test_swreset_long : (Instr.swreset (List.replicate 17 0)).wellFormed = false := by decide
theorem test_slpout_long : (Instr.slpout (List.replicate 17 0)).wellFormed = false := by decide
theorem test_invoff_long : (Instr.invoff (List.replicate 17 0)).wellFormed = false := by decide
theorem test_caset_long : (Instr.caset (List.replicate 17 0)).wellFormed = false := by decide
theorem test_raset_long : (Instr.raset (List.replicate 17 0)).wellFormed = false := by decide
theorem test_ramwr_has_no_limit : (Instr.ramwr (List.replicate 480 0)).wellFormed = true := by decide
theorem test_colmod_long : (Instr.colmod (List.replicate 17 0)).wellFormed = false := by decide
theorem test_madctl_long : (Instr.madctl (List.replicate 17 0)).wellFormed = false := by decide
theorem test_frmctr1_long : (Instr.frmctr1 (List.replicate 17 0)).wellFormed = false := by decide
theorem test_frmctr2_long : (Instr.frmctr2 (List.replicate 17 0)).wellFormed = false := by decide
theorem test_invctr_long : (Instr.invctr (List.replicate 17 0)).wellFormed = false := by decide
theorem test_pwctr1_long : (Instr.pwctr1 (List.replicate 17 0)).wellFormed = false := by decide
theorem test_pwctr2_long : (Instr.pwctr2 (List.replicate 17 0)).wellFormed = false := by decide
theorem test_pwctr3_long : (Instr.pwctr3 (List.replicate 17 0)).wellFormed = false := by decide
theorem test_pwctr4_long : (Instr.pwctr4 (List.replicate 17 0)).wellFormed = false := by decide
theorem test_pwctr5_long : (Instr.pwctr5 (List.replicate 17 0)).wellFormed = false := by decide
theorem test_vmctr1_long : (Instr.vmctr1 (List.replicate 17 0)).wellFormed = false := by decide
theorem test_gmctrp1_long : (Instr.gmctrp1 (List.replicate 17 0)).wellFormed = false := by decide
theorem test_gmctrn1_long : (Instr.gmctrn1 (List.replicate 17 0)).wellFormed = false := by decide
theorem test_noron_long : (Instr.noron (List.replicate 17 0)).wellFormed = false := by decide
theorem test_dispon_long : (Instr.dispon (List.replicate 17 0)).wellFormed = false := by decide

/-- 00_scope.md R9, one ill-formed configuration per clause. -/
theorem test_ill_formed_configurations :
    [{ panelParams with width := 0 }, { panelParams with width := 65536 }, { panelParams with height := 0 },
      { panelParams with height := 65536 }, { panelParams with spriteWidth := 131 }, { panelParams with clampLo := 774 },
      { panelParams with clampHi := 2048 }, { panelParams with initPayload := List.replicate 19 [] },
      { panelParams with initPayload := List.replicate 20 (List.replicate 17 0) },
      { panelParams with clkHz := 7999999 }].all (fun p => Config.ofParams p == .error .illFormed) = true := by decide

theorem test_well_formed_configuration : Config.ofParams panelParams = .ok panelCfg := by rfl

/-! ## Words written out from the encoding tables (30_encoding.md R125-R129, R132-R134; 44_panel_commands.md) -/

theorem test_decode_send : decode (.request [0x01, 0x36, 0x01, 0xC8]) = .ok (.send 0x36 [0xC8]) := by decide
theorem test_decode_send_bare : decode (.request [0x01, 0x29, 0x00]) = .ok (.send 0x29 []) := by decide
theorem test_decode_init : decode (.request [0x02]) = .ok .init := by decide
theorem test_decode_set_window :
    decode (.request [0x03, 0x01, 0x23, 0x00, 0x00, 0x02, 0x00, 0x00, 0xFF]) = .ok (.setWindow 0x123 0 0x200 0xFF) := by
  decide
theorem test_decode_draw_rect :
    decode (.request [0x04, 0x00, 0x81, 0x00, 0xA1, 0x00, 0x01, 0x00, 0x02, 0xAB, 0xCD])
      = .ok (.drawRect 129 161 1 2 0xABCD) := by decide
theorem test_decode_fill_screen : decode (.request [0x05, 0x12, 0x34]) = .ok (.fillScreen 0x1234) := by decide
theorem test_decode_map : decode (.request [0x06]) = .ok .map := by decide

theorem test_decode_swreset : decode (.frame [(.cmd, 0b00000001)]) = .ok (.swreset []) := by decide
theorem test_decode_slpout : decode (.frame [(.cmd, 0b00010001)]) = .ok (.slpout []) := by decide
theorem test_decode_invoff : decode (.frame [(.cmd, 0b00100000)]) = .ok (.invoff []) := by decide
theorem test_decode_caset :
    decode (.frame [(.cmd, 0b00101010), (.data, 0x00), (.data, 0x0A), (.data, 0x00), (.data, 0x21)])
      = .ok (.caset [0x00, 0x0A, 0x00, 0x21]) := by decide
theorem test_decode_raset :
    decode (.frame [(.cmd, 0b00101011), (.data, 0x00), (.data, 0x14), (.data, 0x00), (.data, 0x1D)])
      = .ok (.raset [0x00, 0x14, 0x00, 0x1D]) := by decide
theorem test_decode_ramwr :
    decode (.frame [(.cmd, 0b00101100), (.data, 0xAB), (.data, 0xCD)]) = .ok (.ramwr [0xAB, 0xCD]) := by decide
theorem test_decode_colmod : decode (.frame [(.cmd, 0b00111010), (.data, 0x05)]) = .ok (.colmod [0x05]) := by decide
theorem test_decode_madctl : decode (.frame [(.cmd, 0b00110110), (.data, 0xC8)]) = .ok (.madctl [0xC8]) := by decide
theorem test_decode_frmctr1 : decode (.frame [(.cmd, 0b10110001), (.data, 1)]) = .ok (.frmctr1 [1]) := by decide
theorem test_decode_frmctr2 : decode (.frame [(.cmd, 0b10110010), (.data, 2)]) = .ok (.frmctr2 [2]) := by decide
theorem test_decode_invctr : decode (.frame [(.cmd, 0b10110100), (.data, 3)]) = .ok (.invctr [3]) := by decide
theorem test_decode_pwctr1 : decode (.frame [(.cmd, 0b11000000), (.data, 4)]) = .ok (.pwctr1 [4]) := by decide
theorem test_decode_pwctr2 : decode (.frame [(.cmd, 0b11000001), (.data, 5)]) = .ok (.pwctr2 [5]) := by decide
theorem test_decode_pwctr3 : decode (.frame [(.cmd, 0b11000010), (.data, 6)]) = .ok (.pwctr3 [6]) := by decide
theorem test_decode_pwctr4 : decode (.frame [(.cmd, 0b11000011), (.data, 7)]) = .ok (.pwctr4 [7]) := by decide
theorem test_decode_pwctr5 : decode (.frame [(.cmd, 0b11000100), (.data, 8)]) = .ok (.pwctr5 [8]) := by decide
theorem test_decode_vmctr1 : decode (.frame [(.cmd, 0b11000101), (.data, 9)]) = .ok (.vmctr1 [9]) := by decide
theorem test_decode_gmctrp1 : decode (.frame [(.cmd, 0b11100000), (.data, 10)]) = .ok (.gmctrp1 [10]) := by decide
theorem test_decode_gmctrn1 : decode (.frame [(.cmd, 0b11100001), (.data, 11)]) = .ok (.gmctrn1 [11]) := by decide
theorem test_decode_noron : decode (.frame [(.cmd, 0b00010011)]) = .ok (.noron []) := by decide
theorem test_decode_dispon : decode (.frame [(.cmd, 0b00101001)]) = .ok (.dispon []) := by decide

/-- What is no instruction is refused, each by its name. -/
theorem test_decode_refusals :
    decode (.request []) = .error .incomplete ∧ decode (.request [0x00]) = .error (.illegalOp 0x00) ∧
    decode (.request [0x07]) = .error (.illegalOp 0x07) ∧ decode (.request [0x01, 0x36, 0x11]) = .error (.sendLength 0x11) ∧
    decode (.request [0x02, 0x06]) = .error .trailing ∧ decode (.frame []) = .error .emptyFrame ∧
    decode (.frame [(.data, 0x2C)]) = .error .noCommandByte ∧
    decode (.frame [(.cmd, 0x2C), (.cmd, 0x00)]) = .error .secondCommandByte ∧
    decode (.frame [(.cmd, 0x00), (.data, 0x2C)]) = .error (.unknownOpcode 0x00) := by decide

/-- The table's one shared word names SEND (log 2); the other words name their rows. -/
theorem test_table_words :
    decodeTableWord 8 0x01 = some (.send 0 []) ∧ decodeTableWord 8 0x03 = some (.setWindow 0 0 0 0) ∧
    decodeTableWord 8 0x2A = some (.caset [0, 0, 0, 0]) ∧ decodeTableWord 8 0xE1 = some (.gmctrn1 []) ∧
    decodeTableWord 8 0x07 = none := by decide

/-! ## Streams (V1-V8) -/

theorem test_stream_v2 : decodeStream [0x02, 0x06] = ⟨[.init, .map], .clean⟩ := by decide
theorem test_stream_v3 : decodeStream [0x01, 0x2C] = ⟨[], .incompleteTail⟩ := by decide
theorem test_stream_v5 : decodeStream [0x07, 0x02] = ⟨[], .fault .illegalOp 0⟩ := by decide
theorem test_stream_v6 : decodeStream [0x01, 0x36, 0x11] = ⟨[], .fault .sendLen 2⟩ := by decide
theorem test_stream_p1 :
    decodeStream [0x02, 0x06, 0x04, 0x00, 0x35, 0x00, 0x00, 0x00, 0x18, 0x00, 0x0A, 0xFF, 0xFF]
      = ⟨[.init, .map, .drawRect 53 0 24 10 0xFFFF], .clean⟩ := by decide

/-! ## The assembler (30_encoding.md R138, R139) -/

theorem test_assemble_send : assembleLine panelCfg "SEND 0x36, 0xC8" = .ok (.send 0x36 [0xC8]) := by decide
theorem test_assemble_erase : assembleLine panelCfg "ERASE 1, 2, 3, 4" = .ok (.drawRect 1 2 3 4 0) := by decide
theorem test_assemble_too_big : assembleLine panelCfg "FILL_SCREEN 65536" = .error (.operandDoesNotFit 65536) := by decide
theorem test_assemble_too_big_byte :
    assembleLine panelCfg "SEND 0x36, 256" = .error (.operandDoesNotFit 256) ∧
    assembleLine panelCfg "CMD 256" = .error (.operandDoesNotFit 256) := by decide
theorem test_assemble_unknown : assembleLine panelCfg "NOP" = .error .unknownMnemonic := by decide

/-! ## Plans (V10-V31) -/

theorem test_send_events :
    planEvents (emits (tx 0x36 [0xC8])) = [.cd .cmd, .cs .act, .byte 0x36, .cd .data, .byte 0xC8, .cs .inact] := by decide

/-- V12: the high bytes are sent. -/
theorem test_window_v12 :
    frameView ((windowEvents 0x123 0 0x200 0xFF).map TraceItem.event) =
      [⟨[(.cmd, 0x2A), (.data, 0x01), (.data, 0x23), (.data, 0x02), (.data, 0x00)], .closed⟩,
        ⟨[(.cmd, 0x2B), (.data, 0x00), (.data, 0x00), (.data, 0x00), (.data, 0xFF)], .closed⟩] := by decide

/-- V25: the last pixel. -/
theorem test_draw_v25 :
    frameView ((planEvents (drawPlan panelCfg 129 161 1 1 0xABCD)).map TraceItem.event) =
      [⟨[(.cmd, 0x2A), (.data, 0x00), (.data, 0x81), (.data, 0x00), (.data, 0x81)], .closed⟩,
        ⟨[(.cmd, 0x2B), (.data, 0x00), (.data, 0xA1), (.data, 0x00), (.data, 0xA1)], .closed⟩,
        ⟨[(.cmd, 0x2C), (.data, 0xAB), (.data, 0xCD)], .closed⟩] := by decide

/-- V21, V22, V23 are out of bounds; V24 and V29 are not. -/
theorem test_bounds :
    rectInBounds panelCfg 107 0 24 10 = false ∧ rectInBounds panelCfg 0 153 24 10 = false ∧
    rectInBounds panelCfg 0xFFFF 0 2 1 = false ∧ rectInBounds panelCfg 106 152 24 10 = true ∧
    rectInBounds panelCfg 130 0 0 1 = true := by decide

/-- V28: a rectangle of no width, under EMIT. -/
theorem test_draw_v28 :
    frameView ((planEvents (drawPlan panelCfg 5 7 0 3 1)).map TraceItem.event) =
      [⟨[(.cmd, 0x2A), (.data, 0x00), (.data, 0x05), (.data, 0x00), (.data, 0x04)], .closed⟩,
        ⟨[(.cmd, 0x2B), (.data, 0x00), (.data, 0x07), (.data, 0x00), (.data, 0x09)], .closed⟩,
        ⟨[(.cmd, 0x2C)], .closed⟩] := by decide

/-- V27: under DROP nothing is planned. -/
theorem test_draw_v27 :
    drawPlan ⟨{ panelParams with zeroArea := .drop }, by decide⟩ 0 0 0 5 1 = [] := by decide

/-- The first step of INIT with a delay (V41): its WAIT, and the mark of its end. -/
theorem test_init_step :
    initStepPlan smallCfg 0 =
      [⟨.emit (.cd .cmd), .plain⟩, ⟨.emit (.cs .act), .plain⟩, ⟨.emit (.byte 0x01), .plain⟩, ⟨.emit (.cd .data), .plain⟩,
        ⟨.emit (.cs .inact), .plain⟩, ⟨.emit (.wait 5), .initStep 0⟩] := by decide

/-! ## The mapper and the clock (95_test_vectors.md) -/

theorem test_map_half_away :
    [0, 250, 252, 253, 258, 381, 382, 500, 512, 643, 771, 772, 774, 2047].map (mapFn panelCfg) =
      [0, 0, 0, 1, 2, 27, 27, 51, 53, 80, 105, 106, 106, 106] := by decide

theorem test_map_half_even :
    [253, 381, 382, 500, 643, 772].map (mapFn ⟨{ panelParams with rounding := .halfEven }, by decide⟩) =
      [1, 26, 27, 51, 80, 106] := by decide

theorem test_sclk_div :
    [8000000, 10000000, 48000000, 50000000].map (fun hz => (hz + (2 * sclkHz - 1)) / (2 * sclkHz)) = [1, 2, 6, 7] ∧
      sclkDiv panelCfg = 1 ∧ waitEdges panelCfg 120 = 960000 := by decide

/-! ## Single steps -/

/-- V4: the first byte 00. -/
theorem test_step_illegal_op :
    (match step { idleState panelCfg with inputs := [offered 0x00] } with
      | .next t => decide (t.fsm = .fault ∧ t.status = 0x0C ∧ t.rqCnt = 0)
      | _ => false) = true := by decide

/-- V6: the LEN byte 17. -/
theorem test_step_send_len :
    (match step { assembling panelCfg [0x01, 0x36] with inputs := [offered 0x11] } with
      | .next t => decide (t.fsm = .fault ∧ t.status = 0x14)
      | _ => false) = true := by decide

/-- V8: an operand byte is held. -/
theorem test_step_operand :
    (match step { assembling panelCfg [0x04, 0x00] with inputs := [offered 0x0A] } with
      | .next t => decide (t.fsm = .assemble ∧ t.rqCnt = 3 ∧ t.status = 0x00)
      | _ => false) = true := by decide

/-- V1: the byte 02 starts INIT. -/
theorem test_step_init :
    (match step { idleState smallCfg with inputs := [offered 0x02] } with
      | .next t => decide (t.fsm = .exec ∧ t.status = 0x01 ∧ t.initIdx = 0)
      | _ => false) = true := by decide

/-- V10e: the first bit of 0xA5 is 1, with SCLK low. -/
theorem test_step_first_bit :
    (match step (executing panelCfg (emits [.byte 0xA5])) with
      | .next t => t.mosi && !t.sclk && decide (t.bitIdx = 7)
      | _ => false) = true := by decide

/-- The sample 700 gives 91 (95_test_vectors.md). -/
theorem test_step_map_result :
    (match step { executing panelCfg [⟨.sample, .plain⟩] with phase := .sampled 700, adcWait := true } with
      | .next t => decide (t.mapPixel = 0x005B ∧ t.mapRaw = 0x2BC ∧ t.mapValid = true ∧ t.adcWait = false)
      | _ => false) = true := by decide

/-- V9: reset leaves FAULT. -/
theorem test_step_reset :
    (match step { idleState panelCfg with fsm := .fault, faultCause := .illegalOp, inputs := [resetInputs] } with
      | .next t => decide (t.fsm = .idle ∧ t.status = 0x00 ∧ t.trace = [.reset, .reset])
      | _ => false) = true := by decide

/-- A reset between frames, by 20_memory.md R100, and by 70_reset_and_hazards.md R332 with 90_conflicts.md C8. -/
theorem test_step_reset_between_frames :
    (match step { readyState panelCfg with inputs := [resetInputs] } with
      | .next t => decide (t.panelSinceReset = Panel.powerOn ∧
          t.panelAcrossResets = { readyPanel with orient := .unknown } ∧ t.trace = [.reset, .reset])
      | _ => false) = true := by decide

/-- A reset inside a frame, by either rule. -/
theorem test_step_reset_in_a_frame :
    (match step { withPanel (shifting panelCfg) readyPanel with inputs := [resetInputs] } with
      | .next t => decide (t.panelSinceReset = forgotten 0 ∧ t.panelAcrossResets = forgotten 0)
      | _ => false) = true := by decide

/-- 93_implementation_defined.md I11: the byte is in the trace as it was sent, and its frame is marked. -/
theorem test_step_lost_byte :
    (match step { shifting panelCfg with phase := .high 0, bitIdx := 0, sclk := true,
                                         inputs := [{ quietInputs with busFault := true }] } with
      | .next t => decide (t.trace = [.reset, .event (.byte 0xA9)] ∧ t.rxFaulty = true ∧ t.lostBytes = [1])
      | _ => false) = true := by decide

/-! ## The panel -/

theorem test_exec_swreset :
    exec (.swreset []) (readyState smallCfg) = .next (withPanel (idleState smallCfg) (forgotten 5)) := by rfl
theorem test_exec_slpout :
    exec (.slpout []) (idleState smallCfg)
      = .next (withPanel (idleState smallCfg) { Panel.powerOn with awake := .yes, quiet := 120 }) := by rfl
theorem test_exec_caset :
    exec (.caset [0x01, 0x23, 0x02, 0x00]) (readyState smallCfg)
      = .next (withPanel (readyState smallCfg) { readyPanel with cols := some (0x123, 0x200) }) := by rfl
theorem test_exec_raset_short :
    exec (.raset [0, 0, 0]) (readyState smallCfg)
      = .next (withPanel (readyState smallCfg) { readyPanel with rows := none }) := by rfl

/-- P3's pixel order: row-major in the window. -/
theorem test_exec_ramwr :
    exec (.ramwr [0x12, 0x34, 0x56, 0x78, 0x9A, 0xBC, 0xDE, 0xF0]) (readyState smallCfg)
      = .next (withPanel (readyState smallCfg)
          { readyPanel with fm := [(0, 7), (1, 0x1234), (2, 0x5678), (4, 0x9ABC), (5, 0xDEF0)] }) := by rfl
theorem test_exec_ramwr_odd :
    exec (.ramwr [0x12]) (readyState smallCfg) = .next (withPanel (idleState smallCfg) (forgotten 0)) := by rfl
theorem test_exec_colmod :
    exec (.colmod [0x05]) (idleState smallCfg)
      = .next (withPanel (idleState smallCfg) { Panel.powerOn with mode16 := .yes }) := by rfl
theorem test_exec_madctl :
    exec (.madctl [0xC8]) (readyState smallCfg)
      = .next (withPanel (readyState smallCfg) { readyPanel with fm := [] }) := by rfl
theorem test_exec_neutral :
    exec (.noron []) (readyState smallCfg) = .next (readyState smallCfg) ∧
    exec (.gmctrp1 [1]) (readyState smallCfg) = .next (withPanel (idleState smallCfg) (forgotten 0)) := ⟨rfl, rfl⟩

/-! ## Witnesses: concrete states and operands that meet the hypotheses of each statement that has some

Where a statement has several clauses, there is a witness for each, at a boundary of its range. -/

theorem witness_DecodeUndoesEncode : (Instr.send 0x36 (List.replicate 16 0xFF)).wellFormed = true := by decide

theorem witness_AcceptedRequestIsItsEncoding : decodeRequest [0x01, 0x29, 0x00] = .ok (.send 0x29 []) := by decide

theorem witness_AcceptedFrameIsItsEncoding : decodeFrame [(.cmd, 0x2C), (.data, 1)] = .ok (.ramwr [1]) := by decide

theorem witness_StreamDecodesItsRequests :
    (∀ i ∈ [Instr.init, .send 0x36 (List.replicate 16 1), .map], isRequest i = true ∧ i.wellFormed = true) ∧
    isRequestOp 0x00 = false ∧ isRequestOp 0x07 = false ∧ 16 < (0x11 : Byte).toNat ∧
    requestBytes (.drawRect 0 10 0 0 0) = [0x04, 0x00, 0x00, 0x00] ++ [0x0A, 0, 0, 0, 0, 0, 0] := by decide

theorem witness_AssemblerRefusesWhatDoesNotFit :
    assemble panelCfg "FILL_SCREEN" [65535] = .ok (.fillScreen 65535) ∧
    "NOP" ∉ ["SEND", "INIT", "SET_WINDOW", "DRAW_RECT", "FILL_SCREEN", "MAP", "CLEAR", "ERASE", "PIXEL", "CMD"] ∧
    (∃ n ∈ [65536], 65535 < n) ∧ 17 < (List.replicate 18 0).length ∧ 255 < 256 ∧
    16 < (List.replicate 17 0).length ∧ 255 ≤ 255 ∧ (∀ n ∈ List.replicate 16 255, n ≤ 255) ∧
    (List.replicate 16 255).length ≤ 16 ∧ 65535 ≤ 65535 := by decide

theorem witness_StepRunsTheCompletedRequest :
    ({ assembling panelCfg [0x05, 0x12] with inputs := [offered 0x34] } : State).inputs = [offered 0x34] ∧
    (offered 0x34).rst = false ∧ (offered 0x34).rqValid = true ∧
    ((assembling panelCfg [0x05, 0x12]).fsm = .idle ∨ (assembling panelCfg [0x05, 0x12]).fsm = .assemble) ∧
    (Instr.fillScreen 0x1234).wellFormed = true ∧
    encode (.fillScreen 0x1234) = .request ((assembling panelCfg [0x05, 0x12]).held ++ [(offered 0x34).rqData]) := by
  decide

/-- The frame `[(0,29)]` at its closing edge. -/
def closing (c : Config) : State :=
  { executing c [⟨.emit (.cs .inact), .plain⟩] with
    phase := .gap 0, cs := c.csActive, rx := [(.cmd, 0x29)], inputs := [quietInputs] }

theorem witness_StepRunsTheClosedFrame :
    (closing panelCfg).inputs = [quietInputs] ∧ quietInputs.rst = false ∧ (closing panelCfg).fsm = .exec ∧
    (closing panelCfg).plan = [⟨.emit (.cs .inact), .plain⟩] ∧ (closing panelCfg).phase = .gap 0 ∧
    (closing panelCfg).cs = (closing panelCfg).cfg.csActive ∧
    (closing panelCfg).rxFaulty = false ∧ encode (.dispon []) = .frame (closing panelCfg).openFrame ∧
    ({ closing panelCfg with rxFaulty := true } : State).rxFaulty = true ∧
    decodeFrame ({ closing panelCfg with rx := [(.cmd, 0x00)] } : State).openFrame = .error (.unknownOpcode 0x00) := by
  decide

/-- A block between requests is coherent, whatever inputs are to come. -/
theorem idle_coherent (c : Config) (inputs : List Inputs) : State.Coherent { idleState c with inputs := inputs } where
  no_plan := fun _ => ⟨rfl, rfl⟩
  assembly := ⟨fun _ => rfl, fun h => (by cases h), fun h => (by cases h), fun h => (by cases h)⟩
  cause := by constructor <;> intro h <;> [exact absurd rfl h; cases h]
  bus := by simp [State.BusOk, State.busState, State.csAsserted, idleState, State.openFrame, State.reset, BusState.run]
  phase := ⟨rfl, rfl⟩
  init_index := .inl rfl
  pixel_count := rfl
  streams := trivial
  mapped := fun h => (by cases h)
  memory := fun rule => by cases rule <;> exact ⟨rfl, fun _ h => absurd h List.not_mem_nil⟩

theorem witness_UnfinishedRequestIsHeld :
    State.Coherent { idleState panelCfg with inputs := [offered 0x01] } ∧ (offered 0x01).rst = false ∧
    (offered 0x01).rqValid = true ∧ (idleState panelCfg).fsm = .idle ∧
    spellingFault ((idleState panelCfg).held ++ [(offered 0x01).rqData]) = none ∧
    requestLength ((idleState panelCfg).held ++ [(offered 0x01).rqData]) ≠ some ((idleState panelCfg).rqCnt.toNat + 1) ∧
    (assembling panelCfg [0x01]).fsm = .assemble ∧ (assembling panelCfg [0x01]).inputNow.rst = false ∧
    (assembling panelCfg [0x01]).inputNow.rqValid = false :=
  ⟨idle_coherent _ _, by decide⟩

theorem witness_MisspelledRequestFaults :
    (offered 0x07).rst = false ∧ (offered 0x07).rqValid = true ∧ (offered 0x00).rqData.toNat = 0 ∧
    6 < (offered 0x07).rqData.toNat ∧ (idleState panelCfg).fsm = .idle ∧ (idleState panelCfg).rqCnt = 0 ∧
    (assembling panelCfg [0x01, 0x36]).fsm = .assemble ∧ (assembling panelCfg [0x01, 0x36]).rqCnt = 2 ∧
    (assembling panelCfg [0x01, 0x36]).rq[0] = 0x01 ∧ 16 < (offered 0x11).rqData.toNat := by decide

theorem witness_FaultStateDiscardsBytes :
    ({ idleState panelCfg with fsm := .fault, inputs := [offered 0x02] } : State).fsm = .fault ∧
    ({ idleState panelCfg with fsm := .fault, inputs := [offered 0x02] } : State).inputNow.rst = false := by decide

theorem witness_ResetEdgeRestoresTheBlock :
    ({ shifting panelCfg with inputs := [resetInputs] } : State).inputNow.rst = true ∧
    (shifting panelCfg).rstPrev = false ∧ State.reset.rstPrev = true := by decide

theorem witness_ResetCutsTheFrameShort :
    ({ shifting panelCfg with inputs := [resetInputs] } : State).inputNow.rst = true ∧
    (shifting panelCfg).cs = (shifting panelCfg).cfg.csActive ∧
    ({ readyState panelCfg with inputs := [resetInputs] } : State).inputNow.rst = true ∧
    (readyState panelCfg).cs ≠ (readyState panelCfg).cfg.csActive := by decide

theorem witness_NoByteTransfersWhileExecuting :
    ({ shifting panelCfg with inputs := [offered 0x02] } : State).fsm = .exec ∧
    ({ shifting panelCfg with inputs := [offered 0x02] } : State).inputs = [offered 0x02] := by decide

/-- V24: the rectangle that touches the right and bottom edges. -/
theorem witness_DrawRectPlansWindowAndStream :
    (106 : Word).toNat + (24 : Word).toNat ≤ (idleState panelCfg).cfg.width ∧
    (152 : Word).toNat + (10 : Word).toNat ≤ (idleState panelCfg).cfg.height ∧ 1 ≤ (24 : Word).toNat ∧
    1 ≤ (10 : Word).toNat ∧ (129 : Word).toNat = (106 : Word).toNat + (24 : Word).toNat - 1 ∧
    (161 : Word).toNat = (152 : Word).toNat + (10 : Word).toNat - 1 := by decide

/-- V21, V22. -/
theorem witness_OutOfBoundsDrawRectDoesNothing :
    (idleState panelCfg).cfg.width < (107 : Word).toNat + (24 : Word).toNat ∧
    (idleState panelCfg).cfg.height < (153 : Word).toNat + (10 : Word).toNat ∧
    (idleState panelCfg).inputNow.rst = false := by decide

/-- V29 under EMIT, V27 under DROP. -/
theorem witness_ZeroAreaFollowsThePolicy :
    (130 : Word).toNat + (0 : Word).toNat ≤ panelCfg.width ∧ (0 : Word).toNat + (1 : Word).toNat ≤ panelCfg.height ∧
    ((0 : Word) = 0 ∨ (1 : Word) = 0) ∧ panelCfg.zeroArea = .emit ∧
    (idleState ⟨{ panelParams with zeroArea := .drop }, by decide⟩).cfg.zeroArea = .drop := by decide

theorem witness_FillScreenIsDrawRectOfTheScreen :
    (130 : Word).toNat = panelCfg.width ∧ (162 : Word).toNat = panelCfg.height ∧ (129 : Word).toNat = panelCfg.width - 1 ∧
    (161 : Word).toNat = panelCfg.height - 1 := by decide

theorem witness_SleepAndResetCommands : readyPanel.quiet = 0 := rfl

theorem witness_WindowCommandsSetTheWindow :
    readyPanel.quiet = 0 ∧ ([1, 2, 3] : List Byte).length ≠ 4 ∧
    ([0xFF, 0xFF, 0, 0] : List Byte) = [0xFF, 0xFF, 0, 0] := by decide

/-- As many pixels as the window holds. -/
theorem witness_RamwrFillsTheWindowRowByRow :
    readyPanel.Ready ∧ readyPanel.cols = some (1, 2) ∧
    readyPanel.rows = some (0, 1) ∧ (1 : Word).toNat ≤ (2 : Word).toNat ∧
    (2 : Word).toNat < (readyState smallCfg).cfg.width ∧ (0 : Word).toNat ≤ (1 : Word).toNat ∧
    (1 : Word).toNat < (readyState smallCfg).cfg.height ∧ (List.replicate 8 (0 : Byte)).length % 2 = 0 ∧
    (List.replicate 8 (0 : Byte)).length / 2 ≤
      ((2 : Word).toNat - (1 : Word).toNat + 1) * ((1 : Word).toNat - (0 : Word).toNat + 1) := by decide

/-- Each way a stream can be ill formed. -/
theorem witness_IllFormedStreamHavocs :
    readyPanel.quiet = 0 ∧ Panel.powerOn.quiet = 0 ∧ Panel.powerOn.awake ≠ .yes ∧
    Panel.powerOn.mode16 ≠ .yes ∧ Panel.powerOn.orient ≠ .yes ∧
    Panel.powerOn.cols = none ∧ Panel.powerOn.rows = none ∧ ([1] : List Byte).length % 2 = 1 ∧
    readyPanel.cols = some (1, 2) ∧ readyPanel.rows = some (0, 1) ∧
    ((2 : Word).toNat - (1 : Word).toNat + 1) * ((1 : Word).toNat - (0 : Word).toNat + 1)
      < (List.replicate 10 (0 : Byte)).length / 2 ∧
    (1 : Word).toNat < (2 : Word).toNat ∧ smallCfg.width ≤ (3 : Word).toNat ∧ smallCfg.height ≤ (2 : Word).toNat := by decide

theorem witness_ModeCommandsCompareTheirPayload :
    readyPanel.quiet = 0 ∧ panelCfg.initPayload[12]? = some [0xC8] ∧
    panelCfg.initPayload[13]? = some [0x05] := by decide

theorem witness_NeutralCommandsChangeNothing :
    readyPanel.quiet = 0 ∧ (Instr.dispon [], 19) ∈ neutralCommands [] ∧
    (Instr.dispon [1], 19) ∈ neutralCommands [1] ∧ panelCfg.initPayload[19]? = some [] := by decide

theorem witness_QuietTimeTurnsEveryCommandAway :
    0 < (forgotten 1).quiet ∧ Instr.ramwr [1, 2] ∈ panelCommands [1, 2] := by decide

theorem witness_FrameMemoryReadsWhatWasWritten : FrameMemory.wf [(0, 7), (3, 8)] = true := by decide

theorem witness_MapFnSaturates : 250 ≤ panelCfg.clampLo ∧ 249 ≤ panelCfg.clampLo ∧ panelCfg.clampHi ≤ 774 ∧
    panelCfg.clampHi ≤ 2047 := by decide

theorem witness_MapFnIsMonotone :
    381 ≤ 382 ∧ 106 ≤ 106 ∧ panelCfg.width = 130 ∧ panelCfg.spriteWidth = 24 ∧ panelCfg.clampLo = 250 ∧
    panelCfg.clampHi = 774 ∧ mapFn panelCfg 257 = 1 ∧ mapFn panelCfg 504 = 51 ∧ mapFn panelCfg 1024 = 106 := by decide

/-- The tie at 381, and at 643. -/
theorem witness_MapFnRoundsToNearest :
    131 = clamp panelCfg 381 - panelCfg.clampLo ∧ 27 = mapFn panelCfg 381 ∧ 106 = panelCfg.width - panelCfg.spriteWidth ∧
    524 = panelCfg.clampHi - panelCfg.clampLo ∧ panelCfg.rounding = .halfAway := by decide

theorem witness_TiesOfTheReferenceConstants :
    panelCfg.width = 130 ∧ panelCfg.spriteWidth = 24 ∧ panelCfg.clampLo = 250 ∧ panelCfg.clampHi = 774 := by decide

/-- A sample in progress with one waiting edge. -/
theorem witness_SampleWritesTheMapResult :
    (executing panelCfg [⟨.sample, .plain⟩]).fsm = .exec ∧ (executing panelCfg [⟨.sample, .plain⟩]).phase = .ready ∧
    ({ executing panelCfg [⟨.sample, .plain⟩] with inputs := [quietInputs, quietInputs, answered 700, quietInputs] } :
      State).inputs = quietInputs :: ([quietInputs] ++ answered 700 :: quietInputs :: []) ∧
    quietInputs.rst = false ∧ (answered 700).rst = false ∧
    (∀ w ∈ [quietInputs], w.rst = false ∧ w.adcAck = false) ∧ (answered 700).adcAck = true := by decide

theorem witness_SilentAdcHoldsTheBlock :
    (executing panelCfg [⟨.sample, .plain⟩]).fsm = .exec ∧ (executing panelCfg [⟨.sample, .plain⟩]).phase = .ready ∧
    ∀ inp ∈ (executing panelCfg [⟨.sample, .plain⟩]).inputs.take 3, inp.rst = false ∧ inp.adcAck = false := by decide

theorem witness_EmptyPlanLeadsToIdle :
    (executing panelCfg []).fsm = .exec ∧ (executing panelCfg []).plan = [] ∧
    (executing panelCfg []).inputNow.rst = false ∧
    (executing panelCfg [⟨.setInitDone false, .plain⟩]).fsm = .exec ∧
    (executing panelCfg [⟨.setInitDone false, .plain⟩]).plan = [⟨.setInitDone false, .plain⟩] ∧
    (executing panelCfg [⟨.setInitDone false, .plain⟩]).inputNow.rst = false := by decide

/-- A transaction of a command byte alone. -/
theorem witness_PlanRunsToItsEnd :
    (executing panelCfg (emits (tx 0x29 []))).fsm = .exec ∧ (executing panelCfg (emits (tx 0x29 []))).phase = .ready ∧
    sampleFree (emits (tx 0x29 [])) = true ∧ 25 = planEdges panelCfg (emits (tx 0x29 [])) ∧
    (executing panelCfg (emits (tx 0x29 []))).NoReset 25 := by decide

theorem witness_RequestRunsToCompletion :
    isRequest (.send 0x29 []) = true ∧ Instr.send 0x29 [] ≠ .map ∧ (Instr.send 0x29 []).wellFormed = true ∧
    (idleState panelCfg).Resting ∧ ∀ n, ((idleState panelCfg).start (emits (tx 0x29 []))).NoReset n :=
  ⟨by decide, by decide, by decide, ⟨idle_coherent _ _, rfl⟩, fun n => by simp [State.NoReset, idleState, State.reset]⟩

theorem witness_ByteIsShiftedMsbFirst :
    (executing panelCfg (emits [.byte 0xA5])).fsm = .exec ∧ (executing panelCfg (emits [.byte 0xA5])).phase = .ready ∧
    (executing panelCfg (emits [.byte 0xA5])).plan = [⟨.emit (.byte 0xA5), .plain⟩] ∧ 1 = sclkDiv panelCfg ∧
    (executing panelCfg (emits [.byte 0xA5])).NoReset 17 ∧ 7 < 8 ∧ 0 < 1 ∧
    ({ executing panelCfg (emits [.byte 0xA5]) with
        inputs := List.replicate 16 quietInputs ++ [{ quietInputs with busFault := true }] } : State).NoReset 17 := by
  decide

theorem witness_LineChangeKeepsItsDistance :
    (executing panelCfg (emits [.cs .act])).fsm = .exec ∧ (executing panelCfg (emits [.cs .act])).phase = .ready ∧
    (executing panelCfg (emits [.cs .act])).plan = [⟨.emit (.cs .act), .plain⟩] ∧
    ((∃ a, Event.cs .act = .cs a) ∨ ∃ l, Event.cs .act = .cd l) ∧ ((∃ a, Event.cd .data = .cs a) ∨ ∃ l, Event.cd .data = .cd l) ∧
    (executing panelCfg (emits [.cs .act])).NoReset (sclkDiv panelCfg + 1) :=
  ⟨rfl, rfl, rfl, .inl ⟨_, rfl⟩, .inr ⟨_, rfl⟩, by decide⟩

theorem witness_WaitLastsItsTime :
    (executing panelCfg (emits [.wait 1])).fsm = .exec ∧ (executing panelCfg (emits [.wait 1])).phase = .ready ∧
    (executing panelCfg (emits [.wait 1])).plan = [⟨.emit (.wait 1), .plain⟩] ∧ 1 * panelCfg.clkHz ≤ 1000 * 8000 ∧
    1000 * 8000 < 1 * panelCfg.clkHz + 1000 ∧ (executing panelCfg (emits [.wait 1])).NoReset 8001 :=
  ⟨rfl, rfl, rfl, by decide, by decide, fun _ h => by simp [executing, idleState, State.reset, emits] at h⟩

theorem witness_SerialClockIsAtMostFourMegahertz :
    panelCfg.clkHz ≤ 4000000 * (2 * 1) ∧ panelCfg.clkHz % 8000000 = 0 ∧
    Config.ofParams { panelParams with clkHz := 8000001 } ≠ .error .illFormed ∧ 8000001 % 8000000 ≠ 0 := by decide

/-- A byte in progress inside a transaction is coherent. -/
theorem shifting_coherent (c : Config) : (shifting c).Coherent where
  no_plan := fun h => absurd rfl h
  assembly := ⟨fun _ => rfl, fun h => (by cases h), fun h => (by cases h), fun h => (by cases h)⟩
  cause := by constructor <;> intro h <;> [exact absurd rfl h; cases h]
  bus := by
    simp [State.BusOk, State.busState, State.csAsserted, shifting, executing, idleState, State.openFrame, State.reset,
      emits, BusState.run, BusState.next]
  phase := ⟨rfl, rfl, ⟨_, _, _, rfl, rfl⟩, show true = (0xA9#8).getLsbD 7 by decide⟩
  init_index := .inl rfl
  pixel_count := rfl
  streams := trivial
  mapped := fun h => (by cases h)
  memory := fun rule => by cases rule <;> exact ⟨rfl, fun _ h => absurd h List.not_mem_nil⟩

/-- A change of CD in progress is coherent. -/
theorem turningCd_coherent (c : Config) : (turningCd c).Coherent where
  no_plan := fun h => absurd rfl h
  assembly := ⟨fun _ => rfl, fun h => (by cases h), fun h => (by cases h), fun h => (by cases h)⟩
  cause := by constructor <;> intro h <;> [exact absurd rfl h; cases h]
  bus := by
    simp [State.BusOk, State.busState, State.csAsserted, turningCd, executing, idleState, State.openFrame, State.reset,
      emits, BusState.run, BusState.next]
  phase := ⟨rfl, rfl, _, _, _, rfl, .inr ⟨_, rfl⟩⟩
  init_index := .inl rfl
  pixel_count := rfl
  streams := trivial
  mapped := fun h => (by cases h)
  memory := fun rule => by cases rule <;> exact ⟨rfl, fun _ h => absurd h List.not_mem_nil⟩

/-- One edge raises SCLK, another lowers CD. -/
theorem witness_LinesMoveOnlyWhileSclkIsLow :
    (shifting panelCfg).Coherent ∧ (shifting panelCfg).inputNow.rst = false ∧
    (∃ t, step (shifting panelCfg) = .next t ∧ t.sclk = true) ∧
    (turningCd panelCfg).Coherent ∧ (turningCd panelCfg).inputNow.rst = false ∧
    ∃ t, step (turningCd panelCfg) = .next t ∧ t.cd ≠ (turningCd panelCfg).cd :=
  ⟨shifting_coherent _, rfl, ⟨_, rfl, rfl⟩, turningCd_coherent _, rfl, ⟨_, rfl, by decide⟩⟩

/-- Also the witness of `StepKeepsTheConfiguration` and `CoherentStateNeverStops`. -/
theorem witness_StepKeepsCoherence :
    (shifting panelCfg).Coherent ∧ ∃ t, step (shifting panelCfg) = .next t := ⟨shifting_coherent _, ⟨_, rfl⟩⟩

theorem witness_CoherentStateNeverStops : (turningCd panelCfg).Coherent := turningCd_coherent _

theorem witness_StepKeepsTheConfiguration : ∃ t, step (shifting panelCfg) = .next t := ⟨_, rfl⟩

/-- An edge that appends nothing and one that appends an event. -/
theorem witness_TraceOnlyGrows :
    (∃ t, step (shifting panelCfg) = .next t ∧ t.log = (shifting panelCfg).log) ∧
    ∃ t, step (turningCd panelCfg) = .next t ∧ t.log = .event (.cd .cmd) :: (turningCd panelCfg).log :=
  ⟨⟨_, rfl, rfl⟩, ⟨_, rfl, rfl⟩⟩

/-- Each flag changed by its writer. -/
theorem witness_FlagsChangeOnlyByTheirWriters :
    (∃ t, step (executing panelCfg [⟨.setInitDone true, .plain⟩]) = .next t ∧ t.initDone ≠ false) ∧
    (∃ t, step { executing panelCfg [⟨.sample, .plain⟩] with phase := .sampled 0, adcWait := true } = .next t ∧
      t.mapValid ≠ false) ∧
    (∃ t, step { idleState panelCfg with inputs := [offered 0x00] } = .next t ∧ t.faultCause ≠ .none) ∧
    (offered 0x00).rst = false ∧ quietInputs.rst = false :=
  ⟨⟨_, rfl, by decide⟩, ⟨_, rfl, by decide⟩, ⟨_, rfl, by decide⟩, rfl, rfl⟩

theorem witness_PanelFollowsTheTrace :
    (idleState panelCfg).PanelAgrees ∧ ∃ t, step (idleState panelCfg) = .next t :=
  ⟨⟨fun rule => by cases rule <;> rfl, fun h => (by cases h), fun _ h => absurd h List.not_mem_nil⟩, ⟨_, rfl⟩⟩

/-- The last two frames of INIT on the small screen (V40's frames 21 and 22, with 6 pixels). -/
theorem witness_InitTraceHasItsShape :
    ∃ es frames, es = planEvents (initPlan smallCfg) ∧ frames = frameView (es.map TraceItem.event) ∧
      frames.drop 21 = [⟨[(.cmd, 0x2B), (.data, 0), (.data, 0), (.data, 0), (.data, 1)], .closed⟩,
        ⟨(.cmd, 0x2C) :: List.replicate 12 (.data, 0), .closed⟩] := ⟨_, _, rfl, rfl, by decide⟩

/-- Delays that just suffice; then a SWRESET and a SLPOUT with data, and delays that fall short by 1 ms. -/
theorem witness_InitLeavesThePanelKnown :
    smallCfg.tSwresetMs ≤ smallCfg.delaySwresetMs ∧ smallCfg.tSlpoutMs ≤ smallCfg.delaySlpoutMs ∧
    smallCfg.initPayload[1]? = some [] ∧ (2 : Word).toNat = smallCfg.width - 1 ∧ (1 : Word).toNat = smallCfg.height - 1 ∧
    (Config.mk { smallParams with initPayload := [1] :: smallParams.initPayload.tail } (by decide)).initPayload[0]?
      ≠ some [] ∧
    (Config.mk { smallParams with initPayload := smallParams.initPayload.set 1 [1] } (by decide)).initPayload[1]?
      ≠ some [] ∧
    (Config.mk { smallParams with delaySlpoutMs := 119 } (by decide)).delaySlpoutMs < smallCfg.tSlpoutMs ∧
    readyPanel.quiet = 0 ∧ smallCfg.initPayload[0]? = some [] ∧
    (Config.mk { smallParams with delaySwresetMs := 4 } (by decide)).delaySwresetMs < smallCfg.tSwresetMs := by decide

/-- A frame received intact and the same frame with a lost byte, before and after its end. -/
theorem witness_BusFaultsAreUnobservable :
    (closing panelCfg).blockSide =
      (withPanel { closing panelCfg with rxFaulty := true, lostBytes := [0] } readyPanel).blockSide ∧
    ∃ t, step (closing panelCfg) = .next t := ⟨by rfl, ⟨_, rfl⟩⟩

/-- The rectangle in the last column and row. -/
theorem witness_DrawRectPaintsExactlyItsRectangle :
    readyPanel.Ready ∧ (2 : Word).toNat + (1 : Word).toNat ≤ smallCfg.width ∧
    (1 : Word).toNat + (1 : Word).toNat ≤ smallCfg.height ∧ 1 ≤ (1 : Word).toNat ∧
    (panelAfter smallCfg readyPanel (planEvents (drawPlan smallCfg 2 1 1 1 0xABCD))).fm = [(0, 7), (5, 0xABCD)] := by decide

end Sys2Proof.Tests
end

section
/-! The frame view of one transaction (00_scope.md R16, 30_encoding.md R132). -/

namespace Sys2Proof.Machine

/-- The bytes of a data phase join the frame in progress, each with the level of CD in force. -/
theorem frameViewFrom_bytes (cd : CdLevel) (rest : List TraceItem) (p : List Byte) (held : List FrameByte) :
    frameViewFrom cd (some held) ((p.map Event.byte).map TraceItem.event ++ rest) =
      frameViewFrom cd (some (held ++ p.map (fun b => (cd, b)))) rest := by
  induction p generalizing held with
  | nil => simp
  | cons b p ih => simpa [frameViewFrom] using ih (held ++ [(cd, b)])

/-- Settles O56: the transaction's first four events open the frame with its opcode, its payload joins by
`frameViewFrom_bytes`, and its last event closes the frame. -/
theorem transactionIsOneFrame : Obligations.TransactionIsOneFrame := by
  intro o p rest
  have payload := frameViewFrom_bytes .data (.event (.cs .inact) :: rest) p [(.cmd, o)]
  calc frameViewFrom .data none ((tx o p).map TraceItem.event ++ rest)
      = frameViewFrom .data (some [(.cmd, o)])
          ((p.map Event.byte).map TraceItem.event ++ .event (.cs .inact) :: rest) := by
        simp [tx, txOpening, frameViewFrom]
    _ = frameViewFrom .data (some ((.cmd, o) :: p.map (fun b => (.data, b)))) (.event (.cs .inact) :: rest) := payload
    _ = ⟨(.cmd, o) :: p.map (fun b => (.data, b)), .closed⟩ :: frameViewFrom .data none rest := rfl

end Sys2Proof.Machine
end

section
/-! The panel follows the trace. The view of the panel that a state holds moves as `PanelView.see` does at every entry of
the trace, and at every edge that appends none it stays. -/

namespace Sys2Proof.Machine

/-! ## The view a state holds -/

/-- What the state holds of the panel model that follows `rule`: the panel view that the trace must give
(`panelAgrees_iff`). -/
def State.seen (s : State) (rule : ResetRule) : PanelView where
  cd := cdOfBit s.cd
  held := if s.csAsserted then some s.openFrame else none
  faulty := s.rxFaulty
  panel := s.panelBy rule

/-- A reset entry changes nothing of a view exactly if that is as a reset leaves it. -/
theorem see_reset_eq_self {rule : ResetRule} {cfg : Config} {intact : Bool} {v : PanelView} :
    v.see rule cfg intact .reset = v ↔
      v.held = none ∧ v.cd = .data ∧ v.faulty = false ∧ v.panel.blockReset rule false = v.panel := by
  obtain ⟨cd, held, faulty, panel⟩ := v
  cases held <;> simp [PanelView.see, eq_comm]

/-- A second reset entry changes nothing. -/
theorem see_reset_reset (rule : ResetRule) (cfg : Config) (a b : Bool) (v : PanelView) :
    (v.see rule cfg a .reset).see rule cfg b .reset = v.see rule cfg a .reset :=
  see_reset_eq_self.2 ⟨rfl, rfl, rfl, blockReset_blockReset rule _ _⟩

theorem seen_held_eq_none {s : State} {rule : ResetRule} : (s.seen rule).held = none ↔ s.csAsserted = false := by
  cases h : s.csAsserted <;> simp [State.seen, h]

theorem seen_cd_eq_data {s : State} {rule : ResetRule} : (s.seen rule).cd = .data ↔ s.cd = true := by
  cases h : s.cd <;> simp [State.seen, cdOfBit, h]

/-- The agreement in terms of the view the state holds. -/
theorem panelAgrees_iff {s : State} : s.PanelAgrees ↔
    (∀ rule, panelView rule s.cfg s.lostBytes s.log = s.seen rule) ∧
    (s.rstPrev = true → ∀ rule, (s.seen rule).see rule s.cfg true .reset = s.seen rule) ∧
    ∀ n ∈ s.lostBytes, n < s.log.length := by
  simp only [see_reset_eq_self, seen_held_eq_none, seen_cd_eq_data]
  constructor
  · rintro ⟨view, hreset, past⟩
    refine ⟨view, fun hr rule => ?_, past⟩
    obtain ⟨hcs, hcd, hfaulty, hpanel⟩ := hreset hr
    exact ⟨hcs, hcd, hfaulty, hpanel rule⟩
  · rintro ⟨view, hreset, past⟩
    refine ⟨view, fun hr => ?_, past⟩
    obtain ⟨hcs, hcd, hfaulty, -⟩ := hreset hr .keeps
    refine ⟨hcs, hcd, hfaulty, fun rule => ?_⟩
    obtain ⟨-, -, -, hpanel⟩ := hreset hr rule
    exact hpanel

/-! ## What each event does to the view -/

section
variable (s : State) (rule : ResetRule) (intact : Bool)

theorem seen_driveCd (l : CdLevel) :
    (s.driveCd l).seen rule = (s.seen rule).see rule s.cfg intact (.event (.cd l)) := by
  cases l <;> cases rule <;> rfl

theorem seen_driveCs_act :
    (s.driveCs .act).seen rule = (s.seen rule).see rule s.cfg intact (.event (.cs .act)) := by
  cases rule <;> simp [State.seen, State.csAsserted, State.openFrame, CsLevel.bit, PanelView.see]

/-- `CS(INACT)` where no frame is open. -/
theorem seen_driveCs_inact (h : s.csAsserted = false) :
    (s.driveCs .inact).seen rule = (s.seen rule).see rule s.cfg intact (.event (.cs .inact)) := by
  have held : (s.seen rule).held = none := seen_held_eq_none.2 h
  simp only [PanelView.see, held]
  cases rule <;> simp [State.seen, State.csAsserted, CsLevel.bit]

/-- `CS(INACT)` where a frame is open whose effect is `f`. -/
theorem seen_closeFrame {f : Panel → Panel} (h : s.csAsserted = true)
    (hf : ∀ p, Panel.frame s.cfg s.rxFaulty s.openFrame p = p.accept f) :
    ((s.driveCs .inact).panelFrame f).seen rule = (s.seen rule).see rule s.cfg intact (.event (.cs .inact)) := by
  have held : (s.seen rule).held = some s.openFrame := by simp [State.seen, h]
  simp only [PanelView.see, held]
  cases rule <;> simp [State.seen, State.csAsserted, CsLevel.bit, hf]

theorem seen_byteDone (b : Byte) (faulty : Bool) :
    (s.byteDone b faulty).seen rule = (s.seen rule).see rule s.cfg (!faulty) (.event (.byte b)) := by
  have hcs : (s.byteDone b faulty).csAsserted = s.csAsserted := rfl
  cases h : s.csAsserted <;> cases rule <;> simp [State.seen, hcs, h, State.openFrame, PanelView.see]

theorem seen_waitDone (ms : Nat) :
    (s.waitDone ms).seen rule = (s.seen rule).see rule s.cfg intact (.event (.wait ms)) := by
  cases rule <;> rfl

theorem seen_resetEdge : s.resetEdge.seen rule = (s.seen rule).see rule s.cfg intact .reset := by
  have hcs : s.resetEdge.csAsserted = false := by simp [State.csAsserted]
  cases h : s.csAsserted <;> simp [State.seen, hcs, h, PanelView.see, cdOfBit]

end

/-! ## What keeps the agreement -/

/-- `t` agrees with `s` on what the agreement of panel and trace speaks of; `rst` may have been released. -/
structure SamePanelSide (s t : State) : Prop where
  cfg : t.cfg = s.cfg
  log : t.log = s.log
  lostBytes : t.lostBytes = s.lostBytes
  seen : ∀ rule, t.seen rule = s.seen rule
  rstPrev : t.rstPrev = true → s.rstPrev = true

theorem samePanelSide_finish (s : State) (m : Mark) : SamePanelSide s (s.finish m) := by
  cases m <;> exact ⟨rfl, rfl, rfl, fun _ => rfl, id⟩

theorem panelAgrees_of_same {s t : State} (h : s.PanelAgrees) (same : SamePanelSide s t) : t.PanelAgrees := by
  obtain ⟨view, hreset, past⟩ := panelAgrees_iff.1 h
  obtain ⟨hcfg, hlog, hlost, hseen, hrst⟩ := same
  rw [panelAgrees_iff]
  simp only [hcfg, hlog, hlost, hseen]
  exact ⟨view, fun hr => hreset (hrst hr), past⟩

/-- One more entry of the trace keeps the agreement where the view moves as `PanelView.see` says. `faulty` says whether
the entry is a byte that the bus lost; its place is then the end of the trace so far. -/
theorem panelAgrees_of_entry {s t : State} {x : TraceItem} {faulty : Bool} (h : s.PanelAgrees)
    (hcfg : t.cfg = s.cfg) (hlog : t.log = x :: s.log)
    (hlost : t.lostBytes = if faulty then s.log.length :: s.lostBytes else s.lostBytes)
    (hseen : ∀ rule, t.seen rule = (s.seen rule).see rule s.cfg (!faulty) x)
    (hreset : t.rstPrev = true → ∀ rule, (t.seen rule).see rule t.cfg true .reset = t.seen rule) : t.PanelAgrees := by
  obtain ⟨view, -, past⟩ := panelAgrees_iff.1 h
  have here : t.lostBytes.contains s.log.length = faulty := by
    have hnot : s.log.length ∉ s.lostBytes := fun hm => Nat.lt_irrefl _ (past _ hm)
    cases faulty <;> simp [hlost, hnot]
  have before : ∀ rule, panelView rule s.cfg t.lostBytes s.log = s.seen rule := by
    intro rule
    rw [hlost, ← view rule]
    cases faulty
    · rfl
    · exact panelView_lost_past rule s.cfg s.lostBytes le_rfl
  refine panelAgrees_iff.2 ⟨fun rule => ?_, hreset, fun n hn => ?_⟩
  · rw [hcfg, hlog, hseen, panelView, here, before]
  · rw [hlog, List.length_cons]
    rw [hlost] at hn
    have : n = s.log.length ∨ n ∈ s.lostBytes := by
      cases faulty
      · exact .inr hn
      · exact List.mem_cons.1 hn
    rcases this with rfl | hn
    · exact Nat.lt_succ_self _
    · exact Nat.lt_succ_of_lt (past n hn)

/-- An event other than a lost byte keeps the agreement, while `rst` is not held. -/
theorem panelAgrees_of_event {s t : State} {x : TraceItem} (h : s.PanelAgrees) (hr : t.rstPrev = false)
    (hcfg : t.cfg = s.cfg) (hlog : t.log = x :: s.log) (hlost : t.lostBytes = s.lostBytes)
    (hseen : ∀ rule, t.seen rule = (s.seen rule).see rule s.cfg true x) : t.PanelAgrees :=
  panelAgrees_of_entry (faulty := false) h hcfg hlog hlost hseen (by simp [hr])

/-- A reset edge keeps the agreement: its RESET entry is the view's reset, and where `rst` is held on without an entry the
view is as a reset leaves it. -/
theorem panelAgrees_resetEdge {s : State} (h : s.PanelAgrees) : s.resetEdge.PanelAgrees := by
  have hreset : ∀ rule, (s.resetEdge.seen rule).see rule s.cfg true .reset = s.resetEdge.seen rule := by
    intro rule
    rw [seen_resetEdge s rule true, see_reset_reset]
  cases hr : s.rstPrev with
  | false =>
    exact panelAgrees_of_entry (faulty := false) h rfl (by simp [hr]) rfl
      (fun rule => seen_resetEdge s rule true) (fun _ => hreset)
  | true =>
    obtain ⟨-, held, -⟩ := panelAgrees_iff.1 h
    refine panelAgrees_of_same h ⟨rfl, by simp [hr], rfl, fun rule => ?_, fun _ => hr⟩
    rw [seen_resetEdge s rule true, held hr rule]

/-! ## The sequencer's edges -/

/-- The request decoder answers with requests only: each of its branches that succeeds names one. -/
theorem encode_of_decodeRequest {bs : List Byte} {i : Instr} (h : decodeRequest bs = .ok i) :
    ∃ bs', encode i = .request bs' := by
  unfold decodeRequest decodeSend decodeBare decodeSetWindow decodeDrawRect decodeFillScreen at h
  repeat' split at h
  all_goals cases h
  all_goals exact ⟨_, rfl⟩

/-- A request that starts to execute keeps the agreement. -/
theorem panelAgrees_exec_request {s t : State} {i : Instr} {bs : List Byte} (h : s.PanelAgrees)
    (hd : decodeRequest bs = .ok i) (ht : exec i s = .next t) : t.PanelAgrees := by
  obtain ⟨bs', he⟩ := encode_of_decodeRequest hd
  rw [exec_request he] at ht
  cases ht
  exact panelAgrees_of_same h ⟨rfl, rfl, rfl, fun _ => rfl, id⟩

/-- The end of a frame with the effect `f` keeps the agreement. -/
theorem panelAgrees_closeFrame {s : State} {f : Panel → Panel} (h : s.PanelAgrees) (hr : s.rstPrev = false)
    (ha : s.csAsserted = true) (hf : ∀ p, Panel.frame s.cfg s.rxFaulty s.openFrame p = p.accept f) :
    ((s.driveCs .inact).panelFrame f).PanelAgrees :=
  panelAgrees_of_event h hr rfl rfl rfl (fun rule => seen_closeFrame s rule true ha hf)

theorem panelAgrees_byteEdge {s : State} (h : s.PanelAgrees) (hr : s.rstPrev = false) (inp : Inputs) (b : Byte)
    (m : Mark) : (s.byteEdge inp b m).PanelAgrees := by
  rcases byteEdge_cases s inp b m with
    ⟨_, e⟩ | ⟨_, _, e⟩ | ⟨_, _, e⟩ | ⟨_, _, e⟩ | ⟨_, _, e⟩ | ⟨_, e⟩ <;> rw [e]
  case inr.inr.inl =>
    have low : ({ s with sclk := false } : State).PanelAgrees :=
      panelAgrees_of_same h ⟨rfl, rfl, rfl, fun _ => rfl, id⟩
    refine panelAgrees_of_same ?_ (samePanelSide_finish _ m)
    exact panelAgrees_of_entry low rfl rfl rfl (fun rule => seen_byteDone _ rule b inp.busFault) (by simp [hr])
  all_goals exact panelAgrees_of_same h ⟨rfl, rfl, rfl, fun _ => rfl, id⟩

theorem panelAgrees_waitEdge {s : State} (h : s.PanelAgrees) (hr : s.rstPrev = false) (ms : Nat) (m : Mark) :
    (s.waitEdge ms m).PanelAgrees := by
  rcases waitEdge_cases s ms m with ⟨_, _, e⟩ | ⟨_, _, e⟩ | ⟨_, e⟩ <;> rw [e]
  · refine panelAgrees_of_same ?_ (samePanelSide_finish _ m)
    exact panelAgrees_of_event h hr rfl rfl rfl (fun rule => seen_waitDone s rule true ms)
  all_goals exact panelAgrees_of_same h ⟨rfl, rfl, rfl, fun _ => rfl, id⟩

theorem panelAgrees_sampleEdge {s : State} (h : s.PanelAgrees) (inp : Inputs) (m : Mark) :
    (s.sampleEdge inp m).PanelAgrees := by
  rcases sampleEdge_cases s inp m with ⟨r, _, e⟩ | ⟨_, _, e⟩ | ⟨_, _, e⟩ | ⟨_, _, e⟩ <;> rw [e]
  · have result : (s.mapResult r).PanelAgrees := panelAgrees_of_same h ⟨rfl, rfl, rfl, fun _ => rfl, id⟩
    exact panelAgrees_of_same result (samePanelSide_finish _ m)
  all_goals exact panelAgrees_of_same h ⟨rfl, rfl, rfl, fun _ => rfl, id⟩

/-- An edge of the sequencer that settles keeps the agreement. -/
theorem panelAgrees_sequence_settled {s t : State} {inp : Inputs} (h : s.PanelAgrees) (hr : s.rstPrev = false)
    (hs : s.sequence inp = .settled t) : t.PanelAgrees := by
  rcases sequence_settled hs with ⟨_, rfl⟩ | ⟨op, m, items, _, hc⟩
  · exact panelAgrees_of_same h ⟨rfl, rfl, rfl, fun _ => rfl, id⟩
  · have done : (s.finish m).PanelAgrees := panelAgrees_of_same h (samePanelSide_finish s m)
    have hr' : (s.finish m).rstPrev = false := by simp [hr]
    have hcs : (s.finish m).csAsserted = s.csAsserted := by simp [State.csAsserted]
    rcases hc with ⟨_, _, _, _, rfl⟩ | ⟨_, _, rfl⟩ | ⟨_, _, ha, hf, rfl⟩ | ⟨_, _, ha, rfl⟩ | ⟨l, _, _, rfl⟩ |
      ⟨b, _, rfl⟩ | ⟨ms, _, rfl⟩ | ⟨v, _, rfl⟩ | ⟨_, rfl⟩
    · exact panelAgrees_of_same h ⟨rfl, rfl, rfl, fun _ => rfl, id⟩
    · exact panelAgrees_of_event done hr' rfl rfl rfl (fun rule => seen_driveCs_act _ rule true)
    · refine panelAgrees_closeFrame done hr' (hcs.trans ha) (fun p => ?_)
      simp [Panel.frame, State.openFrame, show frameCommand s.rxFaulty s.rx.reverse = none from hf]
    · exact panelAgrees_of_event done hr' rfl rfl rfl (fun rule => seen_driveCs_inact _ rule true (hcs.trans ha))
    · exact panelAgrees_of_event done hr' rfl rfl rfl (fun rule => seen_driveCd _ rule true l)
    · exact panelAgrees_byteEdge h hr inp b m
    · exact panelAgrees_waitEdge h hr ms m
    · have flagged : ({ s with initDone := v } : State).PanelAgrees :=
        panelAgrees_of_same h ⟨rfl, rfl, rfl, fun _ => rfl, id⟩
      exact panelAgrees_of_same flagged (samePanelSide_finish _ m)
    · exact panelAgrees_sampleEdge h inp m

/-- An edge of the sequencer that ends a frame, and the panel command this frame makes, keep the agreement. -/
theorem panelAgrees_sequence_run {s v t : State} {inp : Inputs} {i : Instr} (h : s.PanelAgrees)
    (hr : s.rstPrev = false) (hs : s.sequence inp = .run i v) (ht : exec i v = .next t) : t.PanelAgrees := by
  obtain ⟨m, items, _, _, ha, hf, rfl⟩ := sequence_run hs
  obtain ⟨op, d, hi⟩ := decodeFrame_ok (frameCommand_eq_some.1 hf).2
  rw [exec_panelCommand hi] at ht
  cases ht
  have done : (s.finish m).PanelAgrees := panelAgrees_of_same h (samePanelSide_finish s m)
  refine panelAgrees_closeFrame done (by simp [hr]) (by simpa [State.csAsserted] using ha) (fun p => ?_)
  simp [Panel.frame, State.openFrame, show frameCommand s.rxFaulty s.rx.reverse = some i from hf]

/-- Settles O55: by what a step can do. A reset is `panelAgrees_resetEdge`, an edge of the sequencer one of the two lemmas
above, and the transfer of a byte touches nothing the panel or the trace holds. -/
theorem panelFollowsTheTrace : Obligations.PanelFollowsTheTrace := by
  intro s t h hstep
  have started : s.started.PanelAgrees :=
    panelAgrees_of_same h ⟨rfl, rfl, rfl, fun _ => rfl, by simp [State.started]⟩
  rcases step_inv hstep with ⟨_, rfl⟩ | ⟨_, _, rfl⟩ | ⟨_, _, _, _, b, _, hb⟩ | ⟨_, _, hs | ⟨i, v, hs, ht⟩⟩
  · exact panelAgrees_resetEdge (panelAgrees_of_same h ⟨rfl, rfl, rfl, fun _ => rfl, id⟩)
  · exact started
  · have taken : (s.started.takeByte b).PanelAgrees := panelAgrees_of_same started ⟨rfl, rfl, rfl, fun _ => rfl, id⟩
    rcases hb with ⟨c, _, rfl⟩ | ⟨i, hd, ht⟩ | ⟨_, _, _, rfl⟩
    · exact panelAgrees_of_same taken ⟨rfl, rfl, rfl, fun _ => rfl, id⟩
    · exact panelAgrees_exec_request taken hd ht
    · exact panelAgrees_of_same taken ⟨rfl, rfl, rfl, fun _ => rfl, id⟩
  · exact panelAgrees_sequence_settled started rfl hs
  · exact panelAgrees_sequence_run started rfl hs ht

end Sys2Proof.Machine
end

section
/-! Two facts the invariant rests on: the mapped value is in range (43_input_mapper.md R234), and a byte that neither
faults nor completes a request leaves its length ahead (30_encoding.md R121, R122). -/

namespace Sys2Proof.Machine

/-! ## The mapper -/

theorem span_pos (cfg : Config) : 0 < cfg.span := by
  obtain ⟨-, -, -, ⟨hlt, -⟩, -⟩ := cfg.wf
  exact Nat.sub_pos_of_lt hlt

theorem clamp_sub_le_span (cfg : Config) (r : Nat) : clamp cfg r - cfg.clampLo ≤ cfg.span := by
  unfold clamp Config.span
  split <;> [omega; (split <;> omega)]

theorem mapHalfAway_le_range {cfg : Config} {d : Nat} (h : d ≤ cfg.span) : mapHalfAway cfg d ≤ cfg.range := by
  have hspan := span_pos cfg
  have hprod : d * cfg.range ≤ cfg.span * cfg.range := Nat.mul_le_mul_right _ h
  have expand : (cfg.range + 1) * (2 * cfg.span) = 2 * (cfg.span * cfg.range) + 2 * cfg.span := by ring
  rw [mapHalfAway, Nat.mul_assoc, ← Nat.lt_succ_iff, Nat.succ_eq_add_one, Nat.div_lt_iff_lt_mul (by omega), expand]
  omega

/-- Rounding up stays in range: short of `SPAN` the quotient is below `R`, and at `SPAN` the division is exact. -/
theorem mapHalfEven_le_range {cfg : Config} {d : Nat} (h : d ≤ cfg.span) : mapHalfEven cfg d ≤ cfg.range := by
  have hspan := span_pos cfg
  rcases (Nat.mul_le_mul_right cfg.range h).lt_or_eq with h | h
  · have quotient : d * cfg.range / cfg.span < cfg.range := Nat.div_lt_of_lt_mul h
    simp only [mapHalfEven]
    split <;> [omega; (split <;> omega)]
  · have quotient : d * cfg.range / cfg.span = cfg.range := by rw [h, Nat.mul_div_cancel_left _ hspan]
    have rest : d * cfg.range % cfg.span = 0 := by rw [h, Nat.mul_mod_right]
    simp [mapHalfEven, rest, quotient, hspan]

/-- The mapped value lies in `[0, R]`, in both rounding modes (43_input_mapper.md R234). -/
theorem mapFn_le_range (cfg : Config) (r : Nat) : mapFn cfg r ≤ cfg.range := by
  unfold mapFn
  split
  · exact mapHalfAway_le_range (clamp_sub_le_span cfg r)
  · exact mapHalfEven_le_range (clamp_sub_le_span cfg r)

/-- `map_pixel` holds every mapped value. -/
theorem toNat_mapPixel (cfg : Config) (r : Nat) : (BitVec.ofNat 16 (mapFn cfg r)).toNat = mapFn cfg r := by
  obtain ⟨⟨-, hwidth⟩, -⟩ := cfg.wf
  have hrange : mapFn cfg r ≤ cfg.width - cfg.spriteWidth := mapFn_le_range cfg r
  rw [BitVec.toNat_ofNat, Nat.mod_eq_of_lt (by omega)]

/-! ## The bytes of a request in assembly -/

/-- The length of a request other than SEND is known from its first byte or never. -/
theorem requestLength_of_not_send {op : Byte} (h : op ≠ 1#8) (args args' : List Byte) :
    requestLength (op :: args) = requestLength (op :: args') := by
  by_cases h2 : op = 2#8; · subst h2; rfl
  by_cases h3 : op = 3#8; · subst h3; rfl
  by_cases h4 : op = 4#8; · subst h4; rfl
  by_cases h5 : op = 5#8; · subst h5; rfl
  by_cases h6 : op = 6#8; · subst h6; rfl
  have unknown : ∀ rest, requestLength (op :: rest) = none := fun rest => by
    unfold requestLength
    split <;> first | rfl | (rename_i e; cases e; contradiction)
  rw [unknown, unknown]

/-- A byte string that begins a request has a known length from its third byte on. -/
theorem length_le_two_of_requestLength_none {bs : List Byte} (h : requestLength bs = none)
    (hop : isRequestOp (bs.headD 0) = true) : bs.length ≤ 2 := by
  match bs with
  | [] | [_] | [_, _] => simp
  | op :: a :: b :: rest =>
    have hbounds : 1 ≤ op.toNat ∧ op.toNat ≤ 6 := by simpa [isRequestOp] using hop
    have hcases : op = 1#8 ∨ op = 2#8 ∨ op = 3#8 ∨ op = 4#8 ∨ op = 5#8 ∨ op = 6#8 := by bv_omega
    rcases hcases with rfl | rfl | rfl | rfl | rfl | rfl <;> cases h

/-- Further bytes do not change a length once it is known. -/
theorem requestLength_append {bs : List Byte} {n : Nat} (h : requestLength bs = some n) (more : List Byte) :
    requestLength (bs ++ more) = some n := by
  unfold requestLength at h
  split at h <;> first | exact h | cases h

/-- Where the length is not known, one more byte makes it known only as the first byte or as SEND's third. -/
theorem requestLength_becomes_known {bs : List Byte} {b : Byte} {n : Nat} (hbs : requestLength bs = none)
    (h : requestLength (bs ++ [b]) = some n) : bs = [] ∨ ∃ opc, bs = [1#8, opc] := by
  match bs with
  | [] => exact .inl rfl
  | op :: args =>
    by_cases hop : op = 1#8
    · subst hop
      match args with
      | [] => cases h
      | [opc] => exact .inr ⟨opc, rfl⟩
      | _ :: _ :: _ => cases hbs
    · rw [List.cons_append, requestLength_of_not_send hop _ args, hbs] at h
      cases h

theorem requestLength_singleton {b : Byte} {n : Nat} (h : requestLength [b] = some n) : 1 ≤ n ∧ n ≤ 19 := by
  unfold requestLength at h
  split at h <;> cases h <;> simp_all

/-- A byte that neither faults nor completes the request leaves it unfinished, within the buffer. -/
theorem unfinished_append {bs : List Byte} {b : Byte}
    (hold : ∀ n, requestLength bs = some n → bs.length < n ∧ n ≤ 19)
    (hfault : spellingFault (bs ++ [b]) = none) (hlen : requestLength (bs ++ [b]) ≠ some (bs.length + 1)) :
    ∀ n, requestLength (bs ++ [b]) = some n → bs.length + 1 < n ∧ n ≤ 19 := by
  intro n hn
  have hne : n ≠ bs.length + 1 := fun e => hlen (e ▸ hn)
  cases hbs : requestLength bs with
  | some k =>
    obtain rfl : k = n := Option.some.inj ((requestLength_append hbs [b]).symm.trans hn)
    obtain ⟨h1, h2⟩ := hold k hbs
    omega
  | none =>
    rcases requestLength_becomes_known hbs hn with rfl | ⟨opc, rfl⟩
    · obtain ⟨h1, h2⟩ := requestLength_singleton hn
      simp only [List.length_nil] at hne ⊢
      omega
    · have hfits : b.toNat ≤ 16 := by simpa [spellingFault, maxPayload] using hfault
      obtain rfl : 3 + b.toNat = n := Option.some.inj hn
      simp only [List.length_cons, List.length_nil] at hne ⊢
      omega

/-- A first byte that raises no fault begins a request. -/
theorem isRequestOp_of_first {b : Byte} (h : spellingFault [b] = none) : isRequestOp b = true := by
  by_contra hop
  simp [spellingFault, hop] at h

end Sys2Proof.Machine
end

section
/-! The invariant in EXEC, in three parts: the panel port, the progress of the head of the plan, and the rest
(`State.WorkOk`). An edge of a micro-operation moves the first two while it goes on, and `coherent_finish` says what its
end needs. -/

namespace Sys2Proof.Machine

/-! ## The panel port -/

theorem busState_driveCs {s : State} {a : CsLevel} {b b' : BusState} (hb : s.busState = some b)
    (hn : b.next (.cs a) = some b') : (s.driveCs a).busState = some b' := by
  cases b <;> cases a <;> cases hn
  · obtain ⟨-, hcd, -⟩ := busState_command hb
    simp [State.busState, State.csAsserted, State.openFrame, CsLevel.bit, hcd]
  · obtain ⟨-, hcd, -⟩ := busState_data hb
    simp [State.busState, State.csAsserted, State.openFrame, CsLevel.bit, hcd]

theorem busState_driveCd {s : State} {l : CdLevel} {b b' : BusState} (hb : s.busState = some b)
    (hn : b.next (.cd l) = some b') : (s.driveCd l).busState = some b' := by
  have hcs : (s.driveCd l).csAsserted = s.csAsserted := rfl
  have hframe : (s.driveCd l).openFrame = s.openFrame := rfl
  cases b <;> cases l <;> cases hn
  · obtain ⟨ha, -, hrx⟩ := busState_idle hb
    simp [State.busState, hcs, ha, State.openFrame, hrx, cdBit]
  · obtain ⟨ha, -, o, hf⟩ := busState_opcodeSent hb
    simp [State.busState, hcs, ha, hframe, hf, cdBit]

theorem busState_byteDone {s : State} {x : Byte} (faulty : Bool) {b b' : BusState} (hb : s.busState = some b)
    (hn : b.next (.byte x) = some b') : (s.byteDone x faulty).busState = some b' := by
  have hcs : (s.byteDone x faulty).csAsserted = s.csAsserted := rfl
  cases b <;> cases hn
  · obtain ⟨ha, hcd, hrx⟩ := busState_opened hb
    simp [State.busState, hcs, ha, hcd, State.openFrame, hrx, cdOfBit]
  · obtain ⟨ha, hcd, o, rest, hf, hdata⟩ := busState_data hb
    have hframe : (s.byteDone x faulty).openFrame = (.cmd, o) :: (rest ++ [(.data, x)]) := by
      rw [State.openFrame, byteDone_rx, if_pos ha, List.reverse_cons, ← State.openFrame, hf, hcd]
      rfl
    simp [State.busState, hcs, ha, hcd, hframe, hdata]

/-- Outside EXEC nothing is planned, so the port is idle. -/
theorem busState_of_no_plan {s : State} (h : s.BusOk) (hp : s.plan = []) : s.busState = some .idle := by
  have h : s.busState.bind (fun b => b.run []) = some .idle := hp ▸ h
  cases hb : s.busState with
  | none => rw [hb] at h; cases h
  | some b => rw [hb] at h; exact h

/-! ## The progress of the head of the plan -/

/-- SCLK is high only while a byte is shifted. -/
theorem sclk_low_of_no_byte {s : State} (h : s.PhaseOk) (hp : ∀ b m items, s.plan ≠ ⟨.emit (.byte b), m⟩ :: items) :
    s.sclk = false := by
  unfold State.PhaseOk at h
  split at h
  case h_4 =>
    obtain ⟨-, -, ⟨b, m, items, hplan, -⟩, -⟩ := h
    exact absurd hplan (hp b m items)
  all_goals exact h.1

/-- The ADC is asked only while a sample is planned. -/
theorem adcWait_low_of_no_sample {s : State} (h : s.PhaseOk) (hp : ∀ m items, s.plan ≠ ⟨.sample, m⟩ :: items) :
    s.adcWait = false := by
  unfold State.PhaseOk at h
  split at h
  case h_6 | h_7 =>
    obtain ⟨-, -, m, items, hplan⟩ := h
    exact absurd hplan (hp m items)
  case h_1 => exact h.2
  all_goals exact h.2.1

theorem phase_ready_of_no_plan {s : State} (h : s.PhaseOk) (hp : s.plan = []) : s.phase = .ready := by
  unfold State.PhaseOk at h
  split at h <;> simp_all

/-- The shift register holds the byte at the head of the plan, and `mosi` shows the bit that `bit_idx` names. -/
structure State.Shifting (s : State) (b : Byte) : Prop where
  shreg : s.shreg = b
  mosi : s.mosi = s.shreg.getLsbD s.bitIdx.toNat

theorem shifting_of_low {s : State} {n : Nat} {b : Byte} {m : Mark} {items : List PlanItem} (h : s.PhaseOk)
    (hph : s.phase = .low n) (hp : s.plan = ⟨.emit (.byte b), m⟩ :: items) : s.sclk = false ∧ s.Shifting b := by
  simp only [State.PhaseOk, hph] at h
  obtain ⟨hsclk, -, ⟨b', m', items', hp', hb⟩, hmosi⟩ := h
  rw [hp] at hp'
  cases hp'
  exact ⟨hsclk, hb, hmosi⟩

theorem shifting_of_high {s : State} {n : Nat} {b : Byte} {m : Mark} {items : List PlanItem} (h : s.PhaseOk)
    (hph : s.phase = .high n) (hp : s.plan = ⟨.emit (.byte b), m⟩ :: items) : s.sclk = true ∧ s.Shifting b := by
  simp only [State.PhaseOk, hph] at h
  obtain ⟨hsclk, -, ⟨b', m', items', hp', hb⟩, hmosi⟩ := h
  rw [hp] at hp'
  cases hp'
  exact ⟨hsclk, hb, hmosi⟩

theorem adcWait_of_sampling {s : State} (h : s.PhaseOk) (hph : s.phase = .adc ∨ ∃ r, s.phase = .sampled r) :
    s.adcWait = true := by
  rcases hph with hph | ⟨r, hph⟩ <;> simp only [State.PhaseOk, hph] at h <;> exact h.2.1

/-! ## The frame memory -/

theorem frameMemoryOk_of_panels {s t : State} {f : ResetRule → Panel → Panel} (h : s.FrameMemoryOk)
    (hcfg : t.cfg = s.cfg) (hpanel : ∀ rule, t.panelBy rule = f rule (s.panelBy rule))
    (hf : ∀ (rule : ResetRule) (p : Panel), p.MemoryOk s.cfg → (f rule p).MemoryOk s.cfg) : t.FrameMemoryOk := by
  intro rule
  rw [hpanel, hcfg]
  exact hf rule _ (h rule)

theorem frameMemoryOk_panelFrame {s : State} {f : Panel → Panel} (h : s.FrameMemoryOk)
    (hf : ∀ p : Panel, p.MemoryOk s.cfg → (f p).MemoryOk s.cfg) : (s.panelFrame f).FrameMemoryOk :=
  frameMemoryOk_of_panels (f := fun _ p => p.accept f) h rfl (panelFrame_panelBy s f)
    (fun _ p hp => accept_memoryOk (fun _ => hf p hp))

theorem frameMemoryOk_waitDone {s : State} (h : s.FrameMemoryOk) (ms : Nat) : (s.waitDone ms).FrameMemoryOk :=
  frameMemoryOk_of_panels (f := fun _ p => p.wait ms) h rfl (waitDone_panelBy s ms) (fun _ _ hp => hp)

theorem frameMemoryOk_resetEdge {s : State} (h : s.FrameMemoryOk) : s.resetEdge.FrameMemoryOk :=
  frameMemoryOk_of_panels (f := fun rule p => p.blockReset rule s.csAsserted) h rfl (resetEdge_panelBy s)
    (fun rule _ hp => blockReset_memoryOk rule s.csAsserted hp)

theorem frameMemoryOk_finish {s : State} (h : s.FrameMemoryOk) (m : Mark) : (s.finish m).FrameMemoryOk :=
  frameMemoryOk_of_panels (f := fun _ p => p) h (finish_cfg s m) (fun rule => by cases rule <;> simp) (fun _ _ hp => hp)

/-! ## The invariant in EXEC -/

/-- What the invariant says of a state in EXEC, but for the panel port and the progress of the head of the plan. -/
structure State.WorkOk (s : State) : Prop where
  fsm : s.fsm = .exec
  rqCnt : s.rqCnt = 0
  faultCause : s.faultCause = .none
  init_index : initStepsLeft s.plan = [] ∨ initStepsLeft s.plan = (List.range nInit).drop s.initIdx.toNat
  pixel_count : s.pixRem.toNat = pixelsLeft s.plan
  streams : streamsOk s.plan
  mapped : s.mapValid = true → s.mapPixel.toNat = mapFn s.cfg s.mapRaw.toNat ∧ s.mapPixel.toNat ≤ s.cfg.range
  memory : s.FrameMemoryOk

/-- FAULT_CAUSE is 0 outside FAULT. -/
theorem faultCause_none_of_coherent {s : State} (h : s.Coherent) (hf : s.fsm ≠ .fault) : s.faultCause = .none := by
  by_contra hc
  exact hf (h.cause.1 hc)

theorem workOk_of_coherent {s : State} (h : s.Coherent) (hf : s.fsm = .exec) : s.WorkOk :=
  { h with
    fsm := hf
    rqCnt := h.assembly.count_zero (by simp [hf])
    faultCause := faultCause_none_of_coherent h (by simp [hf]) }

theorem coherent_of_work {s : State} (h : s.WorkOk) (bus : s.BusOk) (phase : s.PhaseOk) : s.Coherent :=
  { h with
    no_plan := fun hf => absurd h.fsm hf
    assembly := ⟨fun _ => h.rqCnt, by simp [h.fsm], by simp [h.fsm], by simp [h.fsm]⟩
    cause := by simp [h.fsm, h.faultCause]
    bus := bus
    phase := phase }

/-! ## The end of a micro-operation -/

/-- Where step `k` is the first still to finish, the next one is once `init_idx` is k + 1. -/
theorem stepsLeft_after {k : Nat} {left : List Nat} {idx : BitVec 5}
    (h : k :: left = (List.range nInit).drop idx.toNat) :
    left = (List.range nInit).drop (BitVec.ofNat 5 (k + 1)).toNat := by
  have hlt : idx.toNat < (List.range nInit).length := by
    by_contra hge
    rw [List.drop_of_length_le (by omega)] at h
    cases h
  rw [List.drop_eq_getElem_cons hlt, List.getElem_range] at h
  obtain ⟨rfl, hleft⟩ := List.cons.inj h
  rw [List.length_range, nInit] at hlt
  rw [BitVec.toNat_ofNat, Nat.mod_eq_of_lt (by omega), hleft]

/-- The mark of the head of the plan keeps the counters in step with what is left (10_state.md R44, R45). -/
theorem workOk_finish {u : State} (h : u.WorkOk) {op : MicroOp} {m : Mark} {items : List PlanItem}
    (hp : u.plan = ⟨op, m⟩ :: items) : (u.finish m).WorkOk := by
  obtain ⟨hfsm, hcnt, hcause, hsteps, hpix, hstreams, hmapped, hmemory⟩ := h
  have hplan : (u.finish m).plan = items := by simp [hp]
  rw [hp] at hsteps hpix hstreams
  have counters :
      (initStepsLeft items = [] ∨ initStepsLeft items = (List.range nInit).drop (u.finish m).initIdx.toNat) ∧
      (u.finish m).pixRem.toNat = pixelsLeft items ∧ streamsOk items := by
    cases m with
    | plain => exact ⟨hsteps, hpix, hstreams⟩
    | initStep k => exact ⟨.inr (stepsLeft_after (hsteps.resolve_left (List.cons_ne_nil _ _))), hpix, hstreams⟩
    | loadPixels n =>
      obtain ⟨⟨hn, hlt⟩, hstreams⟩ := hstreams
      refine ⟨hsteps, ?_, hstreams⟩
      rw [finish_pixRem_loadPixels, BitVec.toNat_ofNat, Nat.mod_eq_of_lt hlt, hn]
    | pixelDone =>
      refine ⟨hsteps, ?_, hstreams⟩
      have hpix : u.pixRem.toNat = pixelsLeft items + 1 := hpix
      rw [finish_pixRem_pixelDone]
      bv_omega
  obtain ⟨hsteps, hpix, hstreams⟩ := counters
  rw [← hplan] at hsteps hpix hstreams
  exact ⟨by simpa using hfsm, by simpa using hcnt, by simpa using hcause, hsteps, hpix, hstreams,
    by simpa using hmapped, frameMemoryOk_finish hmemory m⟩

theorem busState_finish (u : State) (m : Mark) : (u.finish m).busState = u.busState := by cases m <;> rfl

/-- The end of a micro-operation whose effect has taken `s` to `u`: the rest of the plan goes on from where the port
stands, and SCLK and the ADC rest. -/
theorem coherent_finish {u : State} (h : u.WorkOk) {op : MicroOp} {m : Mark} {items : List PlanItem}
    (hp : u.plan = ⟨op, m⟩ :: items) {b : BusState} (hb : u.busState = some b) (hr : b.run items = some .idle)
    (hsclk : u.sclk = false) (hadc : u.adcWait = false) : (u.finish m).Coherent := by
  refine coherent_of_work (workOk_finish h hp) (busOk_of (b := b) ?_ ?_) ?_
  · rw [busState_finish, hb]
  · simpa [hp] using hr
  · simpa [State.PhaseOk] using ⟨hsclk, hadc⟩

end Sys2Proof.Machine
end

section
/-! Every step keeps coherence: each micro-operation's edges, the transfer of a byte, and reset. -/

namespace Sys2Proof.Machine

/-! ## The edges of a micro-operation -/

section
variable {s : State} {m : Mark} {items : List PlanItem}

/-- A line change, on the way or done, finds SCLK low and the ADC at rest; so does a WAIT. -/
theorem pins_low_of_emit {e : Event} (h : s.PhaseOk) (hp : s.plan = ⟨.emit e, m⟩ :: items)
    (he : ∀ b, e ≠ .byte b) : s.sclk = false ∧ s.adcWait = false := by
  refine ⟨sclk_low_of_no_byte h fun b m' items' hb => ?_, adcWait_low_of_no_sample h fun m' items' hb => ?_⟩
  · cases hp.symm.trans hb
    exact he b rfl
  · cases hp.symm.trans hb

theorem coherent_gap (h : s.Coherent) (hf : s.fsm = .exec) {e : Event} (hp : s.plan = ⟨.emit e, m⟩ :: items)
    (he : (∃ a, e = .cs a) ∨ ∃ l, e = .cd l) (n : Nat) : ({ s with phase := .gap n } : State).Coherent := by
  obtain ⟨hsclk, hadc⟩ := pins_low_of_emit h.phase hp (by rcases he with ⟨_, rfl⟩ | ⟨_, rfl⟩ <;> simp)
  exact coherent_of_work { workOk_of_coherent h hf with } h.bus ⟨hsclk, hadc, e, m, items, hp, he⟩

/-- `finish` and the levels of the lines have nothing in common. -/
theorem finish_driveCs (a : CsLevel) : (s.finish m).driveCs a = (s.driveCs a).finish m := by cases m <;> rfl

theorem finish_driveCd (l : CdLevel) : (s.finish m).driveCd l = (s.driveCd l).finish m := by cases m <;> rfl

theorem finish_panelFrame (f : Panel → Panel) : (s.finish m).panelFrame f = (s.panelFrame f).finish m := by
  cases m <;> rfl

theorem coherent_driveCs (h : s.Coherent) (hf : s.fsm = .exec) {a : CsLevel}
    (hp : s.plan = ⟨.emit (.cs a), m⟩ :: items) : ((s.finish m).driveCs a).Coherent := by
  obtain ⟨b, b', hb, hn, hr⟩ := bus_emit h.bus hp
  obtain ⟨hsclk, hadc⟩ := pins_low_of_emit h.phase hp (by simp)
  rw [finish_driveCs]
  exact coherent_finish (u := s.driveCs a) { workOk_of_coherent h hf with } hp (busState_driveCs hb hn) hr hsclk hadc

theorem coherent_driveCd (h : s.Coherent) (hf : s.fsm = .exec) {l : CdLevel}
    (hp : s.plan = ⟨.emit (.cd l), m⟩ :: items) : ((s.finish m).driveCd l).Coherent := by
  obtain ⟨b, b', hb, hn, hr⟩ := bus_emit h.bus hp
  obtain ⟨hsclk, hadc⟩ := pins_low_of_emit h.phase hp (by simp)
  rw [finish_driveCd]
  exact coherent_finish (u := s.driveCd l) { workOk_of_coherent h hf with } hp (busState_driveCd hb hn) hr hsclk hadc

/-- A frame reaches the panel. -/
theorem coherent_panelFrame (h : s.Coherent) {f : Panel → Panel}
    (hf : ∀ p : Panel, p.MemoryOk s.cfg → (f p).MemoryOk s.cfg) : (s.panelFrame f).Coherent :=
  { h with
    assembly := { h.assembly with }
    memory := frameMemoryOk_panelFrame h.memory hf }

theorem coherent_driveBit (h : s.Coherent) (hf : s.fsm = .exec) {b : Byte}
    (hp : s.plan = ⟨.emit (.byte b), m⟩ :: items) (hreg : s.shreg = b) (i : BitVec 3) : (s.driveBit i).Coherent := by
  have hadc : s.adcWait = false := adcWait_low_of_no_sample h.phase (by simp [hp])
  exact coherent_of_work { workOk_of_coherent h hf with } h.bus ⟨rfl, hadc, ⟨b, m, items, hp, hreg⟩, rfl⟩

theorem coherent_byteEdge (h : s.Coherent) (hf : s.fsm = .exec) (inp : Inputs) {b : Byte}
    (hp : s.plan = ⟨.emit (.byte b), m⟩ :: items) : (s.byteEdge inp b m).Coherent := by
  have work := workOk_of_coherent h hf
  have hadc : s.adcWait = false := adcWait_low_of_no_sample h.phase (by simp [hp])
  rcases byteEdge_cases s inp b m with
    ⟨hph, e⟩ | ⟨n, hph, e⟩ | ⟨hph, hbit, e⟩ | ⟨hph, hbit, e⟩ | ⟨n, hph, e⟩ | ⟨hph, e⟩ <;> rw [e]
  · obtain ⟨hsclk, hreg, hmosi⟩ := shifting_of_low h.phase hph hp
    exact coherent_of_work { work with } h.bus ⟨rfl, hadc, ⟨b, m, items, hp, hreg⟩, hmosi⟩
  · obtain ⟨hsclk, hreg, hmosi⟩ := shifting_of_low h.phase hph hp
    exact coherent_of_work { work with } h.bus ⟨hsclk, hadc, ⟨b, m, items, hp, hreg⟩, hmosi⟩
  · obtain ⟨bus, bus', hb, hn, hr⟩ := bus_emit h.bus hp
    have hb := busState_byteDone (s := { s with sclk := false }) inp.busFault hb hn
    exact coherent_finish (u := ({ s with sclk := false } : State).byteDone b inp.busFault) { work with } hp hb hr rfl
      hadc
  · obtain ⟨-, hreg, -⟩ := shifting_of_high h.phase hph hp
    exact coherent_driveBit h hf hp hreg _
  · obtain ⟨hsclk, hreg, hmosi⟩ := shifting_of_high h.phase hph hp
    exact coherent_of_work { work with } h.bus ⟨hsclk, hadc, ⟨b, m, items, hp, hreg⟩, hmosi⟩
  · exact coherent_of_work { work with } h.bus ⟨rfl, hadc, ⟨b, m, items, hp, rfl⟩, rfl⟩

theorem coherent_waitEdge (h : s.Coherent) (hf : s.fsm = .exec) {ms : Nat}
    (hp : s.plan = ⟨.emit (.wait ms), m⟩ :: items) : (s.waitEdge ms m).Coherent := by
  have work := workOk_of_coherent h hf
  obtain ⟨hsclk, hadc⟩ := pins_low_of_emit h.phase hp (by simp)
  rcases waitEdge_cases s ms m with ⟨_, _, e⟩ | ⟨hph, _, e⟩ | ⟨_, e⟩ <;> rw [e]
  · obtain ⟨b, b', hb, hn, hr⟩ := bus_emit h.bus hp
    have hb : (s.waitDone ms).busState = some b' := by
      cases b <;> cases hn
      exact hb
    exact coherent_finish (u := s.waitDone ms) { work with memory := frameMemoryOk_waitDone h.memory ms } hp hb hr hsclk
      hadc
  · have hphase : ({ s with delayCnt := s.delayCnt + 1 } : State).PhaseOk := by
      simpa [State.PhaseOk, hph] using h.phase
    exact coherent_of_work { work with } h.bus hphase
  · exact coherent_of_work { work with } h.bus ⟨hsclk, hadc, ms, m, items, hp⟩

theorem coherent_setInitDone (h : s.Coherent) (hf : s.fsm = .exec) {v : Bool}
    (hp : s.plan = ⟨.setInitDone v, m⟩ :: items) : (({ s with initDone := v } : State).finish m).Coherent := by
  obtain ⟨hb, hr⟩ := bus_silent h.bus hp (.inr ⟨v, rfl⟩)
  have hsclk : s.sclk = false := sclk_low_of_no_byte h.phase (by simp [hp])
  have hadc : s.adcWait = false := adcWait_low_of_no_sample h.phase (by simp [hp])
  exact coherent_finish (u := { s with initDone := v }) { workOk_of_coherent h hf with } hp hb hr hsclk hadc

theorem coherent_sampleEdge (h : s.Coherent) (hf : s.fsm = .exec) (inp : Inputs)
    (hp : s.plan = ⟨.sample, m⟩ :: items) : (s.sampleEdge inp m).Coherent := by
  have work := workOk_of_coherent h hf
  have hsclk : s.sclk = false := sclk_low_of_no_byte h.phase (by simp [hp])
  rcases sampleEdge_cases s inp m with ⟨r, _, e⟩ | ⟨hph, _, e⟩ | ⟨_, _, e⟩ | ⟨_, _, e⟩ <;> rw [e]
  · obtain ⟨hb, hr⟩ := bus_silent h.bus hp (.inl rfl)
    have mapped : (s.mapResult r).mapPixel.toNat = mapFn s.cfg r.toNat := toNat_mapPixel s.cfg r.toNat
    refine coherent_finish (u := s.mapResult r) { work with mapped := fun _ => ⟨mapped, ?_⟩ } hp hb hr hsclk rfl
    rw [mapped]
    exact mapFn_le_range s.cfg r.toNat
  · have hadc : s.adcWait = true := adcWait_of_sampling h.phase (.inl hph)
    exact coherent_of_work { work with } h.bus ⟨hsclk, hadc, m, items, hp⟩
  · exact h
  · exact coherent_of_work { work with } h.bus ⟨hsclk, rfl, m, items, hp⟩

end

/-! ## The edges of the sequencer -/

/-- With nothing left of the plan the block becomes idle. -/
theorem coherent_idle {s : State} (h : s.Coherent) (hf : s.fsm = .exec) (hp : s.plan = []) :
    ({ s with fsm := .idle } : State).Coherent :=
  { h with
    no_plan := fun _ => ⟨hp, phase_ready_of_no_plan h.phase hp⟩
    assembly := ⟨fun _ => h.assembly.count_zero (by simp [hf]), nofun, nofun, nofun⟩
    cause := by simp [faultCause_none_of_coherent h (by simp [hf])] }

theorem coherent_sequence_settled {s t : State} {inp : Inputs} (h : s.Coherent) (hf : s.fsm = .exec)
    (hs : s.sequence inp = .settled t) : t.Coherent := by
  rcases sequence_settled hs with ⟨hp, rfl⟩ | ⟨op, m, items, hp, hc⟩
  · exact coherent_idle h hf hp
  · rcases hc with ⟨n, e, rfl, he, rfl⟩ | ⟨rfl, _, rfl⟩ | ⟨rfl, _, _, _, rfl⟩ | ⟨rfl, _, _, rfl⟩ | ⟨l, rfl, _, rfl⟩ |
      ⟨b, rfl, rfl⟩ | ⟨ms, rfl, rfl⟩ | ⟨v, rfl, rfl⟩ | ⟨rfl, rfl⟩
    · exact coherent_gap h hf hp he n
    · exact coherent_driveCs h hf hp
    · exact coherent_panelFrame (coherent_driveCs h hf hp) (fun p _ => havoc_memoryOk _ p)
    · exact coherent_driveCs h hf hp
    · exact coherent_driveCd h hf hp
    · exact coherent_byteEdge h hf inp hp
    · exact coherent_waitEdge h hf hp
    · exact coherent_setInitDone h hf hp
    · exact coherent_sampleEdge h hf inp hp

theorem coherent_sequence_run {s v t : State} {inp : Inputs} {i : Instr} (h : s.Coherent) (hf : s.fsm = .exec)
    (hs : s.sequence inp = .run i v) (ht : exec i v = .next t) : t.Coherent := by
  obtain ⟨m, items, hp, _, _, hc, rfl⟩ := sequence_run hs
  obtain ⟨op, d, hi⟩ := decodeFrame_ok (frameCommand_eq_some.1 hc).2
  rw [exec_panelCommand hi] at ht
  cases ht
  exact coherent_panelFrame (coherent_driveCs h hf hp) (fun p hm => command_memoryOk i hm)

/-! ## Between requests -/

/-- The pins outside EXEC. -/
theorem rests_of_no_plan {s : State} (h : s.Coherent) (hf : s.fsm ≠ .exec) :
    s.plan = [] ∧ s.phase = .ready ∧ s.sclk = false ∧ s.adcWait = false ∧ s.busState = some .idle := by
  obtain ⟨hp, hph⟩ := h.no_plan hf
  have pins := h.phase
  simp only [State.PhaseOk, hph] at pins
  exact ⟨hp, hph, pins.1, pins.2, busState_of_no_plan h.bus hp⟩

/-- A request that starts between requests. -/
theorem coherent_start {s : State} (h : s.Coherent) (hf : s.fsm = .idle ∨ s.fsm = .assemble) (i : Instr) :
    ({ s.start (requestPlan s.cfg i) with initIdx := if i = .init then 0 else s.initIdx } : State).Coherent := by
  have hfsm : s.fsm ≠ .exec ∧ s.fsm ≠ .fault := by rcases hf with hf | hf <;> simp [hf]
  obtain ⟨hp, hph, hsclk, hadc, hb⟩ := rests_of_no_plan h hfsm.1
  obtain ⟨hsteps, hpix, hstreams⟩ := requestPlan_marks s.cfg i
  have hleft : s.pixRem.toNat = 0 := by simpa [hp, pixelsLeft] using h.pixel_count
  have hcause : s.faultCause = .none := faultCause_none_of_coherent h hfsm.2
  refine coherent_of_work { h with
    fsm := rfl, rqCnt := rfl, faultCause := hcause, streams := hstreams
    pixel_count := hleft.trans hpix.symm, init_index := ?_ } ?_ ⟨hsclk, hadc⟩
  · by_cases hi : i = .init
    · subst hi
      exact .inr hsteps
    · exact .inl (by simp [hi, hsteps])
  · exact busOk_of (b := .idle) hb (run_requestPlan s.cfg i)

/-- A fault raised between requests (60_exceptions.md R302). -/
theorem coherent_raiseFault {s : State} (h : s.Coherent) (hf : s.fsm = .idle ∨ s.fsm = .assemble) {c : FaultCause}
    (hc : c ≠ .none) : (s.raiseFault c).Coherent := by
  obtain ⟨hp, hph, hsclk, hadc, hb⟩ := rests_of_no_plan h (by rcases hf with hf | hf <;> simp [hf])
  have hsteps := h.init_index
  have hpix := h.pixel_count
  rw [hp] at hsteps hpix
  exact { h with
    no_plan := fun _ => ⟨rfl, hph⟩
    assembly := ⟨fun _ => rfl, nofun, nofun, nofun⟩
    cause := by simp [hc]
    bus := busOk_of (b := .idle) hb rfl
    phase := by simpa [State.PhaseOk, hph] using ⟨hsclk, hadc⟩
    init_index := hsteps
    pixel_count := hpix
    streams := trivial }

end Sys2Proof.Machine
end

section
/-! Request assembly keeps coherence, and a coherent state never stops (10_state.md R36-R40, 30_encoding.md R121). -/

namespace Sys2Proof.Machine

/-! ## The edges of request assembly -/

section
variable {s : State} (hf : s.fsm = .idle ∨ s.fsm = .assemble) (hr : s.inputNow.rst = false)

include hf hr

theorem edge_of_byte (hv : s.inputNow.rqValid = true) : s.edge = s.started.transfer s.inputNow.rqData := by
  rw [edge_of_work hr]
  rcases hf with hf | hf <;> simp [State.workEdge, State.started, State.popInputs, hf, hv]

theorem edge_of_no_byte (hv : s.inputNow.rqValid = false) : s.edge = .settled s.started := by
  rw [edge_of_work hr]
  rcases hf with hf | hf <;> simp [State.workEdge, State.started, State.popInputs, hf, hv]

end

/-! ## What the invariant says of the bytes held -/

section
variable {s : State} {b : Byte} (h : s.Coherent) (hf : s.fsm = .idle ∨ s.fsm = .assemble)

include h hf

theorem rqCnt_le_of_coherent : s.rqCnt.toNat ≤ 18 := by
  rcases hf with hf | hf
  · simp [h.assembly.count_zero (by simp [hf])]
  · exact (h.assembly.count_bounds hf).2

/-- The bytes held begin a request once the next byte raises no fault. -/
theorem isRequestOp_of_coherent (hs : spellingFault (s.held ++ [b]) = none) :
    isRequestOp ((s.held ++ [b]).headD 0) = true := by
  rcases hf with hf | hf
  · have hheld : s.held = [] := by simp [State.held, h.assembly.count_zero (by simp [hf])]
    rw [hheld] at hs ⊢
    exact isRequestOp_of_first hs
  · have hop := h.assembly.legal_op hf
    have hlen : s.held.length = s.rqCnt.toNat := held_length (Nat.le_succ_of_le (rqCnt_le_of_coherent h (.inr hf)))
    have hpos := (h.assembly.count_bounds hf).1
    match hheld : s.held with
    | [] => simp [hheld] at hlen; omega
    | op :: rest => simpa [hheld] using hop

/-- The length of the request in assembly, where it is known, lies ahead. -/
theorem unfinished_of_coherent : ∀ n, requestLength s.held = some n → s.held.length < n ∧ n ≤ 19 := by
  have hlen : s.held.length = s.rqCnt.toNat := held_length (Nat.le_succ_of_le (rqCnt_le_of_coherent h hf))
  rw [hlen]
  rcases hf with hf | hf
  · have hheld : s.held = [] := by simp [State.held, h.assembly.count_zero (by simp [hf])]
    simp [hheld, requestLength]
  · exact h.assembly.unfinished hf

/-- The transfer of a byte that neither faults nor completes the request (30_encoding.md R121). -/
theorem coherent_takeByte (hs : spellingFault (s.held ++ [b]) = none)
    (hl : requestLength (s.held ++ [b]) ≠ some (s.rqCnt.toNat + 1)) :
    ({ s.takeByte b with fsm := .assemble } : State).Coherent := by
  have hcnt := rqCnt_le_of_coherent h hf
  have hlen : s.held.length = s.rqCnt.toNat := held_length (by omega)
  have hheld : (s.takeByte b).held = s.held ++ [b] := held_takeByte b (by omega)
  have hcnt' : (s.takeByte b).rqCnt.toNat = s.rqCnt.toNat + 1 := by
    rw [takeByte_rqCnt]
    bv_omega
  have hop := isRequestOp_of_coherent h hf hs
  have hlast := unfinished_append (unfinished_of_coherent h hf) hs (hlen ▸ hl)
  rw [hlen] at hlast
  have hroom : s.rqCnt.toNat + 1 ≤ 18 := by
    cases hn : requestLength (s.held ++ [b]) with
    | some n => obtain ⟨h1, h2⟩ := hlast n hn; omega
    | none =>
      have := length_le_two_of_requestLength_none hn hop
      rw [List.length_append, hlen, List.length_singleton] at this
      omega
  obtain ⟨hp, hph, -⟩ := rests_of_no_plan h (by rcases hf with hf | hf <;> simp [hf])
  exact { h with
    no_plan := fun _ => ⟨hp, hph⟩
    assembly := {
      count_zero := fun hne => absurd rfl hne
      count_bounds := fun _ => by
        show 1 ≤ (s.takeByte b).rqCnt.toNat ∧ (s.takeByte b).rqCnt.toNat ≤ 18
        omega
      legal_op := fun _ => by
        show isRequestOp ((s.takeByte b).held.headD 0) = true
        rw [hheld, hop]
      unfinished := fun _ => by
        show ∀ n, requestLength (s.takeByte b).held = some n → (s.takeByte b).rqCnt.toNat < n ∧ n ≤ 19
        rw [hheld, hcnt']
        exact hlast }
    cause := by simp [faultCause_none_of_coherent h (by rcases hf with hf | hf <;> simp [hf])] }

end

/-! ## The step -/

/-- The buffer's bytes matter in ASSEMBLE only. -/
theorem coherent_setRq {s : State} (h : s.Coherent) (hf : s.fsm ≠ .assemble) (rq : Vector Byte 19) :
    ({ s with rq := rq } : State).Coherent :=
  { h with
    assembly := ⟨h.assembly.count_zero, fun ha => absurd ha hf, fun ha => absurd ha hf, fun ha => absurd ha hf⟩ }

theorem coherent_started {s : State} (h : s.Coherent) : s.started.Coherent :=
  { h with assembly := { h.assembly with } }

/-- Reset leads to a coherent state, from every state whose frame memories are canonical. -/
theorem coherent_resetEdge {s : State} (h : s.FrameMemoryOk) : s.resetEdge.Coherent where
  no_plan _ := ⟨rfl, rfl⟩
  assembly := ⟨fun _ => rfl, nofun, nofun, nofun⟩
  cause := by simp
  bus := by simp [State.BusOk, State.busState, State.csAsserted, State.openFrame, BusState.run]
  phase := ⟨rfl, rfl⟩
  init_index := .inl rfl
  pixel_count := rfl
  streams := trivial
  mapped := nofun
  memory := frameMemoryOk_resetEdge h

/-- A byte's fault has a cause. -/
theorem spellingFault_ne_none {bs : List Byte} {c : FaultCause} (h : spellingFault bs = some c) : c ≠ .none := by
  unfold spellingFault at h
  split at h <;> (try split at h) <;> cases h <;> simp

/-- Settles O50: by what a step can do. A reset, the transfer of a byte, and each edge of the sequencer keep the
invariant, each by a lemma above. -/
theorem stepKeepsCoherence : Obligations.StepKeepsCoherence := by
  intro s t h hstep
  have started := coherent_started h
  rcases step_inv hstep with ⟨_, rfl⟩ | ⟨_, _, rfl⟩ | ⟨_, hf, _, _, b, _, hb⟩ | ⟨_, hf, hs | ⟨i, v, hs, ht⟩⟩
  · exact coherent_resetEdge h.memory
  · exact started
  · rcases hb with ⟨c, hc, rfl⟩ | ⟨i, hd, ht⟩ | ⟨hs, hl, _, rfl⟩
    · exact coherent_setRq (coherent_raiseFault started hf (spellingFault_ne_none hc)) nofun _
    · obtain ⟨bs, hbs⟩ := encode_of_decodeRequest hd
      rw [exec_request hbs] at ht
      cases ht
      exact coherent_setRq (coherent_start started hf i) nofun _
    · exact coherent_takeByte started hf hs hl
  · exact coherent_sequence_settled started hf hs
  · exact coherent_sequence_run started hf hs ht

/-! ## No stops -/

/-- An edge of the sequencer settles or runs the command of a frame that ends. -/
theorem sequence_goes_on (s : State) (inp : Inputs) :
    (∃ t, s.sequence inp = .settled t) ∨ ∃ i v, s.sequence inp = .run i v := by
  have line : ∀ (happens : State → Edge) (m : Mark),
      ((∃ t, happens (s.finish m) = .settled t) ∨ ∃ i v, happens (s.finish m) = .run i v) →
      (∃ t, s.lineEdge happens m = .settled t) ∨ ∃ i v, s.lineEdge happens m = .run i v := by
    intro happens m hgo
    rcases lineEdge_cases s happens m with ⟨_, e⟩ | ⟨_, _, e⟩ | ⟨_, e⟩ <;> rw [e]
    · exact hgo
    all_goals exact .inl ⟨_, rfl⟩
  rcases sequence_cases s inp with ⟨_, e⟩ | ⟨_, m, _, _, hc⟩
  · exact .inl ⟨_, e⟩
  · rcases hc with ⟨_, e⟩ | ⟨_, e⟩ | ⟨_, _, e⟩ | ⟨_, _, e⟩ | ⟨_, _, e⟩ | ⟨_, _, e⟩ | ⟨_, e⟩ <;> rw [e]
    · exact line _ m (.inl ⟨_, rfl⟩)
    · refine line _ m ?_
      rcases closeFrame_cases (s.finish m) with ⟨_, i, _, e⟩ | ⟨_, _, e⟩ | ⟨_, e⟩
      · exact .inr ⟨i, _, e⟩
      · exact .inl ⟨_, e⟩
      · exact .inl ⟨_, e⟩
    · exact line _ m (.inl ⟨_, rfl⟩)
    all_goals exact .inl ⟨_, rfl⟩

theorem step_next_of_exec {s : State} (hf : s.fsm = .exec) (hr : s.inputNow.rst = false) : ∃ t, step s = .next t := by
  rcases sequence_goes_on s.started s.inputNow with ⟨t, e⟩ | ⟨i, v, e⟩
  · exact ⟨t, step_of_settled ((edge_of_exec hf hr).trans e)⟩
  · rw [step_of_run ((edge_of_exec hf hr).trans e)]
    exact exec_next i v

theorem step_next_of_assembly {s : State} (h : s.Coherent) (hf : s.fsm = .idle ∨ s.fsm = .assemble)
    (hr : s.inputNow.rst = false) : ∃ t, step s = .next t := by
  cases hv : s.inputNow.rqValid with
  | false => exact ⟨_, step_of_settled (edge_of_no_byte hf hr hv)⟩
  | true =>
    have hroom := rqCnt_le_of_coherent (coherent_started h) hf
    have hedge := edge_of_byte hf hr hv
    rcases transfer_cases s.started s.inputNow.rqData with
      ⟨hfull, _⟩ | ⟨_, ⟨_, _, e⟩ | ⟨hs, ⟨i, _, _, e⟩ | ⟨_, ⟨_, e⟩ | ⟨hop, _⟩⟩⟩⟩
    · omega
    · exact ⟨_, step_of_settled (hedge.trans e)⟩
    · rw [step_of_run (hedge.trans e)]
      exact exec_next i _
    · exact ⟨_, step_of_settled (hedge.trans e)⟩
    · rw [isRequestOp_of_coherent (coherent_started h) hf hs] at hop
      cases hop

/-- Settles O51: in IDLE and ASSEMBLE the invariant excludes both stops of a transfer, and no other edge has one. -/
theorem coherentStateNeverStops : Obligations.CoherentStateNeverStops := by
  intro s h
  cases hr : s.inputNow.rst with
  | true => exact ⟨_, step_of_settled (edge_of_reset hr)⟩
  | false =>
    cases hf : s.fsm with
    | idle => exact step_next_of_assembly h (.inl hf) hr
    | assemble => exact step_next_of_assembly h (.inr hf) hr
    | exec => exact step_next_of_exec hf hr
    | fault =>
      refine ⟨s.started, step_of_settled ?_⟩
      rw [edge_of_work hr]
      simp [State.workEdge, State.started, State.popInputs, hf]

/-- Settles O10: `transfer_cases` leaves the byte held, since the invariant gives it room and a legal first byte. -/
theorem unfinishedRequestIsHeld : Obligations.UnfinishedRequestIsHeld := by
  refine ⟨fun s inp rest h hin hr hv hf hs hl => ?_, fun s hf hr hv => step_of_settled (edge_of_no_byte hf hr hv)⟩
  have hnow : s.inputNow = inp := by simp [State.inputNow, hin]
  have hrest : s.inputs.tail = rest := by rw [hin, List.tail_cons]
  have hedge : s.edge = s.started.transfer inp.rqData := hnow ▸ edge_of_byte hf (hnow ▸ hr) (hnow ▸ hv)
  have hroom := rqCnt_le_of_coherent (coherent_started h) hf
  have hheld : s.started.held = s.held := rfl
  rcases transfer_cases s.started inp.rqData with
    ⟨hfull, _⟩ | ⟨_, ⟨_, hc, _⟩ | ⟨_, ⟨_, hdone, _, _⟩ | ⟨_, ⟨_, e⟩ | ⟨hop, _⟩⟩⟩⟩
  · omega
  · rw [hheld, hs] at hc
    cases hc
  · exact absurd hdone hl
  · rw [step_of_settled (hedge.trans e), ← hrest]
    rfl
  · rw [hheld, isRequestOp_of_coherent h hf hs] at hop
    cases hop

end Sys2Proof.Machine
end

section
/-! Reset, the request port, the status word and the flags' writers (10_state.md R42, R50-R53, R58). -/

namespace Sys2Proof.Machine

/-! ## Reset -/

/-- Settles O13: the step is `State.resetEdge`, whose fields are these. -/
theorem resetEdgeRestoresTheBlock : Obligations.ResetEdgeRestoresTheBlock := by
  intro s hr
  have status : s.popInputs.resetEdge.status = 0 := by
    show (0#2 ++ BitVec.ofBool false ++ causeCode .none ++ BitVec.ofBool false ++ BitVec.ofBool false
      ++ BitVec.ofBool false : Byte) = 0
    decide
  refine ⟨_, step_of_settled (edge_of_reset hr), rfl, rfl, rfl, rfl, rfl, rfl, rfl, rfl, rfl, rfl, rfl, rfl, rfl, rfl,
    status, rfl, rfl, rfl, rfl, rfl, rfl, rfl, rfl, fun hprev => ?_, fun hprev => ?_⟩
  all_goals
    have hprev : s.popInputs.rstPrev = _ := hprev
    rw [State.trace, resetEdge_log, hprev]
  · exact List.reverse_cons
  · rfl

/-- Settles O15: the fields of `State.reset`. -/
theorem resetStateIsAsSpecified : Obligations.ResetStateIsAsSpecified :=
  ⟨rfl, rfl, rfl, rfl, rfl, rfl, rfl, rfl, rfl, rfl, rfl, rfl, rfl, rfl, rfl, rfl, rfl, rfl,
    fun rule => by cases rule <;> rfl⟩

/-- A further reset edge changes nothing of the reset state. -/
theorem resetEdge_reset : State.reset.resetEdge = State.reset := rfl

/-- Settles O49: the reset state is what a reset edge leaves, so it is coherent; its panel is as at power-on, which is
what the one RESET of its trace makes of it. -/
theorem resetStateIsCoherent : Obligations.ResetStateIsCoherent := by
  have memory : State.reset.FrameMemoryOk := fun rule => by
    cases rule <;> exact forgotten_memoryOk State.reset.cfg 0
  refine ⟨resetEdge_reset ▸ coherent_resetEdge memory, panelAgrees_iff.2 ⟨fun rule => ?_, fun _ rule => ?_, nofun⟩⟩
  · cases rule <;> rfl
  · exact see_reset_eq_self.2 ⟨rfl, rfl, rfl, by cases rule <;> rfl⟩

/-! ## The request port -/

/-- The sequencer reads the ADC's answer and the bus off the inputs, and nothing of the request port. -/
theorem sequence_ignores_request_port (s : State) (inp : Inputs) (valid : Bool) (data : Byte) :
    s.sequence { inp with rqValid := valid, rqData := data } = s.sequence inp := rfl

theorem workEdge_of_exec {s : State} (hf : s.fsm = .exec) (inp : Inputs) : s.workEdge inp = s.sequence inp := by
  simp only [State.workEdge, hf]

theorem edge_ignores_request_port {s s' : State} {valid : Bool} {data : Byte} (hf : s.fsm = .exec)
    (hpop : s'.popInputs = s.popInputs)
    (hin : s'.inputNow = { s.inputNow with rqValid := valid, rqData := data }) : s'.edge = s.edge := by
  cases hr : s.inputNow.rst with
  | true => rw [edge_of_reset hr, edge_of_reset (by rw [hin]; exact hr), hpop]
  | false =>
    have working : ({ s.popInputs with rstPrev := false } : State).fsm = .exec := hf
    rw [edge_of_work hr, edge_of_work (by rw [hin]; exact hr), hpop, hin, workEdge_of_exec working,
      workEdge_of_exec working, sequence_ignores_request_port]

/-- Settles O16: a reset edge ignores all other inputs, and an edge of the sequencer the request port. -/
theorem noByteTransfersWhileExecuting : Obligations.NoByteTransfersWhileExecuting := by
  refine ⟨fun s rst => ?_, fun s inp rest valid data hf hin => ?_⟩
  · cases rst <;> cases hf : s.fsm <;> simp [State.rqReady, State.busy, hf]
  · have same := edge_ignores_request_port (valid := valid) (data := data) hf
      (s' := { s with inputs := { inp with rqValid := valid, rqData := data } :: rest })
      (by simp [State.popInputs, hin]) (by simp [State.inputNow, hin])
    rw [step, step, same]

/-! ## The status word -/

/-- The bits of the status word's layout (10_state.md R50). -/
theorem statusLayout_bits (valid faulted done busy : Bool) (c : FaultCause) :
    let word : Byte := 0#2 ++ BitVec.ofBool valid ++ causeCode c ++ BitVec.ofBool faulted ++ BitVec.ofBool done
      ++ BitVec.ofBool busy
    word.getLsbD 0 = busy ∧ word.getLsbD 1 = done ∧ word.getLsbD 2 = faulted ∧
      word.getLsbD 3 = decide (c = .illegalOp) ∧ word.getLsbD 4 = decide (c = .sendLen) ∧ word.getLsbD 5 = valid ∧
      word.getLsbD 6 = false ∧ word.getLsbD 7 = false := by
  revert valid faulted done busy
  cases c <;> decide

/-- Settles O17: the layout's bits, where BUSY and FAULT are what `fsm` says. -/
theorem statusWordBits : Obligations.StatusWordBits := by
  intro s
  have hbusy : s.busy = decide (s.fsm = .exec) := by cases hf : s.fsm <;> simp [State.busy, hf]
  have hfault : s.faulted = decide (s.fsm = .fault) := by cases hf : s.fsm <;> simp [State.faulted, hf]
  rw [← hbusy, ← hfault]
  exact statusLayout_bits s.mapValid s.faulted s.initDone s.busy s.faultCause

/-! ## The flags' writers -/

/-- `t` has the flags and map results of `s`. -/
structure SameFlags (s t : State) : Prop where
  initDone : t.initDone = s.initDone
  faultCause : t.faultCause = s.faultCause
  map : (t.mapValid, t.mapPixel, t.mapRaw) = (s.mapValid, s.mapPixel, s.mapRaw)

theorem SameFlags.finish {s u : State} (h : SameFlags s u) (m : Mark) : SameFlags s (u.finish m) := by
  obtain ⟨hinit, hcause, hmap⟩ := h
  exact ⟨by simpa using hinit, by simpa using hcause, by simpa using hmap⟩

theorem sameFlags_byteEdge (s : State) (inp : Inputs) (b : Byte) (m : Mark) : SameFlags s (s.byteEdge inp b m) := by
  rcases byteEdge_cases s inp b m with
    ⟨_, e⟩ | ⟨_, _, e⟩ | ⟨_, _, e⟩ | ⟨_, _, e⟩ | ⟨_, _, e⟩ | ⟨_, e⟩ <;> rw [e]
  case inr.inr.inl =>
    exact SameFlags.finish (s := s) (u := ({ s with sclk := false } : State).byteDone b inp.busFault) ⟨rfl, rfl, rfl⟩ m
  all_goals exact ⟨rfl, rfl, rfl⟩

theorem sameFlags_waitEdge (s : State) (ms : Nat) (m : Mark) : SameFlags s (s.waitEdge ms m) := by
  rcases waitEdge_cases s ms m with ⟨_, _, e⟩ | ⟨_, _, e⟩ | ⟨_, e⟩ <;> rw [e]
  · exact SameFlags.finish (s := s) (u := s.waitDone ms) ⟨rfl, rfl, rfl⟩ m
  all_goals exact ⟨rfl, rfl, rfl⟩

/-- An edge of the sequencer that settles writes INIT_DONE as the head of the plan says, or the map results of a sample
taken, or no flag. -/
theorem flags_of_sequence_settled {s t : State} {inp : Inputs} (h : s.sequence inp = .settled t) :
    SameFlags s t ∨
    (∃ v m items, s.plan = ⟨.setInitDone v, m⟩ :: items ∧ t = ({ s with initDone := v } : State).finish m) ∨
    ∃ r m, s.phase = .sampled r ∧ t = (s.mapResult r).finish m := by
  have done (m : Mark) : SameFlags s (s.finish m) := SameFlags.finish ⟨rfl, rfl, rfl⟩ m
  rcases sequence_settled h with ⟨_, rfl⟩ | ⟨op, m, items, hp, hc⟩
  · exact .inl ⟨rfl, rfl, rfl⟩
  · rcases hc with ⟨_, _, _, _, rfl⟩ | ⟨_, _, rfl⟩ | ⟨_, _, _, _, rfl⟩ | ⟨_, _, _, rfl⟩ | ⟨_, _, _, rfl⟩ |
      ⟨b, _, rfl⟩ | ⟨ms, _, rfl⟩ | ⟨v, rfl, rfl⟩ | ⟨_, rfl⟩
    · exact .inl ⟨rfl, rfl, rfl⟩
    · exact .inl { done m with }
    · exact .inl { done m with }
    · exact .inl { done m with }
    · exact .inl { done m with }
    · exact .inl (sameFlags_byteEdge s inp b m)
    · exact .inl (sameFlags_waitEdge s ms m)
    · exact .inr (.inl ⟨v, m, items, hp, rfl⟩)
    · rcases sampleEdge_cases s inp m with ⟨r, hph, e⟩ | ⟨_, _, e⟩ | ⟨_, _, e⟩ | ⟨_, _, e⟩ <;> rw [e]
      · exact .inr (.inr ⟨r, m, hph, rfl⟩)
      all_goals exact .inl ⟨rfl, rfl, rfl⟩

/-- A panel command writes no flag of the block. -/
theorem sameFlags_sequence_run {s v t : State} {inp : Inputs} {i : Instr} (hs : s.sequence inp = .run i v)
    (ht : exec i v = .next t) : SameFlags s t := by
  obtain ⟨m, items, _, _, _, hc, rfl⟩ := sequence_run hs
  obtain ⟨op, d, hi⟩ := decodeFrame_ok (frameCommand_eq_some.1 hc).2
  rw [exec_panelCommand hi] at ht
  cases ht
  have done : SameFlags s (s.finish m) := SameFlags.finish ⟨rfl, rfl, rfl⟩ m
  exact { done with }

/-- What a step without reset does to the flags: nothing, or what their one writer does. -/
theorem flags_of_step {s t : State} (hstep : step s = .next t) (hr : s.inputNow.rst = false) :
    SameFlags s t ∨
    (t.fsm = .fault ∧ t.faultCause ≠ .none ∧ (s.fsm = .idle ∨ s.fsm = .assemble) ∧ t.initDone = s.initDone ∧
      (t.mapValid, t.mapPixel, t.mapRaw) = (s.mapValid, s.mapPixel, s.mapRaw)) ∨
    (s.fsm = .exec ∧ ∃ v m items, s.plan = ⟨.setInitDone v, m⟩ :: items ∧
      t = ({ s.started with initDone := v } : State).finish m) ∨
    (s.fsm = .exec ∧ ∃ r m, s.phase = .sampled r ∧ t = (s.started.mapResult r).finish m) := by
  rcases step_inv hstep with ⟨hrst, _⟩ | ⟨_, _, rfl⟩ | ⟨_, hf, _, _, b, _, hb⟩ | ⟨_, hf, hs | ⟨i, v, hs, ht⟩⟩
  · rw [hr] at hrst
    cases hrst
  · exact .inl ⟨rfl, rfl, rfl⟩
  · rcases hb with ⟨c, hc, rfl⟩ | ⟨i, hd, ht⟩ | ⟨_, _, _, rfl⟩
    · exact .inr (.inl ⟨rfl, spellingFault_ne_none hc, hf, rfl, rfl⟩)
    · obtain ⟨bs, hbs⟩ := encode_of_decodeRequest hd
      rw [exec_request hbs] at ht
      cases ht
      exact .inl ⟨rfl, rfl, rfl⟩
    · exact .inl ⟨rfl, rfl, rfl⟩
  · rcases flags_of_sequence_settled hs with same | hinit | hmap
    · exact .inl { same with }
    · exact .inr (.inr (.inl ⟨hf, hinit⟩))
    · exact .inr (.inr (.inr ⟨hf, hmap⟩))
  · exact .inl { sameFlags_sequence_run hs ht with }

/-- Settles O54: each writer of `flags_of_step` changes its own flag only. -/
theorem flagsChangeOnlyByTheirWriters : Obligations.FlagsChangeOnlyByTheirWriters := by
  intro s t hstep hr
  rcases flags_of_step hstep hr with ⟨hinit, hcause, hmap⟩ | ⟨hfault, hcause, hf, hinit, hmap⟩ |
    ⟨hf, v, m, items, hp, rfl⟩ | ⟨hf, r, m, hph, rfl⟩
  · exact ⟨fun h => absurd hinit h, fun h => absurd hmap h, fun h => absurd hcause h⟩
  · exact ⟨fun h => absurd hinit h, fun h => absurd hmap h, fun _ => ⟨hfault, hcause, hf⟩⟩
  · refine ⟨fun _ => ⟨hf, m, items, ?_⟩, fun h => absurd ?_ h, fun h => absurd ?_ h⟩
    · simpa using hp
    · simp [State.started, State.popInputs]
    · simp [State.started, State.popInputs]
  · refine ⟨fun h => absurd ?_ h, fun _ => ⟨?_, hf, r, hph, ?_⟩, fun h => absurd ?_ h⟩
    all_goals simp [State.started, State.popInputs]

/-! ## The ends of the plan's silent steps -/

/-- Settles O41: the sequencer's arm for an empty plan and for `SetInitDone`. -/
theorem emptyPlanLeadsToIdle : Obligations.EmptyPlanLeadsToIdle := by
  refine ⟨fun s hf hp hr => ?_, fun s v m items hf hp hr => ?_⟩
  · rw [step_of_settled (t := { s.started with fsm := .idle })]
    · rfl
    · rw [edge_of_exec hf hr]
      simp [State.sequence, State.started, State.popInputs, hp]
  · rw [step_of_settled (t := ({ s.started with initDone := v } : State).finish m)]
    · simp [State.finish, State.started, State.popInputs, hp]
    · rw [edge_of_exec hf hr]
      simp [State.sequence, State.started, State.popInputs, hp]

end Sys2Proof.Machine
end

section
/-! The plans of the drawing requests and of INIT: their micro-operations and their marks (42_display_driver.md). -/

namespace Sys2Proof.Machine

/-! ## A rectangle -/

theorem tx_length (o : Byte) (p : List Byte) : (tx o p).length = p.length + 5 := by
  simp [tx, txOpening]

theorem windowEvents_length (x0 y0 x1 y1 : Word) : (windowEvents x0 y0 x1 y1).length = 18 := by
  simp [windowEvents, tx_length]

/-- The micro-operations of a rectangle's plan, with the window's last coordinates named. -/
theorem ops_rectPlan {x y w h x1 y1 : Word} (c : Word) (hx : x + w - 1 = x1) (hy : y + h - 1 = y1) :
    (rectPlan x y w h c).map (fun it => it.op) =
      (tx 0x2A [hi8 x, lo8 x, hi8 x1, lo8 x1] ++ tx 0x2B [hi8 y, lo8 y, hi8 y1, lo8 y1] ++
        tx 0x2C (List.replicate (w.toNat * h.toNat) [hi8 c, lo8 c]).flatten).map MicroOp.emit := by
  rw [rectPlan, hx, hy, List.map_append, ops_emits, ops_streamPlan, ← List.map_append]
  rfl

theorem marks_rectPlan (x y w h c : Word) :
    (rectPlan x y w h c).map (fun it => it.mark) = rectMarks (w.toNat * h.toNat) := by
  rw [rectPlan, List.map_append, marks_emits, windowEvents_length, marks_streamPlan]
  simp only [rectMarks, List.append_assoc]

theorem rectInBounds_of_le {cfg : Config} {x y w h : Word} (hx : x.toNat + w.toNat ≤ cfg.width)
    (hy : y.toNat + h.toNat ≤ cfg.height) : rectInBounds cfg x y w h = true := by
  simp [rectInBounds, hx, hy]

/-- Within bounds DRAW_RECT plans its rectangle, unless that has no area and ZERO_AREA is DROP
(42_display_driver.md R211, R215). -/
theorem drawPlan_eq_rectPlan {cfg : Config} {x y w h : Word} (c : Word) (hx : x.toNat + w.toNat ≤ cfg.width)
    (hy : y.toNat + h.toNat ≤ cfg.height) (hkeep : ¬((w = 0 ∨ h = 0) ∧ cfg.zeroArea = .drop)) :
    drawPlan cfg x y w h c = rectPlan x y w h c := by
  simp only [drawPlan, rectInBounds_of_le hx hy, Bool.not_true, Bool.false_eq_true, if_false, if_neg hkeep]

/-- Settles O21: the plan is `rectPlan`. -/
theorem drawRectPlansWindowAndStream : Obligations.DrawRectPlansWindowAndStream := by
  intro x y w h c x1 y1 s hx hy hw hh hx1 hy1
  have area : ¬((w = 0 ∨ h = 0) ∧ s.cfg.zeroArea = .drop) := by
    rintro ⟨rfl | rfl, -⟩ <;> simp at hw hh
  have hplan := drawPlan_eq_rectPlan c hx hy area
  refine ⟨drawPlan s.cfg x y w h c, rfl, ?_, ?_⟩
  · rw [hplan]
    exact ops_rectPlan c (by bv_omega) (by bv_omega)
  · rw [hplan, marks_rectPlan]

/-- Settles O23: under EMIT the plan is `rectPlan` of a rectangle without pixels, under DROP it is empty. -/
theorem zeroAreaFollowsThePolicy : Obligations.ZeroAreaFollowsThePolicy := by
  intro x y w h c s hx hy harea
  refine ⟨drawPlan s.cfg x y w h c, rfl, fun hdrop => ?_, fun hemit => ?_⟩
  · simp only [drawPlan, if_pos (And.intro harea hdrop), ite_self]
  · have hplan : drawPlan s.cfg x y w h c = rectPlan x y w h c := drawPlan_eq_rectPlan c hx hy (by simp [hemit])
    have pixels : w.toNat * h.toNat = 0 := by rcases harea with rfl | rfl <;> simp
    refine ⟨x + w - 1, y + h - 1, by bv_omega, by bv_omega, ?_, ?_⟩
    · rw [hplan, ops_rectPlan c rfl rfl, pixels]
      rfl
    · rw [hplan, marks_rectPlan, pixels]

/-! ## The screen -/

/-- The fill is the rectangle of the whole screen (42_display_driver.md R221). -/
theorem fillPlan_eq_rectPlan {cfg : Config} {w h : Word} (hw : w.toNat = cfg.width) (hh : h.toNat = cfg.height)
    (c : Word) : fillPlan cfg c = rectPlan 0 0 w h c := by
  obtain ⟨⟨hw1, -⟩, ⟨hh1, -⟩, -⟩ := cfg.wf
  have hx1 : 0 + w - 1 = BitVec.ofNat 16 (cfg.width - 1) := by rw [← hw] at hw1 ⊢; bv_omega
  have hy1 : 0 + h - 1 = BitVec.ofNat 16 (cfg.height - 1) := by rw [← hh] at hh1 ⊢; bv_omega
  rw [fillPlan, rectPlan, hw, hh, hx1, hy1]

theorem marks_fillPlan (cfg : Config) (c : Word) :
    (fillPlan cfg c).map (fun it => it.mark) = rectMarks (cfg.width * cfg.height) := by
  rw [fillPlan, List.map_append, marks_emits, windowEvents_length, marks_streamPlan]
  simp only [rectMarks, List.append_assoc]

/-- Settles O24: `fillPlan` is the screen's `rectPlan`, which is what DRAW_RECT plans. -/
theorem fillScreenIsDrawRectOfTheScreen : Obligations.FillScreenIsDrawRectOfTheScreen := by
  intro c w h x1 y1 s hw hh hx1 hy1
  obtain ⟨⟨hw1, -⟩, ⟨hh1, -⟩, -⟩ := s.cfg.wf
  have hfill := fillPlan_eq_rectPlan hw hh c
  have area : ¬((w = 0 ∨ h = 0) ∧ s.cfg.zeroArea = .drop) := by
    rintro ⟨rfl | rfl, -⟩
    · simp at hw; omega
    · simp at hh; omega
  have hdraw : drawPlan s.cfg 0 0 w h c = rectPlan 0 0 w h c :=
    drawPlan_eq_rectPlan c (by simp [hw]) (by simp [hh]) area
  refine ⟨?_, fillPlan s.cfg c, rfl, ?_, marks_fillPlan s.cfg c⟩
  · show execFillScreen c s = execDrawRect 0 0 w h c s
    rw [execFillScreen, execDrawRect, hfill, hdraw]
  · rw [hfill, ops_rectPlan (x1 := x1) (y1 := y1) c (by bv_omega) (by bv_omega), hw, hh]
    rfl

/-! ## INIT -/

/-- What is mapped over the places of a list may be read off the list at each place. -/
theorem flatMap_zipIdx {α β : Type} (l : List α) (default : α) (f : α × Nat → List β) :
    l.zipIdx.flatMap f = (List.range l.length).flatMap (fun k => f (l.getD k default, k)) := by
  have : l.zipIdx = (List.range l.length).map (fun k => (l.getD k default, k)) := by
    apply List.ext_getElem <;> simp
    intro k hk
    simp [hk]
  rw [this, List.flatMap_map]

/-- The WAIT of step `k`, where its delay is not 0 (42_display_driver.md R192). -/
theorem initStep_wait (cfg : Config) (k : Nat) :
    (if 0 < initDelay cfg k then [Event.wait (initDelay cfg k)] else []) =
      (if k = 0 ∧ 0 < cfg.delaySwresetMs then [Event.wait cfg.delaySwresetMs] else []) ++
        (if k = 1 ∧ 0 < cfg.delaySlpoutMs then [Event.wait cfg.delaySlpoutMs] else []) := by
  match k with
  | 0 | 1 => simp [initDelay]
  | k + 2 => simp [initDelay]

theorem initDelay_pos_iff (cfg : Config) (k : Nat) :
    0 < initDelay cfg k ↔ k = 0 ∧ 0 < cfg.delaySwresetMs ∨ k = 1 ∧ 0 < cfg.delaySlpoutMs := by
  match k with
  | 0 | 1 => simp [initDelay]
  | k + 2 => simp [initDelay]

theorem ops_initStepPlan (cfg : Config) (k : Nat) :
    (initStepPlan cfg k).map (fun it => it.op) =
      (tx (romRead cfg k).1 (romRead cfg k).2 ++
        (if 0 < initDelay cfg k then [Event.wait (initDelay cfg k)] else [])).map MicroOp.emit := by
  rw [initStepPlan, List.map_append, ops_emits, tx]
  split <;> simp

theorem marks_initStepPlan (cfg : Config) (k : Nat) :
    (initStepPlan cfg k).map (fun it => it.mark) =
      List.replicate (4 + (romPayload cfg k).length + if 0 < initDelay cfg k then 1 else 0) Mark.plain
        ++ [Mark.initStep k] := by
  have opening : (txOpening (romRead cfg k).1 (romRead cfg k).2).length = 4 + (romPayload cfg k).length := by
    simp [txOpening, romRead]
    omega
  rw [initStepPlan, List.map_append, marks_emits, opening]
  split
  · rw [List.replicate_add _ 1]
    simp
  · simp

/-- The table's row `k`, of its two columns. -/
theorem romRead_eq_getD_zip (cfg : Config) {k : Nat} (hk : k < nInit) :
    (romOpcodes.zip cfg.initPayload).getD k (0, []) = romRead cfg k := by
  obtain ⟨-, -, -, -, ⟨hlen, -⟩, -⟩ := cfg.wf
  have hop : k < romOpcodes.length := hk
  have hpayload : k < cfg.initPayload.length := by rw [hlen]; exact hk
  simp [romRead, romPayload, List.getD, hop, hpayload]

/-- Settles O19: the plan is `initPlan`; the table's steps are read off at their places, and each step's plan is what
`ops_initStepPlan` and `marks_initStepPlan` say. -/
theorem initPlansTheTableAndTheFill : Obligations.InitPlansTheTableAndTheFill := by
  intro s
  obtain ⟨-, -, -, -, ⟨hlen, -⟩, -⟩ := s.cfg.wf
  refine ⟨initPlan s.cfg, rfl, ?_, ?_⟩
  · have table : (romOpcodes.zip s.cfg.initPayload).length = nInit := by simp [hlen, romOpcodes, nInit]
    simp only [initPlan, List.map_cons, List.map_append, List.map_flatMap, List.map_nil]
    rw [← romOpcodes, flatMap_zipIdx _ (0, []), table]
    congr 3
    refine List.flatMap_congr fun k hk => ?_
    rw [ops_initStepPlan, initStep_wait, romRead_eq_getD_zip s.cfg (List.mem_range.1 hk), ← List.append_assoc]
    simp only [List.map_append]
  · simp only [initPlan, List.map_cons, List.map_append, List.map_flatMap, List.map_nil, marks_fillPlan]
    rw [flatMap_zipIdx _ [], hlen]
    congr 3
    refine List.flatMap_congr fun k _ => ?_
    simp only [marks_initStepPlan, initDelay_pos_iff, romPayload]

end Sys2Proof.Machine
end

section
/-! How many edges each micro-operation takes and what they come to (10_state.md R43-R46; logs 6, 12 and 13). -/

namespace Sys2Proof.Machine

/-! ## Edges in EXEC -/

theorem step_of_sequence {s t : State} (hf : s.fsm = .exec) (hr : s.inputNow.rst = false)
    (h : s.started.sequence s.inputNow = .settled t) : step s = .next t :=
  step_of_settled ((edge_of_exec hf hr).trans h)

/-- `s` after `k` edges without reset at which nothing moved but the progress of the head of the plan. -/
def State.waited (s : State) (k : Nat) (ph : Phase) : State :=
  { s with inputs := s.inputs.drop k, rstPrev := false, phase := ph }

theorem started_eq_waited (s : State) : s.started = s.waited 1 s.phase := by
  simp [State.started, State.popInputs, State.waited]

theorem waited_started (s : State) (k : Nat) (ph : Phase) : (s.waited k ph).started = s.waited (k + 1) ph := by
  simp [State.started, State.popInputs, State.waited]

section
variable {s : State} {m : Mark} {items : List PlanItem}

theorem sequence_byte {b : Byte} (hp : s.plan = ⟨.emit (.byte b), m⟩ :: items) (inp : Inputs) :
    s.sequence inp = .settled (s.byteEdge inp b m) := by simp only [State.sequence, hp]

theorem sequence_wait {ms : Nat} (hp : s.plan = ⟨.emit (.wait ms), m⟩ :: items) (inp : Inputs) :
    s.sequence inp = .settled (s.waitEdge ms m) := by simp only [State.sequence, hp]

theorem sequence_setInitDone {v : Bool} (hp : s.plan = ⟨.setInitDone v, m⟩ :: items) (inp : Inputs) :
    s.sequence inp = .settled (({ s with initDone := v } : State).finish m) := by simp only [State.sequence, hp]

theorem sequence_sample (hp : s.plan = ⟨.sample, m⟩ :: items) (inp : Inputs) :
    s.sequence inp = .settled (s.sampleEdge inp m) := by simp only [State.sequence, hp]

/-- What happens where a CS or CD change has kept its distance. -/
def lineHappens : Event → State → Edge
  | .cs .act, s => .settled (s.driveCs .act)
  | .cs .inact, s => s.closeFrame
  | .cd l, s => .settled (s.driveCd l)
  | .byte _, s => .settled s
  | .wait _, s => .settled s

theorem sequence_line {e : Event} (hp : s.plan = ⟨.emit e, m⟩ :: items) (he : (∃ a, e = .cs a) ∨ ∃ l, e = .cd l)
    (inp : Inputs) : s.sequence inp = s.lineEdge (lineHappens e) m := by
  rcases he with ⟨a, rfl⟩ | ⟨l, rfl⟩
  · cases a <;> simp only [State.sequence, hp] <;> rfl
  · simp only [State.sequence, hp]
    rfl

end

/-! ## A CS or CD change -/

theorem lineEdge_ready {s : State} {m : Mark} {D : Nat} (happens : State → Edge) (h : s.phase = .ready)
    (hD : sclkDiv s.cfg = D + 1) : s.lineEdge happens m = .settled { s with phase := .gap D } := by
  simp only [State.lineEdge, h, hD, Nat.add_sub_cancel]

theorem lineEdge_gap_succ {s : State} {m : Mark} {k : Nat} (happens : State → Edge) (h : s.phase = .gap (k + 1)) :
    s.lineEdge happens m = .settled { s with phase := .gap k } := by simp only [State.lineEdge, h]

/-- The distance from SCLK is counted down, one edge after another (41_transport.md R169). -/
theorem runEdges_gap {s : State} {e : Event} {m : Mark} {items : List PlanItem} {D n : Nat} (hf : s.fsm = .exec)
    (hp : s.plan = ⟨.emit e, m⟩ :: items) (he : (∃ a, e = .cs a) ∨ ∃ l, e = .cd l) (hD : sclkDiv s.cfg = D + 1)
    (hph : s.phase = .ready) (hn : s.NoReset n) :
    ∀ j, j ≤ D → j < n → runEdges (j + 1) s = .next (s.waited (j + 1) (.gap (D - j))) := by
  intro j
  induction j with
  | zero =>
    intro _ h0
    refine runEdges_snoc (runEdges_zero s) (step_of_sequence hf (noReset_now hn h0) ?_)
    rw [started_eq_waited, sequence_line (s := s.waited _ _) hp he, lineEdge_ready (s := s.waited _ _) _ hph hD]
    rfl
  | succ j ih =>
    intro hj hlt
    have hleft : D - j = (D - (j + 1)) + 1 := by omega
    refine runEdges_snoc (ih (by omega) (by omega)) (step_of_sequence hf (noReset_at hn hlt) ?_)
    rw [waited_started, sequence_line (s := s.waited _ _) hp he, hleft, lineEdge_gap_succ _ rfl]
    rfl

/-! ## A byte -/

section
variable {s : State} {b : Byte} {m : Mark} {items : List PlanItem}

theorem step_byte (hf : s.fsm = .exec) (hp : s.plan = ⟨.emit (.byte b), m⟩ :: items) (hr : s.inputNow.rst = false) :
    step s = .next (s.started.byteEdge s.inputNow b m) :=
  step_of_sequence hf hr (sequence_byte (s := s.started) hp _)

/-- A half period of SCLK is counted down, one edge after another. `f` is the phase of one level of `sclk`. -/
theorem runEdges_halfPeriod {f : Nat → Phase} {d n : Nat}
    (count : ∀ (u : State) (inp : Inputs) (k : Nat), u.phase = f (k + 1) → u.byteEdge inp b m = { u with phase := f k })
    (hf : s.fsm = .exec) (hp : s.plan = ⟨.emit (.byte b), m⟩ :: items) (hrst : s.rstPrev = false) (hph : s.phase = f d)
    (hn : s.NoReset n) : ∀ j, j ≤ d → j ≤ n → runEdges j s = .next (s.waited j (f (d - j))) := by
  intro j
  induction j with
  | zero =>
    intro _ _
    rw [runEdges_zero, State.waited, List.drop_zero, ← hrst, Nat.sub_zero, ← hph]
  | succ j ih =>
    intro hj hlt
    have hleft : d - j = (d - (j + 1)) + 1 := by omega
    refine runEdges_snoc (ih (by omega) (by omega)) ?_
    rw [step_byte (s := s.waited j _) hf hp (noReset_at hn hlt), waited_started, hleft, count _ _ (d - (j + 1)) rfl]
    rfl

theorem byteEdge_low_succ {u : State} {inp : Inputs} {k : Nat} (h : u.phase = .low (k + 1)) :
    u.byteEdge inp b m = { u with phase := .low k } := by simp only [State.byteEdge, h]

theorem byteEdge_high_succ {u : State} {inp : Inputs} {k : Nat} (h : u.phase = .high (k + 1)) :
    u.byteEdge inp b m = { u with phase := .high k } := by simp only [State.byteEdge, h]

theorem byteEdge_last {inp : Inputs} (h : s.phase = .high 0) (h0 : s.bitIdx = 0) :
    s.byteEdge inp b m = (({ s with sclk := false } : State).byteDone b inp.busFault).finish m := by
  simp only [State.byteEdge, h, h0, if_true]

theorem byteEdge_next_bit {inp : Inputs} (h : s.phase = .high 0) (h0 : s.bitIdx ≠ 0) :
    s.byteEdge inp b m = s.driveBit (s.bitIdx - 1) := by
  simp only [State.byteEdge, h, h0, if_false]

/-- `s` after `k` edges, at the end of the period of a bit: `sclk` is 1 and about to fall. -/
def State.bitSampled (s : State) (k : Nat) : State := { s.waited k (.high 0) with sclk := true }

theorem bitSampled_started (s : State) (k : Nat) : (s.bitSampled k).started = s.bitSampled (k + 1) := by
  simp [State.started, State.popInputs, State.bitSampled, State.waited]

/-- One period of SCLK but its last edge (41_transport.md R168). -/
theorem runEdges_bit {D : Nat} (hf : s.fsm = .exec) (hp : s.plan = ⟨.emit (.byte b), m⟩ :: items)
    (hrst : s.rstPrev = false) (hD : sclkDiv s.cfg = D + 1) (hph : s.phase = .low D) (hn : s.NoReset (2 * D + 1)) :
    runEdges (2 * D + 1) s = .next (s.bitSampled (2 * D + 1)) := by
  have low := runEdges_halfPeriod (fun _ _ _ => byteEdge_low_succ) hf hp hrst hph hn D le_rfl (by omega)
  have rise : step (s.waited D (.low (D - D))) = .next { s.waited (D + 1) (.high D) with sclk := true } := by
    rw [step_byte (s := s.waited _ _) hf hp (noReset_at hn (by omega)), waited_started, Nat.sub_self]
    simp [State.byteEdge, State.waited, hD]
  have high := runEdges_halfPeriod (s := { s.waited (D + 1) (.high D) with sclk := true })
    (fun _ _ _ => byteEdge_high_succ) hf hp rfl rfl
    (noReset_drop (k := D + 1) (n := D) (by rwa [show D + 1 + D = 2 * D + 1 by omega]) rfl) D le_rfl le_rfl
  rw [show 2 * D + 1 = (D + 1) + D by omega, runEdges_add (runEdges_snoc low rise), high]
  simp [State.bitSampled, State.waited]

/-- `s` after the `k` edges at which what is left of a byte goes out. -/
def State.byteShifted (s : State) (k : Nat) : State :=
  { s.waited k (.high 0) with sclk := false, bitIdx := 0, mosi := s.shreg.getLsbD 0 }

/-- The bits from `i` down to 0, and the end of the byte. -/
theorem runEdges_bits {D : Nat} (i : Nat) (hi : i < 8) : ∀ {s : State}, s.fsm = .exec →
    s.plan = ⟨.emit (.byte b), m⟩ :: items → s.rstPrev = false → sclkDiv s.cfg = D + 1 → s.phase = .low D →
    s.bitIdx = BitVec.ofNat 3 i → s.mosi = s.shreg.getLsbD i → s.NoReset (2 * (D + 1) * (i + 1)) →
    ∃ faulty, runEdges (2 * (D + 1) * (i + 1)) s =
      .next (((s.byteShifted (2 * (D + 1) * (i + 1))).byteDone b faulty).finish m) := by
  induction i with
  | zero =>
    intro s hf hp hrst hD hph hbit hmosi hn
    rw [show 2 * (D + 1) * (0 + 1) = 2 * D + 1 + 1 by omega] at hn ⊢
    have sampled := runEdges_bit hf hp hrst hD hph (noReset_mono hn (Nat.le_succ _))
    refine ⟨(s.bitSampled (2 * D + 1)).inputNow.busFault, runEdges_snoc sampled ?_⟩
    rw [step_byte (s := s.bitSampled _) hf hp (noReset_at hn (Nat.lt_succ_self _)), bitSampled_started,
      byteEdge_last (s := s.bitSampled _) rfl hbit]
    have shifted : ({ s.bitSampled (2 * D + 1 + 1) with sclk := false } : State) = s.byteShifted (2 * D + 1 + 1) := by
      simp [State.bitSampled, State.byteShifted, State.waited, hbit, hmosi]
    rw [shifted]
  | succ i ih =>
    intro s hf hp hrst hD hph hbit hmosi hn
    rw [show 2 * (D + 1) * (i + 1 + 1) = (2 * D + 1 + 1) + 2 * (D + 1) * (i + 1) by ring] at hn ⊢
    have sampled := runEdges_bit hf hp hrst hD hph (noReset_mono hn (by omega))
    have hmore : s.bitIdx ≠ 0 := by rw [hbit]; bv_omega
    have hnext : s.bitIdx - 1 = BitVec.ofNat 3 i := by rw [hbit]; bv_omega
    have falls : step (s.bitSampled (2 * D + 1)) =
        .next ((s.bitSampled (2 * D + 1 + 1)).driveBit (BitVec.ofNat 3 i)) := by
      rw [step_byte (s := s.bitSampled _) hf hp (noReset_at hn (by omega)), bitSampled_started,
        byteEdge_next_bit (s := s.bitSampled _) rfl hmore, ← hnext]
      rfl
    have hshift : (BitVec.ofNat 3 i).toNat = i := by rw [BitVec.toNat_ofNat, Nat.mod_eq_of_lt (by omega)]
    obtain ⟨faulty, rest⟩ := ih (by omega) (s := (s.bitSampled (2 * D + 1 + 1)).driveBit (BitVec.ofNat 3 i)) hf hp rfl
      hD (by rw [driveBit_phase]; exact congrArg Phase.low (by show sclkDiv s.cfg - 1 = D; omega)) rfl
      (by rw [driveBit_mosi, hshift]; rfl) (noReset_drop hn rfl)
    refine ⟨faulty, ?_⟩
    rw [runEdges_add (runEdges_snoc sampled falls), rest]
    simp [State.byteShifted, State.waited, State.bitSampled, State.driveBit]

/-- A byte takes 16 half periods and the edge that starts it (41_transport.md R168; log 6). -/
theorem runEdges_byte {s : State} (hf : s.fsm = .exec) (hp : s.plan = ⟨.emit (.byte b), m⟩ :: items)
    (hph : s.phase = .ready) {n : Nat} (hlen : n = 16 * sclkDiv s.cfg + 1) (hn : s.NoReset n) :
    ∃ faulty, runEdges n s =
      .next (((({ s with shreg := b } : State).byteShifted n).byteDone b faulty).finish m) := by
  obtain ⟨D, hD⟩ : ∃ D, sclkDiv s.cfg = D + 1 := ⟨_, (Nat.sub_add_cancel (sclkDiv_pos s.cfg)).symm⟩
  have hlen : n = 1 + 2 * (D + 1) * (7 + 1) := by omega
  subst hlen
  have start : step s = .next (({ s.started with shreg := b } : State).driveBit 7) := by
    have hphase : s.started.phase = .ready := hph
    rw [step_byte hf hp (noReset_now hn (by omega))]
    simp only [State.byteEdge, hphase]
  obtain ⟨faulty, rest⟩ := runEdges_bits (D := D) 7 (by omega) (s := ({ s.started with shreg := b } : State).driveBit 7)
    hf hp rfl hD (congrArg Phase.low (by show sclkDiv s.cfg - 1 = D; omega)) rfl rfl
    (noReset_drop (k := 1) hn (by simp [State.started, State.popInputs]))
  refine ⟨faulty, ?_⟩
  rw [runEdges_add (runEdges_snoc (runEdges_zero s) start), rest]
  simp [State.byteShifted, State.waited, State.driveBit, State.started, State.popInputs, Nat.add_comm]

end

/-! ## A WAIT -/

section
variable {s : State} {ms : Nat} {m : Mark} {items : List PlanItem}

theorem step_wait (hf : s.fsm = .exec) (hp : s.plan = ⟨.emit (.wait ms), m⟩ :: items) (hr : s.inputNow.rst = false) :
    step s = .next (s.started.waitEdge ms m) :=
  step_of_sequence hf hr (sequence_wait (s := s.started) hp _)

theorem waitEdge_starts {u : State} (h : u.phase = .ready) :
    u.waitEdge ms m = { u with delayCnt := 0, phase := .delay } := by simp only [State.waitEdge, h]

theorem waitEdge_counts {u : State} (h : u.phase = .delay) (hc : u.delayCnt + 1 < waitEdges u.cfg ms) :
    u.waitEdge ms m = { u with delayCnt := u.delayCnt + 1 } := by
  simp only [State.waitEdge, h, if_neg (Nat.not_le.2 hc)]

theorem waitEdge_ends {u : State} (h : u.phase = .delay) (hc : waitEdges u.cfg ms ≤ u.delayCnt + 1) :
    u.waitEdge ms m = (u.waitDone ms).finish m := by
  simp only [State.waitEdge, h, if_pos hc]

/-- `s` after `k` edges of a WAIT, of which `j` have been counted. -/
def State.delayed (s : State) (k j : Nat) : State := { s.waited k .delay with delayCnt := j }

theorem delayed_started (k j : Nat) : (s.delayed k j).started = s.delayed (k + 1) j := by
  simp [State.delayed, State.started, State.popInputs, State.waited]

/-- The count of a WAIT goes on while it is short of its edges (10_state.md R46). -/
theorem runEdges_delay (hf : s.fsm = .exec) (hp : s.plan = ⟨.emit (.wait ms), m⟩ :: items) (hph : s.phase = .ready)
    {n : Nat} (hn : s.NoReset n) : ∀ j, j < max 1 (waitEdges s.cfg ms) → j < n →
      runEdges (j + 1) s = .next (s.delayed (j + 1) j) := by
  intro j
  induction j with
  | zero =>
    intro _ h0
    refine runEdges_snoc (runEdges_zero s) ?_
    rw [step_wait hf hp (noReset_now hn h0), started_eq_waited, waitEdge_starts (u := s.waited _ _) hph]
    rfl
  | succ j ih =>
    intro hj hlt
    refine runEdges_snoc (ih (by omega) (by omega)) ?_
    have count : (s.delayed (j + 1 + 1) j).delayCnt + 1 < waitEdges (s.delayed (j + 1 + 1) j).cfg ms := by
      show j + 1 < waitEdges s.cfg ms
      omega
    rw [step_wait (s := s.delayed (j + 1) j) hf hp (noReset_at hn hlt), delayed_started, waitEdge_counts rfl count]
    rfl

/-- The last edge of a WAIT (10_state.md R46; logs 6 and 12). -/
theorem runEdges_wait (hf : s.fsm = .exec) (hp : s.plan = ⟨.emit (.wait ms), m⟩ :: items) (hph : s.phase = .ready)
    {k : Nat} (hk : max 1 (waitEdges s.cfg ms) = k + 1) (hn : s.NoReset (k + 1 + 1)) :
    runEdges (k + 1 + 1) s = .next (((s.delayed (k + 1 + 1) k).waitDone ms).finish m) := by
  refine runEdges_snoc (runEdges_delay hf hp hph hn k (by omega) (by omega)) ?_
  have counted : waitEdges (s.delayed (k + 1 + 1) k).cfg ms ≤ (s.delayed (k + 1 + 1) k).delayCnt + 1 := by
    show waitEdges s.cfg ms ≤ k + 1
    omega
  rw [step_wait (s := s.delayed (k + 1) k) hf hp (noReset_at hn (Nat.lt_succ_self _)), delayed_started,
    waitEdge_ends rfl counted]

end

/-- Settles O46: the count is `waitEdges`; until it is over the state is `State.delayed`, and then `State.waitDone`. -/
theorem waitLastsItsTime : Obligations.WaitLastsItsTime := by
  intro s ms n m items hf hph hp hms hlow hhigh hn
  have hclk : 0 < s.cfg.clkHz := by
    obtain ⟨-, -, -, -, -, hclk⟩ := s.cfg.wf
    exact Nat.lt_of_lt_of_le (by decide) hclk
  have hcycles : 0 < ms * s.cfg.clkHz := Nat.mul_pos hms hclk
  have hedges : waitEdges s.cfg ms = n := by
    unfold waitEdges
    omega
  obtain ⟨k, rfl⟩ : ∃ k, n = k + 1 := ⟨n - 1, by omega⟩
  have hmax : max 1 (waitEdges s.cfg ms) = k + 1 := by omega
  refine ⟨fun j hj => ?_, _, runEdges_wait hf hp hph hmax hn, ?_⟩
  · cases j with
    | zero => exact ⟨s, rfl, rfl, rfl, rfl, rfl, rfl, rfl, fun _ => rfl⟩
    | succ j =>
      exact ⟨_, runEdges_delay hf hp hph hn j (by omega) (by omega), rfl, rfl, rfl, rfl, rfl, rfl,
        fun rule => by cases rule <;> rfl⟩
  · have hplan : (s.delayed (k + 1 + 1) k).plan = ⟨.emit (.wait ms), m⟩ :: items := hp
    refine ⟨by simp [hplan], ?_, ?_, ?_, ?_, ?_, fun rule => ?_⟩
    · simp [State.delayed, State.waited]
    · simp [State.delayed, State.waited]
    · simp [State.delayed, State.waited]
    · simp [State.delayed, State.waited]
    · simp [State.delayed, State.waited]
    · cases rule <;> simp [State.delayed, State.waited, Panel.wait]

/-! ## A sample -/

section
variable {s : State} {items : List PlanItem}

theorem step_sample {m : Mark} (hf : s.fsm = .exec) (hp : s.plan = ⟨.sample, m⟩ :: items)
    (hr : s.inputNow.rst = false) : step s = .next (s.started.sampleEdge s.inputNow m) :=
  step_of_sequence hf hr (sequence_sample (s := s.started) hp _)

theorem started_of_inputs {inp : Inputs} {rest : List Inputs} (hin : s.inputs = inp :: rest) :
    s.started = { s with inputs := rest, rstPrev := false } := by
  simp [State.started, State.popInputs, hin]

theorem inputNow_of_inputs {inp : Inputs} {rest : List Inputs} (hin : s.inputs = inp :: rest) : s.inputNow = inp := by
  simp [State.inputNow, hin]

/-- From the edge that asks for a sample on: the wait, the sample, the results (43_input_mapper.md R233). -/
theorem runEdges_adc {taken last : Inputs} {rest : List Inputs} (htaken : taken.rst = false) (hlast : last.rst = false)
    (hack : taken.adcAck = true) (waits : List Inputs) : ∀ {s : State}, s.fsm = .exec → s.phase = .adc →
    s.plan = ⟨.sample, .plain⟩ :: items → s.inputs = waits ++ taken :: last :: rest →
    (∀ w ∈ waits, w.rst = false ∧ w.adcAck = false) →
    runEdges (waits.length + 2) s = .next ((({ s with
      inputs := rest, rstPrev := false, phase := .sampled taken.adcData } : State).mapResult taken.adcData).finish
        .plain) := by
  induction waits with
  | nil =>
    intro s hf hph hp hin _
    have hin : s.inputs = taken :: last :: rest := hin
    have sampled : step s = .next { s with
        inputs := last :: rest, rstPrev := false, phase := .sampled taken.adcData } := by
      rw [step_sample hf hp (by rw [inputNow_of_inputs hin, htaken]), inputNow_of_inputs hin, started_of_inputs hin]
      simp only [State.sampleEdge, hph, hack, if_true]
    refine runEdges_snoc (runEdges_snoc (runEdges_zero s) sampled) ?_
    rw [step_sample (s := { s with inputs := last :: rest, rstPrev := false, phase := .sampled taken.adcData })
      hf hp hlast]
    rfl
  | cons w waits ih =>
    intro s hf hph hp hin hw
    obtain ⟨hwr, hwa⟩ := hw w List.mem_cons_self
    have hin : s.inputs = w :: (waits ++ taken :: last :: rest) := hin
    have waiting : step s = .next { s with inputs := waits ++ taken :: last :: rest, rstPrev := false } := by
      rw [step_sample hf hp (by rw [inputNow_of_inputs hin, hwr]), inputNow_of_inputs hin, started_of_inputs hin]
      simp only [State.sampleEdge, hph, hwa, Bool.false_eq_true, if_false]
    rw [List.length_cons, Nat.add_right_comm, runEdges_succ waiting]
    exact ih (s := { s with inputs := waits ++ taken :: last :: rest, rstPrev := false }) hf hph hp rfl
      (fun x hx => hw x (List.mem_cons_of_mem _ hx))

end

/-- Settles O39: the first edge asks for the sample, and `runEdges_adc` says the rest. -/
theorem sampleWritesTheMapResult : Obligations.SampleWritesTheMapResult := by
  intro s first taken last waits rest items hf hph hp hin hfirst htaken hlast hw hack
  have asks : step s = .next { s with
      inputs := waits ++ taken :: last :: rest, rstPrev := false, adcWait := true, phase := .adc } := by
    rw [step_sample hf hp (by rw [inputNow_of_inputs hin, hfirst]), started_of_inputs hin]
    simp only [State.sampleEdge, hph]
  rw [runEdges_succ asks, runEdges_adc (items := items) htaken hlast hack waits
    (s := { s with inputs := waits ++ taken :: last :: rest, rstPrev := false, adcWait := true, phase := .adc })
    hf rfl hp rfl hw]
  simp [State.mapResult, State.finish, State.applyMark, hp]

end Sys2Proof.Machine
end

section
/-! A plan runs to its end: each micro-operation has its effect and is removed, one after another (10_state.md R43). -/

namespace Sys2Proof.Machine

/-! ## What a plan does to the flags and counters -/

/-- The values a plan writes to INIT_DONE (10_state.md R51). -/
def flagWrites (plan : List PlanItem) : List Bool :=
  plan.filterMap (fun it => match it.op with
    | .emit _ => none
    | .setInitDone v => some v
    | .sample => none)

theorem flagWrites_append (p q : List PlanItem) : flagWrites (p ++ q) = flagWrites p ++ flagWrites q := by
  simp [flagWrites]

/-- The values a plan's marks give `init_idx` (10_state.md R44). -/
def indexWrites (plan : List PlanItem) : List (BitVec 5) :=
  (initStepsLeft plan).map (fun k => BitVec.ofNat 5 (k + 1))

theorem indexWrites_append (p q : List PlanItem) : indexWrites (p ++ q) = indexWrites p ++ indexWrites q := by
  simp [indexWrites, initStepsLeft_append]

/-- The last of several writes wins. -/
theorem getLastD_append {α : Type} (p q : List α) (a : α) : (p ++ q).getLastD a = q.getLastD (p.getLastD a) := by
  simp [List.getLastD_eq_getLast?, List.getLast?_append]

/-! ## The effect of a micro-operation -/

theorem SameBesidesExecution.trans {s t u : State} (h : SameBesidesExecution s t) (h' : SameBesidesExecution t u) :
    SameBesidesExecution s u :=
  ⟨h'.cfg.trans h.cfg, h'.rq.trans h.rq, h'.faultCause.trans h.faultCause, h'.adcWait.trans h.adcWait,
    h'.mapValid.trans h.mapValid, h'.mapPixel.trans h.mapPixel, h'.mapRaw.trans h.mapRaw⟩

/-- `v` is `s` after the effect of `op`, which stands at the head of the plan still: the events and the flag are
written, and control and what execution does not touch are as before. -/
structure Effect (op : MicroOp) (s v : State) : Prop where
  fsm : v.fsm = s.fsm
  plan : v.plan = s.plan
  initIdx : v.initIdx = s.initIdx
  initDone : v.initDone = (flagWrites [⟨op, .plain⟩]).getLastD s.initDone
  log : v.log = ((planEvents [⟨op, .plain⟩]).map TraceItem.event).reverse ++ s.log
  same : SameBesidesExecution s v

/-- `t` is `s` after `p`, the first part of its plan, has been performed in `n` edges. -/
structure Performed (p : List PlanItem) (n : Nat) (s t : State) : Prop where
  fsm : t.fsm = .exec
  phase : t.phase = .ready
  plan : s.plan = p ++ t.plan
  inputs : t.inputs = s.inputs.drop n
  initIdx : t.initIdx = (indexWrites p).getLastD s.initIdx
  initDone : t.initDone = (flagWrites p).getLastD s.initDone
  trace : t.trace = s.trace ++ (planEvents p).map TraceItem.event
  same : SameBesidesExecution s t

theorem Performed.refl {s : State} (hf : s.fsm = .exec) (hph : s.phase = .ready) : Performed [] 0 s s :=
  ⟨hf, hph, rfl, rfl, rfl, rfl, (List.append_nil _).symm, ⟨rfl, rfl, rfl, rfl, rfl, rfl, rfl⟩⟩

theorem Performed.trans {p q : List PlanItem} {n k : Nat} {s t u : State} (h : Performed p n s t)
    (h' : Performed q k t u) : Performed (p ++ q) (n + k) s u where
  fsm := h'.fsm
  phase := h'.phase
  plan := by rw [h.plan, h'.plan, List.append_assoc]
  inputs := by rw [h'.inputs, h.inputs, List.drop_drop]
  initIdx := by rw [h'.initIdx, h.initIdx, indexWrites_append, getLastD_append]
  initDone := by rw [h'.initDone, h.initDone, flagWrites_append, getLastD_append]
  trace := by rw [h'.trace, h.trace, planEvents_append, List.map_append, List.append_assoc]
  same := h.same.trans h'.same

/-- A micro-operation is performed once its effect is there and it is removed. -/
theorem performed_finish {s v : State} {op : MicroOp} {m : Mark} {items : List PlanItem} {n : Nat}
    (hf : s.fsm = .exec) (hp : s.plan = ⟨op, m⟩ :: items) (h : Effect op s v) (hin : v.inputs = s.inputs.drop n) :
    Performed [⟨op, m⟩] n s (v.finish m) where
  fsm := by rw [finish_fsm, h.fsm, hf]
  phase := finish_phase v m
  plan := by rw [finish_plan, h.plan, hp]; rfl
  inputs := by rw [finish_inputs, hin]
  initIdx := by cases m <;> simp [indexWrites, initStepsLeft, h.initIdx]
  initDone := by rw [finish_initDone, h.initDone]; rfl
  trace := by
    rw [State.trace, finish_log, h.log, List.reverse_append, List.reverse_reverse]
    rfl
  same := by
    obtain ⟨hcfg, hrq, hcause, hadc, hvalid, hpixel, hraw⟩ := h.same
    exact ⟨by rw [finish_cfg, hcfg], by rw [finish_rq, hrq], by rw [finish_faultCause, hcause],
      by rw [finish_adcWait, hadc], by rw [finish_mapValid, hvalid], by rw [finish_mapPixel, hpixel],
      by rw [finish_mapRaw, hraw]⟩

/-! ## Each micro-operation is performed in its edges -/

section
variable {s : State} {m : Mark} {items : List PlanItem}

/-- The edge at which a CS or CD change happens. -/
theorem step_line {e : Event} (hf : s.fsm = .exec) (hp : s.plan = ⟨.emit e, m⟩ :: items)
    (he : (∃ a, e = .cs a) ∨ ∃ l, e = .cd l) (hph : s.phase = .gap 0) (hr : s.inputNow.rst = false) :
    ∃ v, step s = .next (v.finish m) ∧ Effect (.emit e) s v ∧ v.inputs = s.inputs.tail := by
  have happens : s.edge = lineHappens e (s.started.finish m) := by
    have hgap : s.started.phase = .gap 0 := hph
    rw [edge_of_exec hf hr]
    refine (sequence_line (s := s.started) hp he _).trans ?_
    simp only [State.lineEdge, hgap]
  have here : SameBesidesExecution s s := ⟨rfl, rfl, rfl, rfl, rfl, rfl, rfl⟩
  rcases he with ⟨a, rfl⟩ | ⟨l, rfl⟩
  · cases a with
    | act =>
      refine ⟨s.started.driveCs .act, ?_, ⟨rfl, rfl, rfl, rfl, rfl, { here with }⟩, rfl⟩
      rw [step_of_settled happens, finish_driveCs]
    | inact =>
      rcases closeFrame_cases (s.started.finish m) with ⟨_, i, hc, e⟩ | ⟨_, _, e⟩ | ⟨_, e⟩
      · obtain ⟨op, d, hi⟩ := decodeFrame_ok (frameCommand_eq_some.1 hc).2
        refine ⟨(s.started.driveCs .inact).panelFrame (Panel.command s.cfg i), ?_,
          ⟨rfl, rfl, rfl, rfl, rfl, { here with }⟩, rfl⟩
        rw [step_of_run (happens.trans e), exec_panelCommand hi, finish_driveCs, finish_panelFrame, finish_cfg]
        rfl
      · refine ⟨(s.started.driveCs .inact).panelFrame Panel.havoc, ?_, ⟨rfl, rfl, rfl, rfl, rfl, { here with }⟩, rfl⟩
        rw [step_of_settled (happens.trans e), finish_driveCs, finish_panelFrame]
      · refine ⟨s.started.driveCs .inact, ?_, ⟨rfl, rfl, rfl, rfl, rfl, { here with }⟩, rfl⟩
        rw [step_of_settled (happens.trans e), finish_driveCs]
  · refine ⟨s.started.driveCd l, ?_, ⟨rfl, rfl, rfl, rfl, rfl, { here with }⟩, rfl⟩
    rw [step_of_settled happens, finish_driveCd]

theorem performs_line {e : Event} (hf : s.fsm = .exec) (hph : s.phase = .ready)
    (hp : s.plan = ⟨.emit e, m⟩ :: items) (he : (∃ a, e = .cs a) ∨ ∃ l, e = .cd l)
    (hn : s.NoReset (sclkDiv s.cfg + 1)) :
    ∃ t, runEdges (sclkDiv s.cfg + 1) s = .next t ∧ Performed [⟨.emit e, m⟩] (sclkDiv s.cfg + 1) s t := by
  obtain ⟨D, hD⟩ : ∃ D, sclkDiv s.cfg = D + 1 := ⟨_, (Nat.sub_add_cancel (sclkDiv_pos s.cfg)).symm⟩
  rw [hD] at hn ⊢
  have waited := runEdges_gap hf hp he hD hph hn D le_rfl (by omega)
  rw [Nat.sub_self] at waited
  obtain ⟨v, happens, effect, hin⟩ := step_line (s := s.waited (D + 1) (.gap 0)) hf hp he rfl
    (noReset_at hn (Nat.lt_succ_self _))
  refine ⟨_, runEdges_snoc waited happens, performed_finish hf hp { effect with same := { effect.same with } } ?_⟩
  simp [hin, State.waited]

theorem performs_byte {b : Byte} (hf : s.fsm = .exec) (hph : s.phase = .ready)
    (hp : s.plan = ⟨.emit (.byte b), m⟩ :: items) {n : Nat} (hlen : n = 16 * sclkDiv s.cfg + 1) (hn : s.NoReset n) :
    ∃ t, runEdges n s = .next t ∧ Performed [⟨.emit (.byte b), m⟩] n s t := by
  obtain ⟨faulty, done⟩ := runEdges_byte hf hp hph hlen hn
  exact ⟨_, done, performed_finish hf hp
    ⟨rfl, rfl, rfl, rfl, rfl, ⟨rfl, rfl, rfl, rfl, rfl, rfl, rfl⟩⟩ rfl⟩

theorem performs_wait {ms : Nat} (hf : s.fsm = .exec) (hph : s.phase = .ready)
    (hp : s.plan = ⟨.emit (.wait ms), m⟩ :: items) (hn : s.NoReset (max 1 (waitEdges s.cfg ms) + 1)) :
    ∃ t, runEdges (max 1 (waitEdges s.cfg ms) + 1) s = .next t ∧
      Performed [⟨.emit (.wait ms), m⟩] (max 1 (waitEdges s.cfg ms) + 1) s t := by
  obtain ⟨k, hk⟩ : ∃ k, max 1 (waitEdges s.cfg ms) = k + 1 := ⟨max 1 (waitEdges s.cfg ms) - 1, by omega⟩
  rw [hk] at hn ⊢
  exact ⟨_, runEdges_wait hf hp hph hk hn, performed_finish hf hp
    ⟨rfl, rfl, rfl, rfl, rfl, ⟨rfl, rfl, rfl, rfl, rfl, rfl, rfl⟩⟩ rfl⟩

theorem performs_setInitDone {v : Bool} (hf : s.fsm = .exec) (hp : s.plan = ⟨.setInitDone v, m⟩ :: items)
    (hn : s.NoReset 1) : ∃ t, runEdges 1 s = .next t ∧ Performed [⟨.setInitDone v, m⟩] 1 s t := by
  have done := step_of_sequence hf (noReset_now hn Nat.one_pos) (sequence_setInitDone (s := s.started) hp _)
  exact ⟨_, runEdges_snoc (runEdges_zero s) done, performed_finish hf hp
    ⟨rfl, rfl, rfl, rfl, rfl, ⟨rfl, rfl, rfl, rfl, rfl, rfl, rfl⟩⟩ (by simp [State.started, State.popInputs])⟩

/-- Every micro-operation but a sample is performed in its edges. -/
theorem performs_op {op : MicroOp} (hf : s.fsm = .exec) (hph : s.phase = .ready) (hp : s.plan = ⟨op, m⟩ :: items)
    (hop : op ≠ .sample) (hn : s.NoReset (opEdges s.cfg op)) :
    ∃ t, runEdges (opEdges s.cfg op) s = .next t ∧ Performed [⟨op, m⟩] (opEdges s.cfg op) s t := by
  match op with
  | .emit (.cs a) => exact performs_line hf hph hp (.inl ⟨a, rfl⟩) hn
  | .emit (.cd l) => exact performs_line hf hph hp (.inr ⟨l, rfl⟩) hn
  | .emit (.byte b) => exact performs_byte hf hph hp rfl hn
  | .emit (.wait ms) => exact performs_wait hf hph hp hn
  | .setInitDone v => exact performs_setInitDone hf hp hn
  | .sample => exact absurd rfl hop

end

/-! ## A whole plan -/

/-- A plan without a sample is performed in its edges: by induction on the plan. -/
theorem performs_plan (plan : List PlanItem) : ∀ {s : State}, s.fsm = .exec → s.phase = .ready → s.plan = plan →
    sampleFree plan = true → s.NoReset (planEdges s.cfg plan) →
    ∃ t, runEdges (planEdges s.cfg plan) s = .next t ∧ Performed plan (planEdges s.cfg plan) s t := by
  induction plan with
  | nil => exact fun {s} hf hph hp _ _ => ⟨s, rfl, Performed.refl hf hph⟩
  | cons it items ih =>
    intro s hf hph hp hfree hn
    obtain ⟨op, m⟩ := it
    obtain ⟨hop, hfree⟩ : op ≠ .sample ∧ sampleFree items = true := by simpa [sampleFree] using hfree
    have hsum : planEdges s.cfg (⟨op, m⟩ :: items) = opEdges s.cfg op + planEdges s.cfg items := by simp [planEdges]
    rw [hsum] at hn ⊢
    obtain ⟨u, run, first⟩ := performs_op hf hph hp hop (noReset_mono hn (Nat.le_add_right _ _))
    have hplan : u.plan = items := (List.cons.inj (hp.symm.trans first.plan)).2.symm
    have hcfg : u.cfg = s.cfg := first.same.cfg
    obtain ⟨t, run', others⟩ := ih first.fsm first.phase hplan hfree (by
      rw [hcfg]
      exact noReset_drop hn first.inputs)
    rw [hcfg] at run' others
    exact ⟨t, (runEdges_add run).trans run', first.trans others⟩

/-- Settles O42. -/
theorem planRunsToItsEnd : Obligations.PlanRunsToItsEnd := by
  rintro s n hf hph hfree rfl hn
  obtain ⟨t, run, done⟩ := performs_plan s.plan hf hph rfl hfree hn
  exact ⟨t, run, List.append_cancel_left ((List.append_nil _).trans done.plan).symm, done.fsm, done.phase, done.trace,
    done.inputs, done.same⟩

/-! ## A request -/

theorem runEdges_keeps_coherence {k : Nat} : ∀ {s t : State}, s.Coherent → runEdges k s = .next t → t.Coherent := by
  induction k with
  | zero =>
    intro s t h hrun
    cases hrun
    exact h
  | succ k ih =>
    intro s t h hrun
    obtain ⟨u, hstep⟩ := coherentStateNeverStops s h
    rw [runEdges_succ hstep] at hrun
    exact ih (stepKeepsCoherence s u h hstep) hrun

theorem sampleFree_append (p q : List PlanItem) : sampleFree (p ++ q) = (sampleFree p && sampleFree q) := by
  simp [sampleFree]

/-- A plan of events waits for no ADC and writes no flag. -/
theorem silent_of_ops {p : List PlanItem} {es : List Event} (h : p.map (fun it => it.op) = es.map MicroOp.emit) :
    sampleFree p = true ∧ flagWrites p = [] := by
  have emitted : ∀ it ∈ p, ∃ e, it.op = .emit e := by
    intro it hit
    have : it.op ∈ es.map MicroOp.emit := h ▸ List.mem_map_of_mem hit
    obtain ⟨e, _, he⟩ := List.mem_map.1 this
    exact ⟨e, he.symm⟩
  refine ⟨List.all_eq_true.2 fun it hit => ?_, List.filterMap_eq_nil_iff.2 fun it hit => ?_⟩ <;>
    obtain ⟨e, he⟩ := emitted it hit <;> simp [he]

theorem silent_emits (es : List Event) : sampleFree (emits es) = true ∧ flagWrites (emits es) = [] :=
  silent_of_ops (ops_emits es)

theorem silent_append {p q : List PlanItem} (hp : sampleFree p = true ∧ flagWrites p = [])
    (hq : sampleFree q = true ∧ flagWrites q = []) : sampleFree (p ++ q) = true ∧ flagWrites (p ++ q) = [] := by
  rw [sampleFree_append, flagWrites_append, hp.1, hp.2, hq.1, hq.2]
  exact ⟨rfl, rfl⟩

theorem silent_fillPlan (cfg : Config) (c : Word) :
    sampleFree (fillPlan cfg c) = true ∧ flagWrites (fillPlan cfg c) = [] :=
  silent_append (silent_emits _) (silent_of_ops (ops_streamPlan _ c))

theorem silent_drawPlan (cfg : Config) (x y w h c : Word) :
    sampleFree (drawPlan cfg x y w h c) = true ∧ flagWrites (drawPlan cfg x y w h c) = [] := by
  rcases drawPlan_cases cfg x y w h c with e | ⟨_, e⟩ <;> rw [e]
  · exact ⟨rfl, rfl⟩
  · exact silent_of_ops (ops_rectPlan c rfl rfl)

theorem silent_initSteps (cfg : Config) (l : List Nat) :
    sampleFree (l.flatMap (initStepPlan cfg)) = true ∧ flagWrites (l.flatMap (initStepPlan cfg)) = [] := by
  induction l with
  | nil => exact ⟨rfl, rfl⟩
  | cons k rest ih => exact silent_append (silent_of_ops (ops_initStepPlan cfg k)) ih

/-- INIT clears INIT_DONE first and sets it last (42_display_driver.md R191). -/
theorem initPlan_flags (cfg : Config) :
    sampleFree (initPlan cfg) = true ∧ flagWrites (initPlan cfg) = [false, true] := by
  obtain ⟨hfree, hflags⟩ := silent_append (silent_initSteps cfg (List.range nInit)) (silent_fillPlan cfg cfg.background)
  have parts : initPlan cfg = [⟨.setInitDone false, .plain⟩] ++
      ((List.range nInit).flatMap (initStepPlan cfg) ++ fillPlan cfg cfg.background ++
        [⟨.setInitDone true, .plain⟩]) := rfl
  rw [parts, sampleFree_append, sampleFree_append, flagWrites_append, flagWrites_append, hfree, hflags]
  exact ⟨rfl, rfl⟩

theorem requestPlan_flags (cfg : Config) {i : Instr} (h : i ≠ .map) :
    sampleFree (requestPlan cfg i) = true ∧
      flagWrites (requestPlan cfg i) = if i = .init then [false, true] else [] := by
  cases i
  case send => exact silent_emits _
  case init => exact initPlan_flags cfg
  case setWindow => exact silent_emits _
  case drawRect => exact silent_drawPlan cfg _ _ _ _ _
  case fillScreen => exact silent_fillPlan cfg _
  case map => exact absurd rfl h
  all_goals exact ⟨rfl, rfl⟩

/-- A coherent state in EXEC whose plan waits for no ADC performs it and is IDLE one edge later
(10_state.md R40 arm 5). -/
theorem plan_completes {s : State} {n : Nat} (h : s.Coherent) (hf : s.fsm = .exec) (hph : s.phase = .ready)
    (hfree : sampleFree s.plan = true) (hlen : n = planEdges s.cfg s.plan + 1) (hn : s.NoReset n) :
    ∃ u t, t = { u.started with fsm := .idle } ∧ runEdges n s = .next t ∧ Performed s.plan (n - 1) s u ∧
      t.Resting ∧ t.pixRem = 0 := by
  subst hlen
  obtain ⟨u, run, done⟩ := performs_plan s.plan hf hph rfl hfree (noReset_mono hn (Nat.le_succ _))
  have hnil : u.plan = [] := List.append_cancel_left ((List.append_nil _).trans done.plan).symm
  have hr : u.inputNow.rst = false := by
    rw [State.inputNow, done.inputs]
    exact noReset_at hn (Nat.lt_succ_self _)
  have idle : step u = .next { u.started with fsm := .idle } := emptyPlanLeadsToIdle.1 u done.fsm hnil hr
  have run' := runEdges_snoc run idle
  have coherent := runEdges_keeps_coherence h run'
  refine ⟨u, _, rfl, run', done, ⟨coherent, rfl⟩, ?_⟩
  have hleft : u.pixRem.toNat = pixelsLeft u.plan := coherent.pixel_count
  rw [hnil] at hleft
  exact BitVec.eq_of_toNat_eq hleft

theorem indexWrites_requestPlan (cfg : Config) (i : Instr) (d : BitVec 5) :
    (indexWrites (requestPlan cfg i)).getLastD d = if i = .init then 20 else d := by
  rw [indexWrites, (requestPlan_marks cfg i).1]
  split <;> rfl

/-- Settles O43: the request's plan is performed and leads to IDLE (`plan_completes`); what it wrote to INIT_DONE and
`init_idx` is what its plan's flags and marks say. -/
theorem requestRunsToCompletion : Obligations.RequestRunsToCompletion := by
  intro i s hreq hmap _ ⟨h, hidle⟩
  obtain ⟨bs, hbs⟩ : ∃ bs, encode i = .request bs := by
    unfold isRequest at hreq
    split at hreq
    · exact ⟨_, ‹_›⟩
    · cases hreq
  obtain ⟨hfree, hflags⟩ := requestPlan_flags s.cfg hmap
  refine ⟨_, exec_request hbs s, fun n hlen hn => ?_⟩
  obtain ⟨u, t, rfl, run, done, rests, hpix⟩ := plan_completes (coherent_start h (.inl hidle) i) rfl rfl hfree hlen hn
  refine ⟨_, run, rests, done.trace, ?_, ?_, hpix, { done.same with }⟩
  · refine done.initDone.trans ?_
    show (flagWrites (requestPlan s.cfg i)).getLastD s.initDone = _
    rw [hflags]
    split <;> rfl
  · refine done.initIdx.trans ?_
    show (indexWrites (requestPlan s.cfg i)).getLastD (if i = .init then 0 else s.initIdx) = _
    rw [indexWrites_requestPlan]
    split <;> rfl

end Sys2Proof.Machine
end

section
/-! The panel commands one by one (20_memory.md R101-R108): what each makes of a panel outside the quiet time, and the frame
memory it writes. -/

namespace Sys2Proof.Machine

/-! ## The frame memory -/

/-- Settles O33: by whether the cell read is the one written. -/
theorem frameMemoryReadsWhatWasWritten : Obligations.FrameMemoryReadsWhatWasWritten := by
  intro fm a b v
  refine ⟨?_, fun h => wf_write h a v⟩
  split
  case isTrue same => rw [same, read_write_same]
  case isFalse other => exact read_write_other fm v other

/-! ## The commands and their opcodes -/

/-- Every panel command is the one its opcode names, here in the order of `panelCommands`. -/
theorem panelCommands_eq_map_opcodes (d : List Byte) :
    (panelCommands d).map some =
      [0x01, 0x11, 0x2A, 0x2B, 0x2C, 0x3A, 0x36, 0xB1, 0xB2, 0xB4, 0xC0, 0xC1, 0xC2, 0xC3, 0xC4, 0xC5, 0x20, 0xE0, 0xE1,
        0x13, 0x29].map (fun op => panelCommand op d) := rfl

theorem exec_of_mem_panelCommands {d : List Byte} {i : Instr} (h : i ∈ panelCommands d) (s : State) :
    exec i s = .next (s.panelFrame (Panel.command s.cfg i)) := by
  have named := List.mem_map_of_mem (f := some) h
  rw [panelCommands_eq_map_opcodes, List.mem_map] at named
  obtain ⟨op, _, hop⟩ := named
  exact exec_panelCommand hop s

/-- The effects of the 14 NEUTRAL commands, each with its own step of the init table. -/
theorem command_of_mem_neutralCommands {d : List Byte} {i : Instr} {k : Nat} (h : (i, k) ∈ neutralCommands d)
    (cfg : Config) : Panel.command cfg i = Panel.neutral cfg k d := by
  have effects : (neutralCommands d).map (fun c => Panel.command cfg c.1) =
      (neutralCommands d).map (fun c => Panel.neutral cfg c.2 d) := rfl
  exact List.map_inj_left.1 effects (i, k) h

/-- The payload of a step of the init table. -/
theorem romPayload_of_getElem? {cfg : Config} {k : Nat} {payload : List Byte}
    (h : cfg.initPayload[k]? = some payload) : romPayload cfg k = payload := by
  rw [romPayload, List.getD_eq_getElem?_getD, h, Option.getD_some]

/-! ## The quiet time -/

/-- Inside the quiet time a frame of any effect only forgets everything (20_memory.md R107). -/
theorem accept_in_quiet_time {p : Panel} (h : 0 < p.quiet) (f : Panel → Panel) : p.accept f = forgotten 0 := by
  rcases accept_cases p f with ⟨_, e⟩ | ⟨hq, _⟩
  · exact e
  · omega

/-- Settles O32: every panel command passes the quiet time's gate. -/
theorem quietTimeTurnsEveryCommandAway : Obligations.QuietTimeTurnsEveryCommandAway := by
  intro d s i hi
  exact ⟨_, exec_of_mem_panelCommands hi s, fun p hq => accept_in_quiet_time hq _⟩

/-- Outside the quiet time havoc forgets everything. -/
theorem havoc_of_quiet {p : Panel} (h : p.quiet = 0) : p.havoc = forgotten 0 := by rw [havoc_eq, h]

/-! ## Sleep and reset, modes, NEUTRAL commands -/

theorem swreset_of_quiet (cfg : Config) (d : List Byte) {p : Panel} (h : p.quiet = 0) :
    Panel.swreset cfg d p = forgotten (if d = [] then cfg.tSwresetMs else 0) := by
  unfold Panel.swreset
  split
  · rfl
  · exact havoc_of_quiet h

theorem slpout_of_quiet (cfg : Config) (d : List Byte) {p : Panel} (h : p.quiet = 0) :
    Panel.slpout cfg d p = if d = [] then { p with awake := .yes, quiet := cfg.tSlpoutMs } else forgotten 0 := by
  rw [Panel.slpout, havoc_of_quiet h]

theorem neutral_of_quiet (cfg : Config) (k : Nat) (d : List Byte) {p : Panel} (h : p.quiet = 0) :
    Panel.neutral cfg k d p = if d.length = (romPayload cfg k).length then p else forgotten 0 := by
  rw [Panel.neutral, havoc_of_quiet h]

/-- Settles O26: the effects are `Panel.swreset` and `Panel.slpout`, behind the quiet time's gate. -/
theorem sleepAndResetCommands : Obligations.SleepAndResetCommands := by
  intro d s
  refine ⟨_, _, exec_panelCommand (op := 0x01) rfl s, exec_panelCommand (op := 0x11) rfl s, fun p hq => ⟨?_, ?_⟩⟩
  · rw [accept_of_quiet hq]
    exact swreset_of_quiet s.cfg d hq
  · rw [accept_of_quiet hq]
    exact slpout_of_quiet s.cfg d hq

/-- Settles O30: the effects are `Panel.colmod` and `Panel.madctl`, which compare with the payloads of steps 13 and 12. -/
theorem modeCommandsCompareTheirPayload : Obligations.ModeCommandsCompareTheirPayload := by
  intro d p12 p13 s h12 h13
  refine ⟨_, _, exec_panelCommand (op := 0x3A) rfl s, exec_panelCommand (op := 0x36) rfl s, fun p hq => ⟨?_, ?_⟩⟩
  · rw [accept_of_quiet hq, ← romPayload_of_getElem? h13]
    rfl
  · rw [accept_of_quiet hq, ← romPayload_of_getElem? h12]
    rfl

/-- Settles O31: the effect is `Panel.neutral` of the command's own step. -/
theorem neutralCommandsChangeNothing : Obligations.NeutralCommandsChangeNothing := by
  intro d payload s i k hi hk
  have hmem : i ∈ panelCommands d := List.mem_append_right _ (List.mem_map_of_mem (f := fun c => c.1) hi)
  refine ⟨_, exec_of_mem_panelCommands hmem s, fun p hq => ?_⟩
  rw [accept_of_quiet hq, command_of_mem_neutralCommands hi, neutral_of_quiet s.cfg k d hq, romPayload_of_getElem? hk]

/-! ## The windows -/

theorem windowOf_of_length {d : List Byte} (h : d.length ≠ 4) : windowOf d = none := by
  unfold windowOf
  split
  · exact absurd rfl h
  · rfl

/-- Settles O27: the window is `windowOf` the data bytes. -/
theorem windowCommandsSetTheWindow : Obligations.WindowCommandsSetTheWindow := by
  intro d s
  refine ⟨_, _, windowOf d, exec_panelCommand (op := 0x2A) rfl s, exec_panelCommand (op := 0x2B) rfl s,
    fun p hq => ⟨?_, ?_⟩, windowOf_of_length, ?_⟩
  · rw [accept_of_quiet hq]
    rfl
  · rw [accept_of_quiet hq]
    rfl
  · rintro d0 d1 d2 d3 rfl
    exact ⟨be16 d0 d1, be16 d2 d3, rfl, be16_toNat d0 d1, be16_toNat d2 d3⟩

/-! ## Pixel streams -/

/-- What makes a pixel stream well formed for the window it finds (20_memory.md R103). -/
theorem streamFits_iff {cfg : Config} {p : Panel} {xs xe ys ye : Word} {d : List Byte} :
    streamFits cfg p (xs, xe) (ys, ye) d = true ↔
      p.awake = .yes ∧ p.mode16 = .yes ∧ p.orient = .yes ∧ (xs.toNat ≤ xe.toNat ∧ xe.toNat < cfg.width) ∧
        (ys.toNat ≤ ye.toNat ∧ ye.toNat < cfg.height) ∧ d.length % 2 = 0 ∧
        d.length / 2 ≤ (xe.toNat - xs.toNat + 1) * (ye.toNat - ys.toNat + 1) :=
  decide_eq_true_iff

/-- RAMWR where its stream is well formed. -/
theorem ramwr_of_fits {cfg : Config} {p : Panel} {xs xe ys ye : Word} {d : List Byte} (hc : p.cols = some (xs, xe))
    (hr : p.rows = some (ys, ye)) (hfit : streamFits cfg p (xs, xe) (ys, ye) d = true) :
    Panel.ramwr cfg d p = { p with
      fm := writePixels cfg xs.toNat ys.toNat (xe.toNat - xs.toNat + 1) 0 (streamColours d) p.fm } := by
  simp only [Panel.ramwr, hc, hr, hfit, if_true]

/-- Settles O28: the stream is well formed, so the cells are those `writePixels` writes. -/
theorem ramwrFillsTheWindowRowByRow : Obligations.RamwrFillsTheWindowRowByRow := by
  intro d s
  refine ⟨_, exec_panelCommand (op := 0x2C) rfl s, ?_⟩
  rintro p xs xe ys ye ⟨hawake, hmode, horient, hq⟩ hc hr hx hxe hy hye heven hcount
  have hfit : streamFits s.cfg p (xs, xe) (ys, ye) d = true :=
    streamFits_iff.2 ⟨hawake, hmode, horient, ⟨hx, hxe⟩, ⟨hy, hye⟩, heven, hcount⟩
  have hlen := streamColours_length d
  refine ⟨_, (accept_of_quiet hq _).trans (ramwr_of_fits hc hr hfit), fun i hi => ?_, fun a ha => ?_⟩
  · rw [read_writePixels (Nat.succ_pos _) (by omega) _ (Nat.zero_le i) (by omega)]
    exact congrArg some (streamColours_getElem d i (by omega))
  · exact read_writePixels_other _ (fun j _ hj => ha j (by omega))

/-- Settles O29: outside the quiet time RAMWR forgets everything or has found its stream well formed, which each way of
being ill formed excludes. -/
theorem illFormedStreamHavocs : Obligations.IllFormedStreamHavocs := by
  intro d s
  refine ⟨_, exec_panelCommand (op := 0x2C) rfl s, fun p hq hill => ?_⟩
  rw [accept_of_quiet hq]
  rcases ramwr_cases s.cfg d p with ⟨⟨xs, xe⟩, ⟨ys, ye⟩, hc, hr, hfit, _⟩ | havoc
  · obtain ⟨hawake, hmode, horient, hx, hy, heven, hcount⟩ := streamFits_iff.1 hfit
    rcases hill with h | h | h | h | h | h | ⟨xs', xe', ys', ye', hc', hr', h⟩
    · exact absurd hawake h
    · exact absurd hmode h
    · exact absurd horient h
    · exact absurd (hc.symm.trans h) (by simp)
    · exact absurd (hr.symm.trans h) (by simp)
    · omega
    · obtain ⟨rfl, rfl⟩ : xs = xs' ∧ xe = xe' := by simpa using hc.symm.trans hc'
      obtain ⟨rfl, rfl⟩ : ys = ys' ∧ ye = ye' := by simpa using hr.symm.trans hr'
      omega
  · exact havoc.trans (havoc_of_quiet hq)

end Sys2Proof.Machine
end

section
/-! What transactions make of the panel, between two frames and outside the machine: a rectangle paints exactly its cells,
and INIT leaves the panel known or wholly unknown (20_memory.md section 7, 70_reset_and_hazards.md R342). -/

namespace Sys2Proof.Machine

/-! ## The panel after a list of events -/

section
variable (cfg : Config) (p : Panel)

/-- The view of a panel between two frames. -/
def PanelView.between : PanelView where
  cd := .data
  held := none
  faulty := false
  panel := p

theorem panelAfter_eq (es : List Event) : panelAfter cfg p es =
    (es.foldl (fun v e => v.see .keeps cfg true (.event e)) (PanelView.between p)).panel := rfl

theorem panelAfter_nil : panelAfter cfg p [] = p := rfl

theorem panelAfter_wait (ms : Nat) (es : List Event) :
    panelAfter cfg p (.wait ms :: es) = panelAfter cfg (p.wait ms) es := rfl

/-- The bytes of a data phase join the frame in progress. -/
theorem see_data_bytes (d : List Byte) (f : List FrameByte) :
    (d.map Event.byte).foldl (fun v e => v.see .keeps cfg true (.event e))
        { PanelView.between p with held := some f } =
      { PanelView.between p with held := some (f ++ d.map (fun b => (.data, b))) } := by
  induction d generalizing f with
  | nil => simp
  | cons b d ih =>
    have rest := ih (f ++ [(.data, b)])
    rw [List.append_assoc] at rest
    exact rest

/-- A transaction reaches the panel as its one frame (00_scope.md R16). -/
theorem panelAfter_tx (o : Byte) (d : List Byte) (es : List Event) :
    panelAfter cfg p (tx o d ++ es) = panelAfter cfg (p.frame cfg false (frameOf o d)) es := by
  have opened : (txOpening o d).foldl (fun v e => v.see .keeps cfg true (.event e)) (PanelView.between p) =
      { PanelView.between p with held := some (frameOf o d) } := see_data_bytes cfg p d [(.cmd, o)]
  simp only [panelAfter_eq, tx, List.foldl_append, opened]
  rfl

end

theorem frame_frameOf {op : Byte} {d : List Byte} {i : Instr} (h : panelCommand op d = some i) (cfg : Config)
    (p : Panel) : p.frame cfg false (frameOf op d) = p.accept (Panel.command cfg i) := by
  have command : frameCommand false (frameOf op d) = some i := frameCommand_eq_some.2 ⟨rfl, decodeFrame_frameOf h⟩
  simp only [Panel.frame, command]

/-- A panel command's transaction, outside the quiet time. -/
theorem panelAfter_command {op : Byte} {d : List Byte} {i : Instr} (h : panelCommand op d = some i) (cfg : Config)
    (p : Panel) (hq : p.quiet = 0) (es : List Event) :
    panelAfter cfg p (tx op d ++ es) = panelAfter cfg (Panel.command cfg i p) es := by
  rw [panelAfter_tx, frame_frameOf h, accept_of_quiet hq]

/-! ## A rectangle -/

theorem planEvents_rectPlan (x y w h c : Word) :
    planEvents (rectPlan x y w h c) =
      tx 0x2A (operandBytes x ++ operandBytes (x + w - 1)) ++ (tx 0x2B (operandBytes y ++ operandBytes (y + h - 1)) ++
        (tx 0x2C (pixelBytes (w.toNat * h.toNat) c) ++ [])) := by
  simp [rectPlan, windowEvents]

theorem windowOf_operandBytes (a b : Word) : windowOf (operandBytes a ++ operandBytes b) = some (a, b) := by
  simp [windowOf, operandBytes]

/-- Outside the quiet time the transactions of a rectangle set the window and stream into it. -/
theorem panelAfter_rectPlan (cfg : Config) {p : Panel} (hq : p.quiet = 0) (x y w h c : Word) :
    panelAfter cfg p (planEvents (rectPlan x y w h c)) =
      Panel.ramwr cfg (pixelBytes (w.toNat * h.toNat) c)
        { p with cols := some (x, x + w - 1), rows := some (y, y + h - 1) } := by
  rw [planEvents_rectPlan, panelAfter_command (i := .caset _) rfl cfg p hq,
    panelAfter_command (i := .raset _) rfl cfg (Panel.command cfg (.caset _) p) hq,
    panelAfter_command (i := .ramwr _) rfl cfg (Panel.command cfg (.raset _) (Panel.command cfg (.caset _) p)) hq,
    panelAfter_nil]
  simp only [Panel.command, Panel.caset, Panel.raset, windowOf_operandBytes]

/-- A rectangle of the screen that has at least one pixel. -/
structure RectOnScreen (cfg : Config) (x y w h : Word) : Prop where
  right : x.toNat + w.toNat ≤ cfg.width
  bottom : y.toNat + h.toNat ≤ cfg.height
  wide : 1 ≤ w.toNat
  high : 1 ≤ h.toNat

/-- The last coordinate of an extent that 16 bits hold. -/
theorem toNat_add_sub_one {x w : Word} {n : Nat} (hx : x.toNat + w.toNat ≤ n) (hn : n ≤ 65535) (hw : 1 ≤ w.toNat) :
    (x + w - 1).toNat = x.toNat + w.toNat - 1 := by bv_omega

/-- On a configured panel a rectangle's stream fills its window. -/
theorem panelAfter_rectPlan_of_ready {cfg : Config} {p : Panel} (hp : p.Ready) {x y w h : Word}
    (hrect : RectOnScreen cfg x y w h) (c : Word) :
    panelAfter cfg p (planEvents (rectPlan x y w h c)) = { p with
      cols := some (x, x + w - 1), rows := some (y, y + h - 1),
      fm := writePixels cfg x.toNat y.toNat w.toNat 0 (List.replicate (w.toNat * h.toNat) c) p.fm } := by
  obtain ⟨hawake, hmode, horient, hq⟩ := hp
  obtain ⟨hx, hy, hw, hh⟩ := hrect
  obtain ⟨⟨-, hwidth⟩, ⟨-, hheight⟩, -⟩ := cfg.wf
  have hx1 := toNat_add_sub_one hx hwidth hw
  have hy1 := toNat_add_sub_one hy hheight hh
  have hww : (x + w - 1).toNat - x.toNat + 1 = w.toNat := by omega
  have hwh : (y + h - 1).toNat - y.toNat + 1 = h.toNat := by omega
  have hlen := pixelBytes_length (w.toNat * h.toNat) c
  rw [panelAfter_rectPlan cfg hq, ramwr_of_fits rfl rfl, hww, streamColours_pixelBytes]
  exact streamFits_iff.2 ⟨hawake, hmode, horient, ⟨by omega, by omega⟩, ⟨by omega, by omega⟩, by omega,
    by rw [hww, hwh]; omega⟩

/-- A window filled with one colour: its cells hold it, and every other cell of the screen's columns reads as before. -/
theorem read_fill {cfg : Config} {xs ys ww hh col row : Nat} (hx : xs + ww ≤ cfg.width) (hcol : col < cfg.width)
    (c : Word) (fm : FrameMemory) :
    (writePixels cfg xs ys ww 0 (List.replicate (ww * hh) c) fm).read (cellNumber cfg col row) =
      if (xs ≤ col ∧ col < xs + ww) ∧ (ys ≤ row ∧ row < ys + hh) then some c else fm.read (cellNumber cfg col row) := by
  split
  case isTrue inside =>
    obtain ⟨⟨hc1, hc2⟩, ⟨hr1, hr2⟩⟩ := inside
    have hww : 0 < ww := by omega
    have hmod : (ww * (row - ys) + (col - xs)) % ww = col - xs := by
      rw [Nat.mul_add_mod, Nat.mod_eq_of_lt (by omega)]
    have hdiv : (ww * (row - ys) + (col - xs)) / ww = row - ys := by
      rw [Nat.mul_add_div hww, Nat.div_eq_of_lt (by omega), Nat.add_zero]
    have hlt : ww * (row - ys) + (col - xs) < ww * hh :=
      calc ww * (row - ys) + (col - xs) < ww * (row - ys) + ww := by omega
        _ = ww * (row - ys + 1) := rfl
        _ ≤ ww * hh := Nat.mul_le_mul_left ww (by omega)
    have pixel := read_writePixels (ys := ys) hww hx (List.replicate (ww * hh) c) (fm := fm)
      (Nat.zero_le (ww * (row - ys) + (col - xs))) (by simpa using hlt)
    rw [hmod, hdiv, Nat.add_sub_of_le hc1, Nat.add_sub_of_le hr1] at pixel
    simpa using pixel
  case isFalse outside =>
    refine read_writePixels_other _ fun j _ hj heq => outside ?_
    rw [List.length_replicate, Nat.zero_add] at hj
    have hww : 0 < ww := Nat.pos_of_mul_pos_right (Nat.zero_lt_of_lt hj)
    have hmod := Nat.mod_lt j hww
    have hdiv : j / ww < hh := Nat.div_lt_of_lt_mul hj
    obtain ⟨hc, hr⟩ := cellNumber_inj hcol (by omega) heq
    exact ⟨by omega, hr ▸ Nat.le_add_right ys _, hr ▸ Nat.add_lt_add_left hdiv ys⟩

/-- Settles O59: the plan is `rectPlan`, whose stream fills the rectangle. -/
theorem drawRectPaintsExactlyItsRectangle : Obligations.DrawRectPaintsExactlyItsRectangle := by
  intro cfg p q x y w h c hp hx hy hw hh hq
  have area : ¬((w = 0 ∨ h = 0) ∧ cfg.zeroArea = .drop) := by
    rintro ⟨rfl | rfl, -⟩ <;> simp at hw hh
  rw [drawPlan_eq_rectPlan c hx hy area, panelAfter_rectPlan_of_ready hp ⟨hx, hy, hw, hh⟩] at hq
  subst hq
  exact ⟨hp, fun col row hcol _ => read_fill hx hcol c p.fm⟩

/-! ## INIT, step by step -/

/-- What step `k` of INIT makes of the panel: its frame, then its delay. -/
def initStepPanel (cfg : Config) (p : Panel) (k : Nat) : Panel :=
  (p.frame cfg false (frameOf (romRead cfg k).1 (romRead cfg k).2)).wait (initDelay cfg k)

theorem wait_zero (p : Panel) : p.wait 0 = p := rfl

theorem panelAfter_initStepPlan (cfg : Config) (p : Panel) (k : Nat) (es : List Event) :
    panelAfter cfg p (planEvents (initStepPlan cfg k) ++ es) = panelAfter cfg (initStepPanel cfg p k) es := by
  rw [planEvents_of_ops (ops_initStepPlan cfg k), List.append_assoc, panelAfter_tx, initStepPanel]
  rcases Nat.eq_zero_or_pos (initDelay cfg k) with h | h
  · rw [h, wait_zero]
    rfl
  · rw [if_pos h]
    exact panelAfter_wait cfg _ _ es

theorem panelAfter_initSteps (cfg : Config) (steps : List Nat) (es : List Event) : ∀ p : Panel,
    panelAfter cfg p (planEvents (steps.flatMap (initStepPlan cfg)) ++ es) =
      panelAfter cfg (steps.foldl (initStepPanel cfg) p) es := by
  induction steps with
  | nil => exact fun _ => rfl
  | cons k steps ih =>
    intro p
    rw [List.flatMap_cons, planEvents_append, List.append_assoc, panelAfter_initStepPlan, ih, List.foldl_cons]

theorem planEvents_initPlan (cfg : Config) : planEvents (initPlan cfg) =
    planEvents ((List.range nInit).flatMap (initStepPlan cfg)) ++ planEvents (fillPlan cfg cfg.background) := by
  simp [initPlan]

/-- INIT is its 20 steps and the fill (42_display_driver.md R191). -/
theorem panelAfter_initPlan (cfg : Config) (p : Panel) : panelAfter cfg p (planEvents (initPlan cfg)) =
    panelAfter cfg ((List.range nInit).foldl (initStepPanel cfg) p) (planEvents (fillPlan cfg cfg.background)) := by
  rw [planEvents_initPlan, panelAfter_initSteps]

/-- A step whose opcode names the command `i`. -/
theorem initStepPanel_of_command {cfg : Config} {k : Nat} {i : Instr}
    (h : panelCommand (romRead cfg k).1 (romPayload cfg k) = some i) (p : Panel) :
    initStepPanel cfg p k = (p.accept (Panel.command cfg i)).wait (initDelay cfg k) :=
  congrArg (fun p => p.wait (initDelay cfg k)) (frame_frameOf h cfg p)

/-! ### SWRESET and SLPOUT -/

/-- The quiet time that step 0 leaves. -/
def quietAfterSwreset (cfg : Config) (p : Panel) : Nat :=
  if p.quiet = 0 ∧ romPayload cfg 0 = [] then cfg.tSwresetMs - cfg.delaySwresetMs else 0

/-- Step 0 forgets everything, whatever the panel was. -/
theorem initStepPanel_zero (cfg : Config) (p : Panel) :
    initStepPanel cfg p 0 = forgotten (quietAfterSwreset cfg p) := by
  rw [initStepPanel_of_command (i := .swreset (romPayload cfg 0)) rfl]
  rcases accept_cases p (Panel.command cfg (.swreset (romPayload cfg 0))) with ⟨hq, e⟩ | ⟨hq, e⟩ <;> rw [e]
  · rw [quietAfterSwreset, if_neg (by omega)]
    simp [forgotten, Panel.wait]
  · simp only [Panel.command, swreset_of_quiet cfg _ hq, quietAfterSwreset, hq, true_and]
    split <;> simp [forgotten, Panel.wait, initDelay]

/-- Step 1 wakes the panel that step 0 left settled, where SLPOUT carries no data. -/
theorem initStepPanel_one_wakes (cfg : Config) (hpayload : romPayload cfg 1 = []) :
    initStepPanel cfg (forgotten 0) 1 =
      { forgotten (cfg.tSlpoutMs - cfg.delaySlpoutMs) with awake := .yes } := by
  rw [initStepPanel_of_command (i := .slpout (romPayload cfg 1)) rfl, accept_of_quiet rfl]
  simp [Panel.command, Panel.slpout, hpayload, forgotten, Panel.wait, initDelay]

/-- Otherwise step 1 leaves it wholly unknown. -/
theorem initStepPanel_one_forgets (cfg : Config) {quiet : Nat} (h : 0 < quiet ∨ romPayload cfg 1 ≠ []) :
    initStepPanel cfg (forgotten quiet) 1 = forgotten 0 := by
  rw [initStepPanel_of_command (i := .slpout (romPayload cfg 1)) rfl]
  rcases accept_cases (forgotten quiet) (Panel.command cfg (.slpout (romPayload cfg 1))) with ⟨_, e⟩ | ⟨hq, e⟩ <;> rw [e]
  · simp [forgotten, Panel.wait]
  · have data : romPayload cfg 1 ≠ [] := h.resolve_left (fun hpos => Nat.ne_of_gt hpos hq)
    simp only [Panel.command, slpout_of_quiet cfg _ hq, if_neg data]
    simp [forgotten, Panel.wait]

/-! ### The steps that follow -/

/-- The steps of INIT that are NEUTRAL commands (44_panel_commands.md R281). -/
def neutralSteps : List Nat := [2, 3, 4, 5, 6, 7, 8, 9, 10, 11, 16, 17, 18, 19]

theorem exists_neutralCommand {k : Nat} (h : k ∈ neutralSteps) (d : List Byte) :
    ∃ i, (i, k) ∈ neutralCommands d ∧ panelCommand (romOpcodes.getD k 0) d = some i := by
  have steps : (neutralCommands d).map (fun c => c.2) = neutralSteps := rfl
  have opcodes : (neutralCommands d).map (fun c => panelCommand (romOpcodes.getD c.2 0) d) =
      (neutralCommands d).map (fun c => some c.1) := rfl
  rw [← steps, List.mem_map] at h
  obtain ⟨⟨i, k⟩, hi, rfl⟩ := h
  exact ⟨i, hi, List.map_inj_left.1 opcodes (i, k) hi⟩

/-- A step after the first two keeps no delay (42_display_driver.md R192). -/
theorem initDelay_of_two_le (cfg : Config) {k : Nat} (h : 2 ≤ k) : initDelay cfg k = 0 := by
  rw [initDelay, if_neg (by omega), if_neg (by omega)]

/-- A step after the first two, outside the quiet time. -/
theorem initStepPanel_of_quiet {cfg : Config} {k : Nat} {i : Instr}
    (h : panelCommand (romRead cfg k).1 (romPayload cfg k) = some i) (hk : 2 ≤ k) {p : Panel} (hq : p.quiet = 0) :
    initStepPanel cfg p k = Panel.command cfg i p := by
  rw [initStepPanel_of_command h, accept_of_quiet hq, initDelay_of_two_le cfg hk, wait_zero]

/-- A NEUTRAL step sends as many data bytes as the table has, so outside the quiet time it changes nothing. -/
theorem initStepPanel_neutral {cfg : Config} {k : Nat} (h : k ∈ neutralSteps) {p : Panel} (hq : p.quiet = 0) :
    initStepPanel cfg p k = p := by
  have later : 2 ≤ k := (by decide : ∀ k ∈ neutralSteps, 2 ≤ k) k h
  obtain ⟨i, hi, hop⟩ := exists_neutralCommand h (romPayload cfg k)
  rw [initStepPanel_of_quiet hop later hq, command_of_mem_neutralCommands hi, neutral_of_quiet cfg k _ hq, if_pos rfl]

theorem foldl_initStepPanel_neutral {cfg : Config} {p : Panel} (hq : p.quiet = 0) (steps : List Nat)
    (h : ∀ k ∈ steps, k ∈ neutralSteps) :
    steps.foldl (initStepPanel cfg) p = p := by
  induction steps with
  | nil => rfl
  | cons k steps ih =>
    rw [List.foldl_cons, initStepPanel_neutral (h k List.mem_cons_self) hq]
    exact ih (fun j hj => h j (List.mem_cons_of_mem k hj))

/-- The steps after SWRESET and SLPOUT. -/
def laterSteps : List Nat := List.range' 2 18

/-- A panel that the later steps have reached outside its quiet time: the access order, the colour mode and the windows
are those of the table, the cells are forgotten, and whether it is awake is as before. -/
def configured (cfg : Config) (p : Panel) : Panel :=
  { p with
    fm := []
    cols := windowOf (romPayload cfg 14)
    rows := windowOf (romPayload cfg 15)
    mode16 := .yes
    orient := .yes }

/-- MADCTL, COLMOD, CASET and RASET, each with the table's payload. -/
theorem foldl_modes_and_windows (cfg : Config) {p : Panel} (hq : p.quiet = 0) :
    [12, 13, 14, 15].foldl (initStepPanel cfg) p = configured cfg p := by
  have madctl (r : Panel) (hr : r.quiet = 0) : initStepPanel cfg r 12 = { r with fm := [], orient := .yes } := by
    rw [initStepPanel_of_quiet (i := .madctl _) rfl (by decide) hr, Panel.command, Panel.madctl, if_pos rfl]
  have colmod (r : Panel) (hr : r.quiet = 0) : initStepPanel cfg r 13 = { r with mode16 := .yes } := by
    rw [initStepPanel_of_quiet (i := .colmod _) rfl (by decide) hr, Panel.command, Panel.colmod, if_pos rfl]
  have caset (r : Panel) (hr : r.quiet = 0) :
      initStepPanel cfg r 14 = { r with cols := windowOf (romPayload cfg 14) } :=
    initStepPanel_of_quiet (i := .caset _) rfl (by decide) hr
  have raset (r : Panel) (hr : r.quiet = 0) :
      initStepPanel cfg r 15 = { r with rows := windowOf (romPayload cfg 15) } :=
    initStepPanel_of_quiet (i := .raset _) rfl (by decide) hr
  simp only [List.foldl_cons, List.foldl_nil, madctl, colmod, caset, raset, hq, configured]

theorem foldl_laterSteps (cfg : Config) {p : Panel} (hq : p.quiet = 0) :
    laterSteps.foldl (initStepPanel cfg) p = configured cfg p := by
  have parts : laterSteps = [2, 3, 4, 5, 6, 7, 8, 9, 10, 11] ++ ([12, 13, 14, 15] ++ [16, 17, 18, 19]) := rfl
  rw [parts, List.foldl_append, foldl_initStepPanel_neutral hq _ (by decide), List.foldl_append,
    foldl_modes_and_windows cfg hq]
  exact foldl_initStepPanel_neutral (p := configured cfg p) hq _ (by decide)

/-- A panel still settling forgets everything at step 2, and goes on as one of which nothing is known. -/
theorem foldl_laterSteps_in_quiet_time (cfg : Config) {p : Panel} (hq : 0 < p.quiet) :
    laterSteps.foldl (initStepPanel cfg) p = laterSteps.foldl (initStepPanel cfg) (forgotten 0) := by
  have first : laterSteps = 2 :: List.range' 3 17 := rfl
  have forgets : initStepPanel cfg p 2 = initStepPanel cfg (forgotten 0) 2 := by
    rw [initStepPanel_neutral (p := forgotten 0) (by decide) rfl, initStepPanel_of_command (i := .frmctr1 _) rfl,
      accept_in_quiet_time hq]
    rfl
  rw [first, List.foldl_cons, List.foldl_cons, forgets]

/-! ## INIT as a whole -/

section
variable {cfg : Config} {w h : Word}

/-- The fill of a configured panel: the window is the screen, and every cell holds the colour. -/
theorem panelAfter_fillPlan_of_ready (hw : w.toNat = cfg.width - 1) (hh : h.toNat = cfg.height - 1) {p : Panel}
    (hp : p.Ready) (c : Word) :
    ∃ fm, panelAfter cfg p (planEvents (fillPlan cfg c)) = { p with cols := some (0, w), rows := some (0, h), fm := fm } ∧
      ∀ col row, col < cfg.width → row < cfg.height → fm.read (cellNumber cfg col row) = some c := by
  obtain ⟨⟨hw1, hw2⟩, ⟨hh1, hh2⟩, -⟩ := cfg.wf
  have width : (w + 1).toNat = cfg.width := by bv_omega
  have height : (h + 1).toNat = cfg.height := by bv_omega
  have screen : RectOnScreen cfg 0 0 (w + 1) (h + 1) :=
    ⟨by rw [width]; simp, by rw [height]; simp, by omega, by omega⟩
  have hx1 : 0 + (w + 1) - 1 = w := by bv_omega
  have hy1 : 0 + (h + 1) - 1 = h := by bv_omega
  refine ⟨writePixels cfg 0 0 (w + 1).toNat 0 (List.replicate ((w + 1).toNat * (h + 1).toNat) c) p.fm, ?_,
    fun col row hcol hrow => ?_⟩
  · rw [fillPlan_eq_rectPlan width height, panelAfter_rectPlan_of_ready hp screen, hx1, hy1]
    rfl
  · rw [read_fill (xs := 0) screen.right hcol, if_pos]
    exact ⟨⟨Nat.zero_le _, by omega⟩, Nat.zero_le _, by omega⟩

theorem ramwr_of_not_awake (cfg : Config) (d : List Byte) {p : Panel} (h : p.awake ≠ .yes) :
    Panel.ramwr cfg d p = p.havoc := by
  rcases ramwr_cases cfg d p with ⟨⟨xs, xe⟩, ⟨ys, ye⟩, _, _, hfit, _⟩ | havoc
  · exact absurd (streamFits_iff.1 hfit).1 h
  · exact havoc

/-- The fill of a panel not known to be awake forgets everything. -/
theorem panelAfter_fillPlan_of_not_awake {p : Panel} (hq : p.quiet = 0) (hawake : p.awake ≠ .yes) (c : Word) :
    panelAfter cfg p (planEvents (fillPlan cfg c)) = forgotten 0 := by
  obtain ⟨⟨_, hw2⟩, ⟨_, hh2⟩, -⟩ := cfg.wf
  have width : (BitVec.ofNat 16 cfg.width).toNat = cfg.width := by simp; omega
  have height : (BitVec.ofNat 16 cfg.height).toNat = cfg.height := by simp; omega
  rw [fillPlan_eq_rectPlan width height, panelAfter_rectPlan cfg hq]
  have windowed := ramwr_of_not_awake cfg (pixelBytes (cfg.width * cfg.height) c)
    (p := { p with
      cols := some (0, 0 + BitVec.ofNat 16 cfg.width - 1), rows := some (0, 0 + BitVec.ofNat 16 cfg.height - 1) })
    hawake
  rw [width, height, windowed]
  exact havoc_of_quiet hq

end

theorem panelAfter_initPlan_steps (cfg : Config) (p : Panel) : panelAfter cfg p (planEvents (initPlan cfg)) =
    panelAfter cfg (laterSteps.foldl (initStepPanel cfg) (initStepPanel cfg (forgotten (quietAfterSwreset cfg p)) 1))
      (planEvents (fillPlan cfg cfg.background)) := by
  have steps : List.range nInit = 0 :: 1 :: laterSteps := rfl
  rw [panelAfter_initPlan, steps, List.foldl_cons, List.foldl_cons, initStepPanel_zero]

/-- INIT leaves wholly unknown a panel that its first two steps have not woken, or have left settling. -/
theorem panelAfter_initPlan_forgets {cfg : Config} {p : Panel}
    (h : 0 < quietAfterSwreset cfg p ∨ romPayload cfg 1 ≠ [] ∨ cfg.delaySlpoutMs < cfg.tSlpoutMs) :
    panelAfter cfg p (planEvents (initPlan cfg)) = forgotten 0 := by
  have unknown : laterSteps.foldl (initStepPanel cfg) (initStepPanel cfg (forgotten (quietAfterSwreset cfg p)) 1) =
      laterSteps.foldl (initStepPanel cfg) (forgotten 0) := by
    by_cases early : 0 < quietAfterSwreset cfg p ∨ romPayload cfg 1 ≠ []
    · rw [initStepPanel_one_forgets cfg early]
    · push Not at early
      obtain ⟨hq, hpayload⟩ := early
      have settling : 0 < cfg.tSlpoutMs - cfg.delaySlpoutMs := by
        rcases h with h | h | h
        · omega
        · exact absurd hpayload h
        · omega
      rw [Nat.eq_zero_of_le_zero hq, initStepPanel_one_wakes cfg hpayload]
      exact foldl_laterSteps_in_quiet_time cfg settling
  rw [panelAfter_initPlan_steps, unknown, foldl_laterSteps cfg rfl]
  exact panelAfter_fillPlan_of_not_awake rfl Tri.noConfusion _

/-- The payload of a step is empty exactly if the configuration has it so. -/
theorem romPayload_eq_nil_iff (cfg : Config) {k : Nat} (hk : k < nInit) :
    romPayload cfg k = [] ↔ cfg.initPayload[k]? = some [] := by
  obtain ⟨-, -, -, -, ⟨hlen, -⟩, -⟩ := cfg.wf
  have hsome : k < cfg.initPayload.length := by rw [hlen]; exact hk
  simp [romPayload, List.getD, hsome]

/-- Settles O58: step 0 forgets everything and may leave the panel settling. Where it has settled, step 1 wakes it, the
later steps configure it and the fill paints it. Otherwise it is not known to be awake, and the fill forgets everything. -/
theorem initLeavesThePanelKnown : Obligations.InitLeavesThePanelKnown := by
  intro cfg p q w h hw hh hq
  simp only [← romPayload_eq_nil_iff cfg (k := 0) (by decide), ← romPayload_eq_nil_iff cfg (k := 1) (by decide), ne_eq]
  refine ⟨fun hswreset hslpout hpayload => ?_, fun hfast => ?_⟩
  · have settled : quietAfterSwreset cfg p = 0 := by
      unfold quietAfterSwreset
      split
      case isTrue silent => exact Nat.sub_eq_zero_of_le (hswreset.resolve_right (not_not_intro silent.2))
      case isFalse => rfl
    have woken : initStepPanel cfg (forgotten (quietAfterSwreset cfg p)) 1 = { forgotten 0 with awake := .yes } := by
      rw [settled, initStepPanel_one_wakes cfg hpayload, Nat.sub_eq_zero_of_le hslpout]
    rw [panelAfter_initPlan_steps, woken, foldl_laterSteps cfg rfl] at hq
    obtain ⟨fm, filled, cells⟩ := panelAfter_fillPlan_of_ready hw hh
      (p := configured cfg { forgotten 0 with awake := .yes }) ⟨rfl, rfl, rfl, rfl⟩ cfg.background
    rw [filled] at hq
    subst hq
    exact ⟨⟨rfl, rfl, rfl, rfl⟩, rfl, rfl, cells⟩
  · rw [hq]
    refine panelAfter_initPlan_forgets ?_
    rcases hfast with hdata | hslpout | ⟨hquiet, hsilent, hswreset⟩
    · exact .inr (.inl hdata)
    · exact .inr (.inr hslpout)
    · rw [quietAfterSwreset, if_pos ⟨hquiet, hsilent⟩]
      exact .inl (Nat.sub_pos_of_lt hswreset)

end Sys2Proof.Machine
end

section
/-! A byte on the pins, edge by edge (41_transport.md R168; logs 6, 7 and 16). -/

namespace Sys2Proof.Machine

/-- `s` after `n` edges, the last of which has put bit `7 - k` of `b` on `mosi`. -/
def State.bitOut (s : State) (b : Byte) (k n : Nat) : State :=
  ({ s.waited n s.phase with shreg := b } : State).driveBit (BitVec.ofNat 3 (7 - k))

section
variable {s : State} {b : Byte} {m : Mark} {items : List PlanItem} {d : Nat}

theorem bitOut_mosi {k : Nat} (hk : k < 8) (n : Nat) : (s.bitOut b k n).mosi = b.getLsbD (7 - k) := by
  have index : (BitVec.ofNat 3 (7 - k)).toNat = 7 - k := by
    rw [BitVec.toNat_ofNat, Nat.mod_eq_of_lt (by omega)]
  rw [State.bitOut, driveBit_mosi, index]

theorem bitOut_phase (hD : sclkDiv s.cfg = d + 1) (k n : Nat) : (s.bitOut b k n).phase = .low d := by
  rw [State.bitOut, driveBit_phase]
  exact congrArg Phase.low (Nat.sub_eq_of_eq_add hD)

/-- At the falling edge that ends bit `7 - k` the next bit goes out. -/
theorem byteEdge_of_bit_over (inp : Inputs) {k : Nat} (hk : k < 7) (n e : Nat) :
    ((s.bitOut b k n).bitSampled e).byteEdge inp b m = s.bitOut b (k + 1) (n + e) := by
  have hmore : (s.bitOut b k n).bitIdx ≠ 0 := by
    show BitVec.ofNat 3 (7 - k) ≠ 0
    bv_omega
  have hnext : (s.bitOut b k n).bitIdx - 1 = BitVec.ofNat 3 (7 - (k + 1)) := by
    show BitVec.ofNat 3 (7 - k) - 1 = _
    bv_omega
  rw [byteEdge_next_bit (s := (s.bitOut b k n).bitSampled e) rfl hmore]
  refine (congrArg (State.driveBit _) hnext).trans ?_
  simp [State.bitOut, State.bitSampled, State.waited, State.driveBit]

/-- The second half of a bit's period, counted from the edge that puts it on `mosi`: `sclk` is 1. -/
theorem runEdges_sclk_high (hf : s.fsm = .exec) (hp : s.plan = ⟨.emit (.byte b), m⟩ :: items) (hrst : s.rstPrev = false)
    (hD : sclkDiv s.cfg = d + 1) (hph : s.phase = .low d) {j : Nat} (hj : j ≤ d) (hn : s.NoReset (d + 1 + j)) :
    runEdges (d + 1 + j) s = .next { s.waited (d + 1 + j) (.high (d - j)) with sclk := true } := by
  have low := runEdges_halfPeriod (fun _ _ _ => byteEdge_low_succ) hf hp hrst hph hn d le_rfl (by omega)
  have rise : step (s.waited d (.low (d - d))) = .next { s.waited (d + 1) (.high d) with sclk := true } := by
    rw [step_byte (s := s.waited _ _) hf hp (noReset_at hn (by omega)), waited_started, Nat.sub_self]
    simp [State.byteEdge, State.waited, hD]
  have high := runEdges_halfPeriod (s := { s.waited (d + 1) (.high d) with sclk := true })
    (fun _ _ _ => byteEdge_high_succ) hf hp rfl rfl (noReset_drop hn rfl) j hj le_rfl
  rw [runEdges_add (runEdges_snoc low rise), high]
  simp [State.waited]

/-- The period of each of the eight bits ends within the byte's edges. -/
theorem bit_period_le {k : Nat} (hk : k < 8) (D : Nat) : 2 * D * k + 2 * D ≤ 16 * D :=
  calc 2 * D * k + 2 * D = 2 * D * (k + 1) := (Nat.mul_succ _ _).symm
    _ ≤ 2 * D * 8 := Nat.mul_le_mul_left _ hk
    _ = 16 * D := by omega

/-- The period of bit `7 - k` and the falling edge that ends it. -/
theorem runEdges_bit_over (hf : s.fsm = .exec) (hp : s.plan = ⟨.emit (.byte b), m⟩ :: items)
    (hD : sclkDiv s.cfg = d + 1) (hn : s.NoReset (16 * (d + 1) + 1)) {k : Nat} (hk : k < 8)
    (out : runEdges (2 * (d + 1) * k + 1) s = .next (s.bitOut b k (2 * (d + 1) * k + 1))) :
    runEdges (2 * (d + 1) * (k + 1) + 1) s =
      .next (((s.bitOut b k (2 * (d + 1) * k + 1)).bitSampled (2 * d + 1 + 1)).byteEdge
        (s.inputs.getD (2 * (d + 1) * (k + 1)) quietInputs) b m) := by
  have inTime := bit_period_le hk (d + 1)
  have period_end : 2 * (d + 1) * k + 1 + (2 * d + 1) = 2 * (d + 1) * (k + 1) := by ring
  have left : (s.bitOut b k (2 * (d + 1) * k + 1)).NoReset (2 * d + 1 + 1) :=
    noReset_drop (noReset_mono hn (by omega)) rfl
  have period := runEdges_bit (s := s.bitOut b k _) hf hp rfl hD (bitOut_phase hD k _) (noReset_mono left (by omega))
  have input : ((s.bitOut b k (2 * (d + 1) * k + 1)).bitSampled (2 * d + 1)).inputNow =
      s.inputs.getD (2 * (d + 1) * (k + 1)) quietInputs := by
    show ((s.inputs.drop (2 * (d + 1) * k + 1)).drop (2 * d + 1)).headD quietInputs = _
    rw [List.drop_drop, period_end]
    simp
  have falls := step_byte (s := (s.bitOut b k (2 * (d + 1) * k + 1)).bitSampled (2 * d + 1)) hf hp
    (noReset_at left (Nat.lt_succ_self _))
  rw [bitSampled_started, input] at falls
  have run := (runEdges_add out).trans (runEdges_snoc period falls)
  rwa [← Nat.add_assoc, period_end] at run

/-- The edges up to the one that puts bit `7 - k` on `mosi`. -/
theorem runEdges_bitOut (hf : s.fsm = .exec) (hp : s.plan = ⟨.emit (.byte b), m⟩ :: items) (hph : s.phase = .ready)
    (hD : sclkDiv s.cfg = d + 1) (hn : s.NoReset (16 * (d + 1) + 1)) (k : Nat) (hk : k < 8) :
    runEdges (2 * (d + 1) * k + 1) s = .next (s.bitOut b k (2 * (d + 1) * k + 1)) := by
  induction k with
  | zero =>
    have start : step s = .next (s.bitOut b 0 1) := by
      rw [step_byte hf hp (noReset_now hn (by omega))]
      simp [State.byteEdge, hph, State.started, State.popInputs, State.bitOut, State.waited]
    exact runEdges_snoc (runEdges_zero s) start
  | succ k ih =>
    have edges : 2 * (d + 1) * k + 1 + (2 * d + 1 + 1) = 2 * (d + 1) * (k + 1) + 1 := by ring
    rw [runEdges_bit_over hf hp hD hn (by omega) (ih (by omega)), byteEdge_of_bit_over _ (by omega), edges]

/-- While bit `7 - k` is on `mosi`, no edge of a byte changes a line but `sclk`, or the trace. -/
theorem runEdges_in_bit (hf : s.fsm = .exec) (hp : s.plan = ⟨.emit (.byte b), m⟩ :: items) (hph : s.phase = .ready)
    (hD : sclkDiv s.cfg = d + 1) (hn : s.NoReset (16 * (d + 1) + 1)) {k j : Nat} (hk : k < 8) (hj : j ≤ d) :
    (∃ t, runEdges (2 * (d + 1) * k + j + 1) s = .next t ∧ t.sclk = false ∧ t.mosi = b.getLsbD (7 - k) ∧
      t.cs = s.cs ∧ t.cd = s.cd ∧ t.log = s.log) ∧
    (∃ t, runEdges (2 * (d + 1) * k + (d + 1) + j + 1) s = .next t ∧ t.sclk = true ∧ t.mosi = b.getLsbD (7 - k) ∧
      t.cs = s.cs ∧ t.cd = s.cd ∧ t.log = s.log) := by
  have inTime := bit_period_le hk (d + 1)
  have out := runEdges_bitOut hf hp hph hD hn k hk
  have hin : (s.bitOut b k (2 * (d + 1) * k + 1)).inputs = s.inputs.drop (2 * (d + 1) * k + 1) := rfl
  have hphase := bitOut_phase (b := b) hD k (2 * (d + 1) * k + 1)
  have low := runEdges_halfPeriod (s := s.bitOut b k (2 * (d + 1) * k + 1)) (fun _ _ _ => byteEdge_low_succ) hf hp rfl
    hphase (noReset_drop (noReset_mono hn (by omega)) hin) j hj le_rfl
  have high := runEdges_sclk_high (s := s.bitOut b k (2 * (d + 1) * k + 1)) hf hp rfl hD hphase hj
    (noReset_drop (noReset_mono hn (by omega)) hin)
  constructor
  · rw [show 2 * (d + 1) * k + j + 1 = 2 * (d + 1) * k + 1 + j by omega, runEdges_add out, low]
    exact ⟨_, rfl, rfl, bitOut_mosi hk _, rfl, rfl, rfl⟩
  · rw [show 2 * (d + 1) * k + (d + 1) + j + 1 = 2 * (d + 1) * k + 1 + (d + 1 + j) by omega, runEdges_add out, high]
    exact ⟨_, rfl, rfl, bitOut_mosi hk _, rfl, rfl, rfl⟩

/-- The end of a byte: the input of the eighth falling edge says whether the bus loses it. -/
theorem runEdges_byteDone (hf : s.fsm = .exec) (hp : s.plan = ⟨.emit (.byte b), m⟩ :: items) (hph : s.phase = .ready)
    (hD : sclkDiv s.cfg = d + 1) (hn : s.NoReset (16 * (d + 1) + 1)) :
    runEdges (16 * (d + 1) + 1) s = .next (((({ s with shreg := b } : State).byteShifted (16 * (d + 1) + 1)).byteDone b
      (s.inputs.getD (16 * (d + 1)) quietInputs).busFault).finish m) := by
  have edges : 2 * (d + 1) * (7 + 1) = 16 * (d + 1) := by omega
  have last := runEdges_bit_over hf hp hD hn (by decide) (runEdges_bitOut hf hp hph hD hn 7 (by decide))
  have shifted : ({ (s.bitOut b 7 (2 * (d + 1) * 7 + 1)).bitSampled (2 * d + 1 + 1) with sclk := false } : State) =
      ({ s with shreg := b } : State).byteShifted (16 * (d + 1) + 1) := by
    simp [State.bitOut, State.bitSampled, State.byteShifted, State.waited, State.driveBit]
    omega
  rwa [edges, byteEdge_last (s := (s.bitOut b 7 _).bitSampled _) rfl rfl, shifted] at last

end

/-- Settles O44: each bit is out for its two half periods (`runEdges_in_bit`), and the falling edge of the last ends the
byte (`runEdges_byteDone`). -/
theorem byteIsShiftedMsbFirst : Obligations.ByteIsShiftedMsbFirst := by
  intro s b m items D hf hph hp hD hn
  obtain ⟨d, rfl⟩ : ∃ d, D = d + 1 := ⟨D - 1, (Nat.sub_add_cancel (hD ▸ sclkDiv_pos s.cfg)).symm⟩
  refine ⟨fun k j hk hj => runEdges_in_bit hf hp hph hD.symm hn hk (Nat.le_of_lt_succ hj),
    _, runEdges_byteDone hf hp hph hD.symm hn, ?_⟩
  simp [State.byteShifted, State.waited, State.csAsserted, cdOfBit, hp]

end Sys2Proof.Machine
end

section
/-! The steps that end a frame, by its closing event or by reset, and what a step does to the trace (20_memory.md R96, R108,
70_reset_and_hazards.md R332). -/

namespace Sys2Proof.Machine

/-! ## The end of a frame -/

theorem decodeFrame_of_encode {i : Instr} {f : List FrameByte} (h : encode i = .frame f) : decodeFrame f = .ok i := by
  cases i
  all_goals cases h
  all_goals exact decodeFrame_frameOf rfl

theorem frameCommand_eq_none {faulty : Bool} {f : List FrameByte} (h : faulty = true ∨ ∃ e, decodeFrame f = .error e) :
    frameCommand faulty f = none := by
  rcases h with rfl | ⟨e, he⟩
  · rfl
  · cases faulty <;> simp [frameCommand, he, Except.toOption]

theorem panelFrame_havoc (s : State) : s.panelFrame Panel.havoc = s.mapPanels (fun _ => forgotten 0) := by
  simp only [State.panelFrame, accept_havoc]

section
variable {s : State} {m : Mark} {items : List PlanItem}

theorem edge_of_closing (hr : s.inputNow.rst = false) (hf : s.fsm = .exec)
    (hp : s.plan = ⟨.emit (.cs .inact), m⟩ :: items) (hph : s.phase = .gap 0) :
    s.edge = (s.started.finish m).closeFrame := by
  have hgap : s.started.phase = .gap 0 := hph
  rw [edge_of_exec hf hr]
  refine (sequence_line (s := s.started) hp (.inl ⟨_, rfl⟩) _).trans ?_
  simp only [State.lineEdge, hgap]
  rfl

/-- The step at the end of a frame that is a panel command's. -/
theorem step_of_frame {i : Instr} (hr : s.inputNow.rst = false) (hf : s.fsm = .exec)
    (hp : s.plan = ⟨.emit (.cs .inact), m⟩ :: items) (hph : s.phase = .gap 0) (hcs : s.cs = s.cfg.csActive)
    (hc : frameCommand s.rxFaulty s.openFrame = some i) :
    step s = exec i ((s.started.driveCs .inact).finish m) := by
  refine step_of_run ((edge_of_closing hr hf hp hph).trans ?_)
  have asserted : (s.started.finish m).csAsserted = true := by simp [State.csAsserted, State.started, hcs]
  have command : frameCommand (s.started.finish m).rxFaulty (s.started.finish m).openFrame = some i := by
    simpa [State.openFrame, State.started] using hc
  rw [State.closeFrame, if_pos asserted]
  simp only [command, finish_driveCs]

/-- The step at the end of a frame that makes no panel command. -/
theorem step_of_unknown_frame (hr : s.inputNow.rst = false) (hf : s.fsm = .exec)
    (hp : s.plan = ⟨.emit (.cs .inact), m⟩ :: items) (hph : s.phase = .gap 0) (hcs : s.cs = s.cfg.csActive)
    (hc : frameCommand s.rxFaulty s.openFrame = none) :
    step s = .next (((s.started.driveCs .inact).panelFrame Panel.havoc).finish m) := by
  refine step_of_settled ((edge_of_closing hr hf hp hph).trans ?_)
  have asserted : (s.started.finish m).csAsserted = true := by simp [State.csAsserted, State.started, hcs]
  have command : frameCommand (s.started.finish m).rxFaulty (s.started.finish m).openFrame = none := by
    simpa [State.openFrame, State.started] using hc
  rw [State.closeFrame, if_pos asserted]
  simp only [command, finish_driveCs, finish_panelFrame]

end

/-- Settles O9: `frameCommand` says what the frame makes. The encoding of a command decodes to it, and a lost byte or a
decoding error makes none. -/
theorem stepRunsTheClosedFrame : Obligations.StepRunsTheClosedFrame := by
  intro s inp rest m items hin hrst hf hp hph hcs
  have hr : s.inputNow.rst = false := by simp [State.inputNow, hin, hrst]
  have htail : s.inputs.tail = rest := by rw [hin, List.tail_cons]
  have hitems : s.plan.tail = items := by rw [hp, List.tail_cons]
  refine ⟨fun i hintact hencode => ?_, fun hlost => ?_⟩
  · rw [step_of_frame hr hf hp hph hcs (frameCommand_eq_some.2 ⟨hintact, decodeFrame_of_encode hencode⟩),
      ← htail, ← hitems, hintact]
    rfl
  · rw [step_of_unknown_frame hr hf hp hph hcs (frameCommand_eq_none hlost), panelFrame_havoc, ← htail, ← hitems]
    rfl

/-- Settles O14: the step is `State.resetEdge`, which gives the panels their `blockReset`; the frame view's arm for RESET
is its definition. -/
theorem resetCutsTheFrameShort : Obligations.ResetCutsTheFrameShort := by
  refine ⟨fun s hr => ⟨_, step_of_settled (edge_of_reset hr), ?_, rfl, rfl, rfl, fun hcs => ?_, fun hcs => ?_⟩,
    fun _ _ _ => rfl⟩
  · simp
  · have cut : s.popInputs.csAsserted = true := by simp [State.csAsserted, hcs]
    rw [resetEdge_panelAcrossResets, cut]
    exact accept_havoc _
  · have between : s.popInputs.csAsserted = false := by simpa [State.csAsserted] using hcs
    rw [resetEdge_panelAcrossResets, between]
    rfl

/-! ## The trace -/

/-- `t` has the trace of `s` and at most one entry more. -/
def LogGrows (s t : State) : Prop := t.log = s.log ∨ ∃ x, t.log = x :: s.log

theorem LogGrows.entry {s t : State} {x : TraceItem} (h : t.log = x :: s.log) : LogGrows s t := .inr ⟨x, h⟩

theorem logGrows_byteEdge (s : State) (inp : Inputs) (b : Byte) (m : Mark) : LogGrows s (s.byteEdge inp b m) := by
  rcases byteEdge_cases s inp b m with
    ⟨_, e⟩ | ⟨_, _, e⟩ | ⟨_, _, e⟩ | ⟨_, _, e⟩ | ⟨_, _, e⟩ | ⟨_, e⟩ <;> rw [e]
  case inr.inr.inl => exact .entry (finish_log _ m)
  all_goals exact .inl rfl

theorem logGrows_waitEdge (s : State) (ms : Nat) (m : Mark) : LogGrows s (s.waitEdge ms m) := by
  rcases waitEdge_cases s ms m with ⟨_, _, e⟩ | ⟨_, _, e⟩ | ⟨_, e⟩ <;> rw [e]
  · exact .entry (finish_log _ m)
  all_goals exact .inl rfl

theorem logGrows_sampleEdge (s : State) (inp : Inputs) (m : Mark) : LogGrows s (s.sampleEdge inp m) := by
  rcases sampleEdge_cases s inp m with ⟨r, _, e⟩ | ⟨_, _, e⟩ | ⟨_, _, e⟩ | ⟨_, _, e⟩ <;> rw [e]
  · exact .inl (finish_log _ m)
  all_goals exact .inl rfl

/-- A CS or CD change at its end appends its event. -/
theorem logGrows_line {s t : State} {m : Mark} {x : TraceItem} (h : t.log = x :: (s.finish m).log) : LogGrows s t :=
  .entry (h.trans (by rw [finish_log]))

theorem logGrows_sequence_settled {s t : State} {inp : Inputs} (h : s.sequence inp = .settled t) : LogGrows s t := by
  rcases sequence_settled h with ⟨_, rfl⟩ | ⟨op, m, items, _, hc⟩
  · exact .inl rfl
  · rcases hc with ⟨_, _, _, _, rfl⟩ | ⟨_, _, rfl⟩ | ⟨_, _, _, _, rfl⟩ | ⟨_, _, _, rfl⟩ | ⟨_, _, _, rfl⟩ |
      ⟨b, _, rfl⟩ | ⟨ms, _, rfl⟩ | ⟨v, _, rfl⟩ | ⟨_, rfl⟩
    · exact .inl rfl
    · exact logGrows_line rfl
    · exact logGrows_line rfl
    · exact logGrows_line rfl
    · exact logGrows_line rfl
    · exact logGrows_byteEdge s inp b m
    · exact logGrows_waitEdge s ms m
    · exact .inl (finish_log _ m)
    · exact logGrows_sampleEdge s inp m

/-- No meaning touches the trace. -/
theorem exec_log {i : Instr} {s t : State} (h : exec i s = .next t) : t.log = s.log := by
  cases i <;> cases h <;> rfl

theorem logGrows_sequence_run {s v t : State} {inp : Inputs} {i : Instr} (hs : s.sequence inp = .run i v)
    (ht : exec i v = .next t) : LogGrows s t := by
  obtain ⟨m, items, _, _, _, _, rfl⟩ := sequence_run hs
  exact logGrows_line (exec_log ht)

theorem logGrows_resetEdge (s : State) : LogGrows s s.resetEdge := by
  cases h : s.rstPrev with
  | false => exact .entry (x := .reset) (by simp [h])
  | true => exact .inl (by simp [h])

/-- Settles O53: by what a step can do. A reset edge appends at most its RESET, an edge of the sequencer at most the event
that ends its micro-operation, and request assembly nothing. -/
theorem traceOnlyGrows : Obligations.TraceOnlyGrows := by
  intro s t hstep
  have grows : LogGrows s.started t := by
    rcases step_inv hstep with ⟨_, rfl⟩ | ⟨_, _, rfl⟩ | ⟨_, _, _, _, b, _, hb⟩ | ⟨_, _, hs | ⟨i, v, hs, ht⟩⟩
    · exact logGrows_resetEdge s.popInputs
    · exact .inl rfl
    · rcases hb with ⟨c, _, rfl⟩ | ⟨i, _, ht⟩ | ⟨_, _, _, rfl⟩
      · exact .inl rfl
      · exact .inl ((exec_log ht).trans (takeByte_log _ b))
      · exact .inl rfl
    · exact logGrows_sequence_settled hs
    · exact logGrows_sequence_run hs ht
  rcases grows with same | ⟨x, entry⟩
  · exact .inl (congrArg List.reverse same)
  · exact .inr ⟨x, by rw [State.trace, entry, List.reverse_cons]; rfl⟩

end Sys2Proof.Machine
end

section
/-! Requests and their bytes, frames and their bytes: each decoder accepts the encodings and nothing else
(30_encoding.md R120-R133). -/

namespace Sys2Proof.Machine

/-! ## Requests from their bytes -/

/-- The request decoder reads back every request that fits its encoding. -/
theorem decodeRequest_of_encode {i : Instr} {bs : List Byte} (h : encode i = .request bs) (hwf : i.wellFormed = true) :
    decodeRequest bs = .ok i := by
  suffices hdecode : decode (encode i) = .ok i by rwa [h] at hdecode
  cases i
  case send opc payload => exact Laws.EncodeDecodes.send opc payload hwf
  case init => exact Laws.EncodeDecodes.init hwf
  case setWindow x0 y0 x1 y1 => exact Laws.EncodeDecodes.setWindow x0 y0 x1 y1 hwf
  case drawRect x y w ht c => exact Laws.EncodeDecodes.drawRect x y w ht c hwf
  case fillScreen c => exact Laws.EncodeDecodes.fillScreen c hwf
  case map => exact Laws.EncodeDecodes.map hwf
  all_goals cases h

/-- Settles O1: by the port an instruction travels on, `decodeRequest_of_encode` or `decodeFrame_of_encode`. -/
theorem decodeUndoesEncode : Obligations.DecodeUndoesEncode := by
  intro i hwf
  cases h : encode i with
  | request bs => exact decodeRequest_of_encode h hwf
  | frame f => exact decodeFrame_of_encode h

/-! ## The operand decoders -/

theorem operandBytes_be16 (a b : Byte) : operandBytes (be16 a b) = [a, b] := by simp [operandBytes]

theorem decodeSend_ok {args : List Byte} {i : Instr} (h : decodeSend args = .ok i) :
    ∃ opc p, i = .send opc p ∧ p.length ≤ maxPayload ∧ args = opc :: BitVec.ofNat 8 p.length :: p := by
  unfold decodeSend at h
  split at h
  case h_1 opc len p =>
    split_ifs at h with hmax hshort hlong
    cases h
    have hlen : p.length = len.toNat := by omega
    exact ⟨opc, p, rfl, by omega, by rw [hlen, BitVec.ofNat_toNat, BitVec.setWidth_eq]⟩
  case h_2 => cases h

theorem decodeBare_ok {i j : Instr} {args : List Byte} (h : decodeBare j args = .ok i) : i = j ∧ args = [] := by
  cases args with
  | nil => cases h; exact ⟨rfl, rfl⟩
  | cons => cases h

theorem decodeSetWindow_ok {args : List Byte} {i : Instr} (h : decodeSetWindow args = .ok i) :
    ∃ x0 y0 x1 y1, i = .setWindow x0 y0 x1 y1 ∧
      args = operandBytes x0 ++ operandBytes y0 ++ operandBytes x1 ++ operandBytes y1 := by
  unfold decodeSetWindow at h
  split at h <;> cases h
  exact ⟨_, _, _, _, rfl, by simp only [operandBytes_be16]; rfl⟩

theorem decodeDrawRect_ok {args : List Byte} {i : Instr} (h : decodeDrawRect args = .ok i) :
    ∃ x y w ht c, i = .drawRect x y w ht c ∧
      args = operandBytes x ++ operandBytes y ++ operandBytes w ++ operandBytes ht ++ operandBytes c := by
  unfold decodeDrawRect at h
  split at h <;> cases h
  exact ⟨_, _, _, _, _, rfl, by simp only [operandBytes_be16]; rfl⟩

theorem decodeFillScreen_ok {args : List Byte} {i : Instr} (h : decodeFillScreen args = .ok i) :
    ∃ c, i = .fillScreen c ∧ args = operandBytes c := by
  unfold decodeFillScreen at h
  split at h <;> cases h
  exact ⟨_, rfl, (operandBytes_be16 _ _).symm⟩

/-! ## Bytes from their request -/

/-- The request decoder accepts encodings only. -/
theorem encode_eq_of_decodeRequest {bs : List Byte} {i : Instr} (h : decodeRequest bs = .ok i) :
    encode i = .request bs ∧ i.wellFormed = true := by
  unfold decodeRequest at h
  split at h
  · cases h
  · obtain ⟨opc, p, rfl, hlen, rfl⟩ := decodeSend_ok h
    exact ⟨rfl, decide_eq_true hlen⟩
  · obtain ⟨rfl, rfl⟩ := decodeBare_ok h
    exact ⟨rfl, rfl⟩
  · obtain ⟨x0, y0, x1, y1, rfl, rfl⟩ := decodeSetWindow_ok h
    exact ⟨rfl, rfl⟩
  · obtain ⟨x, y, w, ht, c, rfl, rfl⟩ := decodeDrawRect_ok h
    exact ⟨rfl, rfl⟩
  · obtain ⟨c, rfl, rfl⟩ := decodeFillScreen_ok h
    exact ⟨rfl, rfl⟩
  · obtain ⟨rfl, rfl⟩ := decodeBare_ok h
    exact ⟨rfl, rfl⟩
  · cases h

/-- An encoding has the length its first bytes announce (30_encoding.md R122). -/
theorem requestLength_of_encode {i : Instr} {bs : List Byte} (h : encode i = .request bs) (hwf : i.wellFormed = true) :
    requestLength bs = some bs.length := by
  cases i
  case send opc payload =>
    cases h
    have hfits : payload.length ≤ 16 := of_decide_eq_true hwf
    have hlen : (BitVec.ofNat 8 payload.length).toNat = payload.length := by
      rw [BitVec.toNat_ofNat, Nat.mod_eq_of_lt (by omega)]
    change some (3 + (BitVec.ofNat 8 payload.length).toNat) = some (payload.length + 3)
    rw [hlen, Nat.add_comm]
  all_goals cases h
  all_goals rfl

/-- Settles O2: what the decoder accepts is an encoding, and an encoding has its announced length. -/
theorem acceptedRequestIsItsEncoding : Obligations.AcceptedRequestIsItsEncoding := by
  intro bs i h
  obtain ⟨hencode, hwf⟩ := encode_eq_of_decodeRequest h
  exact ⟨hencode, hwf, requestLength_of_encode hencode hwf⟩

/-! ## Frames -/

/-- The frame of a panel command is its opcode's. -/
theorem encode_of_panelCommand {op : Byte} {d : List Byte} {i : Instr} (h : panelCommand op d = some i) :
    encode i = .frame (frameOf op d) := by
  unfold panelCommand at h
  split at h <;> cases h <;> rfl

/-- Bytes that are all data are the data phase of a frame. -/
theorem map_data_of_all {rest : List FrameByte} (h : rest.all (fun b => b.1 == .data) = true) :
    (rest.map (fun b => b.2)).map (fun b => (CdLevel.data, b)) = rest := by
  rw [List.map_map]
  refine (List.map_congr_left fun b hb => ?_).trans (List.map_id rest)
  have hdata : b.1 = .data := eq_of_beq (List.all_eq_true.1 h b hb)
  exact Prod.ext hdata.symm rfl

/-- A frame that decodes is the frame of an opcode and its data. -/
theorem eq_frameOf_of_decodeFrame {f : List FrameByte} {i : Instr} (h : decodeFrame f = .ok i) :
    ∃ op d, f = frameOf op d ∧ panelCommand op d = some i := by
  unfold decodeFrame at h
  split at h
  · cases h
  · cases h
  · split at h
    · rename_i op rest hall
      split at h
      · rename_i hcommand
        cases h
        exact ⟨op, _, by rw [frameOf, map_data_of_all hall], hcommand⟩
      · cases h
    · cases h

/-- Settles O3: a frame that decodes is its opcode's with its data, and so is the encoding. -/
theorem acceptedFrameIsItsEncoding : Obligations.AcceptedFrameIsItsEncoding := by
  intro f i h
  obtain ⟨op, d, rfl, hcommand⟩ := eq_frameOf_of_decodeFrame h
  exact encode_of_panelCommand hcommand

/-- Settles O5: each word is evaluated. -/
theorem writtenWordsDecode : Obligations.WrittenWordsDecode := by
  exact ⟨rfl, rfl, rfl, rfl, rfl, rfl⟩

end Sys2Proof.Machine
end

section
/-! Requests in a byte stream, and the step that runs one (30_encoding.md R121, R140). A request is read off byte
by byte: cut short, it neither faults nor decodes. -/

namespace Sys2Proof.Machine

theorem encode_of_isRequest {i : Instr} (h : isRequest i = true) : encode i = .request (requestBytes i) := by
  unfold isRequest at h
  split at h
  · rename_i bs hencode
    simp only [requestBytes, hencode]
  · cases h

/-! ## A request's first bytes -/

/-- The first byte of a request is a request op byte. -/
theorem isRequestOp_of_encode {i : Instr} {op : Byte} {rest : List Byte} (h : encode i = .request (op :: rest)) :
    isRequestOp op = true := by
  cases i
  all_goals cases h
  all_goals rfl

/-- The third byte of a SEND is the length of its payload. -/
theorem sendLength_of_encode {i : Instr} {opc len : Byte} {rest : List Byte}
    (h : encode i = .request (0x01 :: opc :: len :: rest)) (hwf : i.wellFormed = true) : len.toNat ≤ maxPayload := by
  have hdecode : decodeSend (opc :: len :: rest) = .ok i := decodeRequest_of_encode h hwf
  obtain ⟨opc', p, -, hfits, hargs⟩ := decodeSend_ok hdecode
  cases hargs
  exact (Nat.mod_le _ _).trans hfits

/-- No byte of a request raises a fault. -/
theorem spellingFault_of_encode {i : Instr} {sent missing : List Byte} (h : encode i = .request (sent ++ missing))
    (hwf : i.wellFormed = true) : spellingFault sent = none := by
  match sent with
  | [] => rfl
  | [op] => exact if_pos (isRequestOp_of_encode h)
  | [op, opc, len] =>
    refine if_neg fun ⟨hop, hlong⟩ => ?_
    subst hop
    exact Nat.not_lt.2 (sendLength_of_encode h hwf) hlong
  | [_, _] => rfl
  | _ :: _ :: _ :: _ :: _ => rfl

theorem spellingFault_of_complete {i : Instr} {bs : List Byte} (h : encode i = .request bs)
    (hwf : i.wellFormed = true) : spellingFault bs = none :=
  spellingFault_of_encode (missing := []) (by rwa [List.append_nil]) hwf

/-- A request cut short is no request: its announced length is that of the whole. -/
theorem decodeRequest_of_incomplete {i : Instr} {sent missing : List Byte} (h : encode i = .request (sent ++ missing))
    (hwf : i.wellFormed = true) (hmissing : missing ≠ []) : ∃ e, decodeRequest sent = .error e := by
  cases hd : decodeRequest sent with
  | error e => exact ⟨e, rfl⟩
  | ok j =>
    obtain ⟨hencode, hwf'⟩ := encode_eq_of_decodeRequest hd
    have announced := requestLength_append (requestLength_of_encode hencode hwf') missing
    rw [requestLength_of_encode h hwf, Option.some.injEq, List.length_append] at announced
    exact absurd (List.eq_nil_of_length_eq_zero (by omega)) hmissing

/-! ## Streams -/

/-- The stream of the requests `is` followed by what `rest` spells. -/
def requestsThen (is : List Instr) (rest : Stream) : Stream := ⟨is ++ rest.requests, rest.ending⟩

theorem decodeStreamFrom_of_fault {held : List Byte} {b : Byte} {cause : FaultCause}
    (h : spellingFault (held ++ [b]) = some cause) (index : Nat) (bs : List Byte) :
    decodeStreamFrom held index (b :: bs) = ⟨[], .fault cause index⟩ := by
  simp only [decodeStreamFrom, h]

/-- Bytes that leave a request incomplete are held. -/
theorem decodeStreamFrom_within {i : Instr} (hwf : i.wellFormed = true) {missing : List Byte} (hmissing : missing ≠ [])
    (rest sent : List Byte) : ∀ (held : List Byte) (index : Nat), encode i = .request (held ++ sent ++ missing) →
      decodeStreamFrom held index (sent ++ rest) = decodeStreamFrom (held ++ sent) (index + sent.length) rest := by
  induction sent with
  | nil => intro held index _; simp
  | cons b sent ih =>
    intro held index h
    have hb : encode i = .request (held ++ [b] ++ (sent ++ missing)) := by simpa using h
    obtain ⟨e, he⟩ := decodeRequest_of_incomplete hb hwf (by simp [hmissing])
    have step := ih (held ++ [b]) (index + 1) (by simpa using h)
    simp only [List.cons_append, decodeStreamFrom, spellingFault_of_encode hb hwf, he, step]
    simp [Nat.add_assoc, Nat.add_comm 1]

/-- The last byte of a request completes it. -/
theorem decodeStreamFrom_last {i : Instr} {held : List Byte} {b : Byte} (h : encode i = .request (held ++ [b]))
    (hwf : i.wellFormed = true) (index : Nat) (rest : List Byte) :
    decodeStreamFrom held index (b :: rest) = requestsThen [i] (decodeStreamFrom [] (index + 1) rest) := by
  simp only [decodeStreamFrom, spellingFault_of_complete h hwf, decodeRequest_of_encode h hwf]
  rfl

/-- A stream that begins with a request. -/
theorem decodeStreamFrom_request {i : Instr} (hreq : isRequest i = true) (hwf : i.wellFormed = true) (index : Nat)
    (rest : List Byte) :
    decodeStreamFrom [] index (requestBytes i ++ rest) =
      requestsThen [i] (decodeStreamFrom [] (index + (requestBytes i).length) rest) := by
  have hencode := encode_of_isRequest hreq
  rcases List.eq_nil_or_concat (requestBytes i) with hnil | ⟨sent, b, hbytes⟩
  · rw [hnil] at hencode
    cases (decodeRequest_of_encode hencode hwf)
  · rw [List.concat_eq_append] at hbytes
    rw [hbytes] at hencode ⊢
    rw [List.append_assoc, decodeStreamFrom_within hwf (List.cons_ne_nil b []) _ sent [] index hencode]
    rw [List.length_append, ← Nat.add_assoc]
    exact decodeStreamFrom_last hencode hwf _ rest

/-- A stream that begins with requests. -/
theorem decodeStreamFrom_requests (rest : List Byte) (is : List Instr) : ∀ index : Nat,
    (∀ i ∈ is, isRequest i = true ∧ i.wellFormed = true) →
    decodeStreamFrom [] index (is.flatMap requestBytes ++ rest) =
      requestsThen is (decodeStreamFrom [] (index + (is.flatMap requestBytes).length) rest) := by
  induction is with
  | nil => intro index _; rfl
  | cons i is ih =>
    intro index h
    obtain ⟨⟨hreq, hwf⟩, his⟩ := List.forall_mem_cons.1 h
    rw [List.flatMap_cons, List.append_assoc, decodeStreamFrom_request hreq hwf, ih _ his, List.length_append,
      Nat.add_assoc]
    rfl

/-- The LEN byte of a SEND over 16 is a fault at its index. -/
theorem decodeStreamFrom_sendLength {len : Byte} (h : 16 < len.toNat) (opc : Byte) (index : Nat) (tail : List Byte) :
    decodeStreamFrom [] index (0x01 :: opc :: len :: tail) = ⟨[], .fault .sendLen (index + 2)⟩ := by
  have held := decodeStreamFrom_within (i := .send opc []) rfl (List.cons_ne_nil 0 []) (len :: tail) [0x01, opc] []
    index rfl
  have fault : spellingFault [0x01, opc, len] = some .sendLen := if_pos ⟨rfl, h⟩
  exact held.trans (decodeStreamFrom_of_fault fault _ tail)

/-- Settles O4: the requests are read off one after another, and each clause is what the stream after them spells. -/
theorem streamDecodesItsRequests : Obligations.StreamDecodesItsRequests := by
  intro is his
  have stream : ∀ (rest : List Byte) (ending : StreamEnd),
      decodeStreamFrom [] (is.flatMap requestBytes).length rest = ⟨[], ending⟩ →
      decodeStream (is.flatMap requestBytes ++ rest) = ⟨is, ending⟩ := by
    intro rest ending h
    rw [decodeStream, decodeStreamFrom_requests rest is 0 his, Nat.zero_add, h]
    simp [requestsThen]
  refine ⟨?_, fun op tail hop => ?_, fun opc len tail hlen => ?_, fun i sent missing hreq hwf hbytes hsent hmissing => ?_⟩
  · simpa using stream [] .clean rfl
  · exact stream _ _ (decodeStreamFrom_of_fault (by simp [spellingFault, hop]) _ tail)
  · exact stream _ _ (decodeStreamFrom_sendLength hlen opc _ tail)
  · have hencode := encode_of_isRequest hreq
    rw [hbytes] at hencode
    have held := decodeStreamFrom_within hwf hmissing [] sent [] (is.flatMap requestBytes).length hencode
    rw [List.append_nil] at held
    exact stream _ _ (held.trans (by simp [decodeStreamFrom, hsent]))

/-! ## The step that completes a request -/

/-- The longest request is a SEND with a payload of 16 bytes (10_state.md R36). -/
theorem length_le_of_encode {i : Instr} {bs : List Byte} (h : encode i = .request bs) (hwf : i.wellFormed = true) :
    bs.length ≤ 19 := by
  cases i
  case send opc payload =>
    cases h
    have hfits : payload.length ≤ 16 := of_decide_eq_true hwf
    simp only [List.length_cons]
    omega
  all_goals cases h
  all_goals simp

/-- `rq` has room for the last byte of a request: the longest has 19. -/
theorem rqCnt_lt_of_encode {s : State} {b : Byte} {i : Instr} (h : encode i = .request (s.held ++ [b]))
    (hwf : i.wellFormed = true) : s.rqCnt.toNat < 19 := by
  have hlength := length_le_of_encode h hwf
  simp only [State.held, List.length_append, List.length_take, Vector.length_toList, List.length_singleton] at hlength
  omega

/-- The transfer of a request's last byte runs the request. -/
theorem transfer_of_encode {s : State} {b : Byte} {i : Instr} (h : encode i = .request (s.held ++ [b]))
    (hwf : i.wellFormed = true) : s.transfer b = .run i (s.takeByte b) := by
  have hroom := rqCnt_lt_of_encode h hwf
  have hlength : requestLength (s.held ++ [b]) = some (s.rqCnt.toNat + 1) := by
    simp [requestLength_of_encode h hwf, held_length hroom.le]
  rcases transfer_cases s b with ⟨hfull, _⟩ | ⟨_, ⟨c, hc, _⟩ | ⟨_, ⟨j, _, hj, e⟩ | ⟨hne, _⟩⟩⟩
  · omega
  · rw [spellingFault_of_complete h hwf] at hc; cases hc
  · rw [decodeRequest_of_encode h hwf] at hj
    cases hj
    exact e
  · exact absurd hlength hne

/-- Settles O8: the edge is the transfer of the byte offered, which `transfer_of_encode` says runs the request. -/
theorem stepRunsTheCompletedRequest : Obligations.StepRunsTheCompletedRequest := by
  intro s inp rest i hin hrst hvalid hf hwf hencode
  have hnow : s.inputNow = inp := inputNow_of_inputs hin
  have htail : s.inputs.tail = rest := by rw [hin, List.tail_cons]
  have hedge : s.edge = s.started.transfer inp.rqData := by
    simpa only [hnow] using edge_of_byte hf (by rw [hnow, hrst]) (by rw [hnow, hvalid])
  rw [step_of_run (hedge.trans (transfer_of_encode (s := s.started) hencode hwf)), ← htail]
  rfl

end Sys2Proof.Machine
end

section
/-! The assembler (30_encoding.md R138, R139): when each operand fits, and what a line that is accepted comes to. -/

namespace Sys2Proof.Machine

/-! ## Operands -/

theorem exists_error_iff {ε α : Type} {x : Except ε α} : (∃ e, x = .error e) ↔ ∀ a, x ≠ .ok a := by
  cases x <;> simp

theorem pure_eq_ok {ε α : Type} {a b : α} : (pure a : Except ε α) = .ok b ↔ b = a := by
  simp [pure, Except.pure, eq_comm]

/-- An assembler that goes on from an 8-bit operand accepts exactly if that fits and the rest does. -/
theorem asmByte_bind_eq_ok {α : Type} {n : Nat} {f : Byte → Except AsmError α} {a : α} :
    (asmByte n >>= f) = .ok a ↔ n ≤ 255 ∧ f (BitVec.ofNat 8 n) = .ok a := by
  unfold asmByte
  split
  case isTrue h => simp [bind, Except.bind, Nat.le_of_lt_succ h]
  case isFalse h => simp [bind, Except.bind]; omega

/-- An assembler that goes on from a 16-bit operand accepts exactly if that fits and the rest does. -/
theorem asmWord_bind_eq_ok {α : Type} {n : Nat} {f : Word → Except AsmError α} {a : α} :
    (asmWord n >>= f) = .ok a ↔ n ≤ 65535 ∧ f (BitVec.ofNat 16 n) = .ok a := by
  unfold asmWord
  split
  case isTrue h => simp [bind, Except.bind, Nat.le_of_lt_succ h]
  case isFalse h => simp [bind, Except.bind]; omega

theorem asmPayload_bind_eq_ok {α : Type} {ns : List Nat} {f : List Byte → Except AsmError α} {a : α} :
    (asmPayload ns >>= f) = .ok a ↔
      (ns.length ≤ 16 ∧ ∀ n ∈ ns, n ≤ 255) ∧ f (ns.map (BitVec.ofNat 8)) = .ok a := by
  have bytes : ∀ {f : List Byte → Except AsmError α},
      (ns.mapM asmByte >>= f) = .ok a ↔ (∀ n ∈ ns, n ≤ 255) ∧ f (ns.map (BitVec.ofNat 8)) = .ok a := by
    induction ns with
    | nil => simp
    | cons n ns ih => simp [asmByte_bind_eq_ok, ih, and_assoc]
  unfold asmPayload maxPayload
  split
  case isTrue h => simp [bind, Except.bind]; omega
  case isFalse h => rw [bytes, and_iff_right (Nat.not_lt.1 h)]

/-! ## Requests -/

theorem asmSend_eq_ok {opc : Nat} {ns : List Nat} {i : Instr} : asmSend (opc :: ns) = .ok i ↔
    (opc ≤ 255 ∧ ns.length ≤ 16 ∧ ∀ n ∈ ns, n ≤ 255) ∧ i = .send (BitVec.ofNat 8 opc) (ns.map (BitVec.ofNat 8)) := by
  simp only [asmSend, asmByte_bind_eq_ok, asmPayload_bind_eq_ok, pure_eq_ok, and_assoc]

theorem asmRect_eq_ok {x y w h c : Nat} {i : Instr} : asmRect x y w h c = .ok i ↔
    (x ≤ 65535 ∧ y ≤ 65535 ∧ w ≤ 65535 ∧ h ≤ 65535 ∧ c ≤ 65535) ∧
      i = .drawRect (BitVec.ofNat 16 x) (BitVec.ofNat 16 y) (BitVec.ofNat 16 w) (BitVec.ofNat 16 h) (BitVec.ofNat 16 c) := by
  simp only [asmRect, asmWord_bind_eq_ok, pure_eq_ok, and_assoc]

section
variable {cfg : Config} {i : Instr}

theorem assemble_setWindow_eq_ok {a b d e : Nat} : assemble cfg "SET_WINDOW" [a, b, d, e] = .ok i ↔
    (a ≤ 65535 ∧ b ≤ 65535 ∧ d ≤ 65535 ∧ e ≤ 65535) ∧
      i = .setWindow (BitVec.ofNat 16 a) (BitVec.ofNat 16 b) (BitVec.ofNat 16 d) (BitVec.ofNat 16 e) := by
  simp only [assemble, asmWord_bind_eq_ok, pure_eq_ok, and_assoc]

theorem assemble_fillScreen_eq_ok {c : Nat} :
    assemble cfg "FILL_SCREEN" [c] = .ok i ↔ c ≤ 65535 ∧ i = .fillScreen (BitVec.ofNat 16 c) := by
  simp only [assemble, asmWord_bind_eq_ok, pure_eq_ok]

end

/-- Settles O6: CLEAR's colour is a word already, and the other expansions are the arms of `assemble`. -/
theorem pseudoRequestsExpand : Obligations.PseudoRequestsExpand := by
  intro cfg x y w h c opc
  refine ⟨?_, rfl, rfl, rfl⟩
  have fits := cfg.background.isLt
  refine (assemble_fillScreen_eq_ok.2 ⟨by omega, ?_⟩).symm
  rw [BitVec.ofNat_toNat, BitVec.setWidth_eq]

/-! ## What the assembler accepts -/

/-- What every accepted line has: a well-formed request, and operands that fit the widest field and the longest request. -/
structure Accepted (operands : List Nat) (i : Instr) : Prop where
  request : isRequest i = true
  wellFormed : i.wellFormed = true
  fits : ∀ n ∈ operands, n ≤ 65535
  count : operands.length ≤ 17

theorem accepted_asmSend {operands : List Nat} {i : Instr} (h : asmSend operands = .ok i) : Accepted operands i := by
  cases operands with
  | nil => cases h
  | cons opc ns =>
    obtain ⟨⟨hopc, hlen, hns⟩, rfl⟩ := asmSend_eq_ok.1 h
    refine ⟨rfl, decide_eq_true (by simpa [maxPayload] using hlen), List.forall_mem_cons.2 ⟨by omega, fun n hn => ?_⟩,
      Nat.succ_le_succ hlen⟩
    exact (hns n hn).trans (by decide)

/-- A line without operands. -/
theorem accepted_bare {i : Instr} (hreq : isRequest i = true) (hwf : i.wellFormed = true) : Accepted [] i :=
  ⟨hreq, hwf, nofun, Nat.zero_le _⟩

/-- Every line the assembler accepts, by its mnemonic. -/
theorem accepted_of_assemble {cfg : Config} {mnemonic : String} {operands : List Nat} {i : Instr}
    (h : assemble cfg mnemonic operands = .ok i) : Accepted operands i := by
  unfold assemble at h
  split at h
  -- SEND
  case h_1 => exact accepted_asmSend h
  -- INIT, MAP, CLEAR
  case h_2 | h_6 | h_7 =>
    split at h <;> cases h
    exact accepted_bare rfl rfl
  -- SET_WINDOW
  case h_3 =>
    split at h <;> [skip; cases h]
    obtain ⟨fits, rfl⟩ := assemble_setWindow_eq_ok (cfg := cfg).1 h
    exact ⟨rfl, rfl, by simpa using fits, by simp⟩
  -- DRAW_RECT
  case h_4 =>
    split at h <;> [skip; cases h]
    obtain ⟨fits, rfl⟩ := asmRect_eq_ok.1 h
    exact ⟨rfl, rfl, by simpa using fits, by simp⟩
  -- FILL_SCREEN
  case h_5 =>
    split at h <;> [skip; cases h]
    obtain ⟨fits, rfl⟩ := assemble_fillScreen_eq_ok (cfg := cfg).1 h
    exact ⟨rfl, rfl, by simpa using fits, by simp⟩
  -- ERASE
  case h_8 =>
    split at h <;> [skip; cases h]
    obtain ⟨⟨hx, hy, hw, hh, -⟩, rfl⟩ := asmRect_eq_ok.1 h
    exact ⟨rfl, rfl, by simp [*], by simp⟩
  -- PIXEL
  case h_9 =>
    split at h <;> [skip; cases h]
    obtain ⟨⟨hx, hy, -, -, hc⟩, rfl⟩ := asmRect_eq_ok.1 h
    exact ⟨rfl, rfl, by simp [*], by simp⟩
  -- CMD
  case h_10 =>
    split at h <;> [exact accepted_asmSend h; cases h]
  -- any other mnemonic
  case h_11 => cases h

theorem assemble_of_unknown {cfg : Config} {mnemonic : String} {operands : List Nat}
    (h : mnemonic ∉ ["SEND", "INIT", "SET_WINDOW", "DRAW_RECT", "FILL_SCREEN", "MAP", "CLEAR", "ERASE", "PIXEL", "CMD"]) :
    assemble cfg mnemonic operands = .error .unknownMnemonic := by
  unfold assemble
  split
  case h_11 => rfl
  all_goals exact absurd (by simp) h

/-! ## The bytes of a line -/

/-- The two bytes of an operand that fits. -/
theorem operandBytes_ofNat {n : Nat} (h : n ≤ 65535) : operandBytes (BitVec.ofNat 16 n) = wordBytes n := by
  have value : (BitVec.ofNat 16 n).toNat = n := by rw [BitVec.toNat_ofNat, Nat.mod_eq_of_lt (by omega)]
  have high : hi8 (BitVec.ofNat 16 n) = BitVec.ofNat 8 (n / 256) := by
    apply BitVec.eq_of_toNat_eq
    rw [hi8_toNat, value, BitVec.toNat_ofNat]
    omega
  have low : lo8 (BitVec.ofNat 16 n) = BitVec.ofNat 8 (n % 256) := by
    apply BitVec.eq_of_toNat_eq
    rw [lo8_toNat, value, BitVec.toNat_ofNat]
    omega
  rw [operandBytes, high, low, wordBytes]

/-- Settles O7: by `Accepted` for what is accepted, and by the exact conditions of each request for its own fields and
bytes. -/
theorem assemblerRefusesWhatDoesNotFit : Obligations.AssemblerRefusesWhatDoesNotFit := by
  intro cfg mnemonic operands
  refine ⟨fun i h => ?_, assemble_of_unknown, fun hbad => ?_, fun opc p => ⟨fun hbad => ?_, fun hopc => ?_, ?_⟩,
    ⟨.init, rfl, rfl⟩, ?_, ?_, ?_, ⟨.map, rfl, rfl⟩⟩
  · have accepted := accepted_of_assemble h
    exact ⟨accepted.request, accepted.wellFormed⟩
  · refine exists_error_iff.2 fun i h => ?_
    have accepted := accepted_of_assemble h
    rcases hbad with ⟨n, hn, hlarge⟩ | hmany
    · exact Nat.not_lt.2 (accepted.fits n hn) hlarge
    · exact Nat.not_lt.2 accepted.count hmany
  · refine exists_error_iff.2 fun i h => ?_
    obtain ⟨⟨hopc, hlen, hp⟩, -⟩ := asmSend_eq_ok.1 h
    rcases hbad with hlarge | ⟨n, hn, hlarge⟩ | hmany
    · omega
    · exact Nat.not_lt.2 (hp n hn) hlarge
    · omega
  · refine exists_error_iff.2 fun i h => ?_
    obtain ⟨⟨hfits, -⟩, -⟩ := asmSend_eq_ok.1 h
    omega
  · intro hopc hp hlen
    refine ⟨_, asmSend_eq_ok.2 ⟨⟨hopc, hlen, hp⟩, rfl⟩, ?_⟩
    rw [encode, List.length_map]
  · intro a b d e ha hb hd he
    refine ⟨_, assemble_setWindow_eq_ok.2 ⟨⟨ha, hb, hd, he⟩, rfl⟩, ?_⟩
    simp only [encode, operandBytes_ofNat, ha, hb, hd, he]
  · intro x y w h c hx hy hw hh hc
    refine ⟨_, asmRect_eq_ok.2 ⟨⟨hx, hy, hw, hh, hc⟩, rfl⟩, ?_⟩
    simp only [encode, operandBytes_ofNat, hx, hy, hw, hh, hc]
  · intro c hc
    refine ⟨_, assemble_fillScreen_eq_ok.2 ⟨hc, rfl⟩, ?_⟩
    simp only [encode, operandBytes_ofNat, hc]

end Sys2Proof.Machine
end

section
/-! The transport layer (41_transport.md): SEND's plan, the serial clock, when the panel lines move (R162, R166-R170). -/

namespace Sys2Proof.Machine

/-! ## SEND and the serial clock -/

/-- Settles O18: the plan is `requestPlan`, the emission of the transaction's events. -/
theorem sendPlansOneTransaction : Obligations.SendPlansOneTransaction :=
  fun opc p s => ⟨requestPlan s.cfg (.send opc p), exec_request (bs := requestBytes (.send opc p)) rfl s,
    ops_emits (tx opc p)⟩

/-- The divider is the least that keeps SCLK at or below `SCLK_HZ` (41_transport.md R170). -/
theorem sclkDiv_le_iff {cfg : Config} {d : Nat} : sclkDiv cfg ≤ d ↔ cfg.clkHz ≤ 4000000 * (2 * d) := by
  simp only [sclkDiv, sclkHz]
  omega

/-- Settles O47: by `sclkDiv_le_iff`. The bound is attained exactly by the multiples of 8 MHz. -/
theorem serialClockIsAtMostFourMegahertz : Obligations.SerialClockIsAtMostFourMegahertz := by
  intro cfg
  have bound : cfg.clkHz ≤ 4000000 * (2 * sclkDiv cfg) := sclkDiv_le_iff.1 le_rfl
  refine ⟨sclkDiv_pos cfg, bound, fun d => sclkDiv_le_iff.2, fun hmultiple => ?_, fun hother => ?_⟩
  · have least : sclkDiv cfg ≤ cfg.clkHz / 8000000 := sclkDiv_le_iff.2 (by omega)
    omega
  · omega

/-! ## A change of CS or CD -/

/-- `s` after the event of a CS or CD change, but for what the panel makes of it. -/
def State.driveLine (s : State) : Event → State
  | .cs a => s.driveCs a
  | .cd l => s.driveCd l
  | .byte _ => s
  | .wait _ => s

section
variable {s : State} {e : Event} {m : Mark} {items : List PlanItem}

/-- What a CS or CD change comes to once it has kept its distance: the line is driven, and a frame that ends reaches the
panel. -/
theorem lineHappens_cases (he : (∃ a, e = .cs a) ∨ ∃ l, e = .cd l) :
    ∃ f, lineHappens e s = .settled ((s.driveLine e).mapPanels f) ∨
      ∃ i, lineHappens e s = .run i (s.driveLine e) ∧
        exec i (s.driveLine e) = .next ((s.driveLine e).mapPanels f) := by
  rcases he with ⟨_ | _, rfl⟩ | ⟨l, rfl⟩
  · exact ⟨id, .inl rfl⟩
  · rcases closeFrame_cases s with ⟨_, i, hc, closes⟩ | ⟨_, _, closes⟩ | ⟨_, closes⟩
    · obtain ⟨op, d, hi⟩ := decodeFrame_ok (frameCommand_eq_some.1 hc).2
      exact ⟨_, .inr ⟨i, closes, exec_panelCommand hi _⟩⟩
    · exact ⟨_, .inl closes⟩
    · exact ⟨id, .inl closes⟩
  · exact ⟨id, .inl rfl⟩

/-- The edge at which a CS or CD change happens drives its line, and besides may change the panels only. -/
theorem step_driveLine (hf : s.fsm = .exec) (hp : s.plan = ⟨.emit e, m⟩ :: items)
    (he : (∃ a, e = .cs a) ∨ ∃ l, e = .cd l) (hph : s.phase = .gap 0) (hr : s.inputNow.rst = false) :
    ∃ f, step s = .next (((s.started.finish m).driveLine e).mapPanels f) := by
  have happens : s.edge = lineHappens e (s.started.finish m) := by
    have hgap : s.started.phase = .gap 0 := hph
    refine (edge_of_exec hf hr).trans ((sequence_line (s := s.started) hp he _).trans ?_)
    simp only [State.lineEdge, hgap]
  obtain ⟨f, settles | ⟨i, runs, ends⟩⟩ := lineHappens_cases (s := s.started.finish m) he
  · exact ⟨f, step_of_settled (happens.trans settles)⟩
  · exact ⟨f, (step_of_run (happens.trans runs)).trans ends⟩

end

theorem csLevel_bit_eq_csActive_iff {cfg : Config} {a : CsLevel} : a.bit cfg = cfg.csActive ↔ a = .act := by
  cases a <;> simp [CsLevel.bit]

theorem cdBit_eq_true_iff {l : CdLevel} : cdBit l = true ↔ l = .data := by
  cases l <;> simp [cdBit]

/-- Settles O45: until the change the state is `State.waited` (`runEdges_gap`), and the edge after it drives the line. -/
theorem lineChangeKeepsItsDistance : Obligations.LineChangeKeepsItsDistance := by
  intro s e m items hf hph hp he hn
  obtain ⟨D, hD⟩ : ∃ D, sclkDiv s.cfg = D + 1 := ⟨_, (Nat.sub_add_cancel (sclkDiv_pos s.cfg)).symm⟩
  rw [hD] at hn ⊢
  have waits := runEdges_gap hf hp he hD hph hn
  have waited := waits D le_rfl (by omega)
  rw [Nat.sub_self] at waited
  obtain ⟨f, changes⟩ := step_driveLine (s := s.waited (D + 1) (.gap 0)) hf hp he rfl
    (noReset_at hn (Nat.lt_succ_self _))
  refine ⟨fun j hj => ?_, _, runEdges_snoc waited changes, ?_⟩
  · cases j with
    | zero => exact ⟨s, rfl, rfl, rfl, rfl, rfl, rfl, rfl⟩
    | succ j => exact ⟨_, waits j (by omega) (by omega), rfl, rfl, rfl, rfl, rfl, rfl⟩
  · rcases he with ⟨a, rfl⟩ | ⟨l, rfl⟩ <;>
      simp [State.driveLine, State.waited, State.started, State.popInputs, hp, csLevel_bit_eq_csActive_iff,
        cdBit_eq_true_iff]

/-! ## When the lines move -/

/-- The lines move from `s` to `t` as 41_transport.md R168 and R169 allow: `mosi` only into `sclk` = 0, CS and CD only
with `sclk` = 0 before and after. -/
structure LinesMove (s t : State) : Prop where
  mosi : t.sclk = true → t.mosi = s.mosi
  turn : t.cs ≠ s.cs ∨ t.cd ≠ s.cd → s.sclk = false ∧ t.sclk = false

theorem LinesMove.of_sclk_low {s t : State} (hs : s.sclk = false) (ht : t.sclk = false) : LinesMove s t :=
  ⟨fun h => absurd (ht.symm.trans h) Bool.false_ne_true, fun _ => ⟨hs, ht⟩⟩

/-- Where CS and CD stand still, only `mosi` is left to look at. -/
theorem LinesMove.of_no_turn {s t : State} (hcs : t.cs = s.cs) (hcd : t.cd = s.cd)
    (hmosi : t.sclk = true → t.mosi = s.mosi) : LinesMove s t :=
  ⟨hmosi, fun h => h.elim (absurd hcs) (absurd hcd)⟩

theorem linesMove_byteEdge (s : State) (inp : Inputs) (b : Byte) (m : Mark) : LinesMove s (s.byteEdge inp b m) := by
  rcases byteEdge_cases s inp b m with
    ⟨_, e⟩ | ⟨_, _, e⟩ | ⟨_, _, e⟩ | ⟨_, _, e⟩ | ⟨_, _, e⟩ | ⟨_, e⟩ <;> rw [e]
  case inr.inr.inl => exact .of_no_turn (by simp) (by simp) (by simp)
  case inr.inr.inr.inl | inr.inr.inr.inr.inr => exact .of_no_turn rfl rfl nofun
  all_goals exact .of_no_turn rfl rfl (fun _ => rfl)

theorem linesMove_waitEdge (s : State) (ms : Nat) (m : Mark) : LinesMove s (s.waitEdge ms m) := by
  rcases waitEdge_cases s ms m with ⟨_, _, e⟩ | ⟨_, _, e⟩ | ⟨_, e⟩ <;> rw [e]
  · exact .of_no_turn (by simp) (by simp) (by simp)
  all_goals exact .of_no_turn rfl rfl (fun _ => rfl)

theorem linesMove_sampleEdge (s : State) (inp : Inputs) (m : Mark) : LinesMove s (s.sampleEdge inp m) := by
  rcases sampleEdge_cases s inp m with ⟨r, _, e⟩ | ⟨_, _, e⟩ | ⟨_, _, e⟩ | ⟨_, _, e⟩ <;> rw [e]
  · exact .of_no_turn (by simp) (by simp) (by simp)
  all_goals exact .of_no_turn rfl rfl (fun _ => rfl)

/-- An edge of the sequencer that settles: SCLK is low where a line change stands at the head of the plan. -/
theorem linesMove_sequence_settled {s t : State} {inp : Inputs} (h : s.PhaseOk) (hs : s.sequence inp = .settled t) :
    LinesMove s t := by
  rcases sequence_settled hs with ⟨_, rfl⟩ | ⟨op, m, items, hp, hc⟩
  · exact .of_no_turn rfl rfl (fun _ => rfl)
  · have line {e : Event} (hop : op = .emit e) (he : ∀ b, e ≠ .byte b) (ht : t.sclk = s.sclk) : LinesMove s t := by
      subst hop
      have low := (pins_low_of_emit h hp he).1
      exact .of_sclk_low low (ht.trans low)
    rcases hc with ⟨_, _, _, _, rfl⟩ | ⟨hop, _, rfl⟩ | ⟨hop, _, _, _, rfl⟩ | ⟨hop, _, _, rfl⟩ | ⟨_, hop, _, rfl⟩ |
      ⟨b, _, rfl⟩ | ⟨ms, _, rfl⟩ | ⟨v, _, rfl⟩ | ⟨_, rfl⟩
    · exact .of_no_turn rfl rfl (fun _ => rfl)
    · exact line hop nofun (finish_sclk s m)
    · exact line hop nofun (finish_sclk s m)
    · exact line hop nofun (finish_sclk s m)
    · exact line hop nofun (finish_sclk s m)
    · exact linesMove_byteEdge s inp b m
    · exact linesMove_waitEdge s ms m
    · exact .of_no_turn (by simp) (by simp) (by simp)
    · exact linesMove_sampleEdge s inp m

/-- No meaning drives a line. -/
theorem exec_lines {i : Instr} {s t : State} (h : exec i s = .next t) :
    (t.cs = s.cs ∧ t.cd = s.cd) ∧ t.sclk = s.sclk ∧ t.mosi = s.mosi := by
  cases i <;> cases h <;> exact ⟨⟨rfl, rfl⟩, rfl, rfl⟩

theorem linesMove_sequence_run {s v t : State} {inp : Inputs} {i : Instr} (h : s.PhaseOk)
    (hs : s.sequence inp = .run i v) (ht : exec i v = .next t) : LinesMove s t := by
  obtain ⟨m, items, hp, _, _, _, rfl⟩ := sequence_run hs
  obtain ⟨-, hsclk, -⟩ := exec_lines ht
  have low := (pins_low_of_emit h hp nofun).1
  exact .of_sclk_low low (hsclk.trans ((finish_sclk s m).trans low))

/-- Settles O48: by what a step can do. Request assembly drives no line, and an edge of the sequencer moves the lines as
its micro-operation says. -/
theorem linesMoveOnlyWhileSclkIsLow : Obligations.LinesMoveOnlyWhileSclkIsLow := by
  intro s t h hr hstep
  have moves : LinesMove s.started t := by
    rcases step_inv hstep with ⟨hrst, _⟩ | ⟨_, _, rfl⟩ | ⟨_, _, _, _, b, _, hb⟩ | ⟨_, _, hs | ⟨i, v, hs, ht⟩⟩
    · rw [hr] at hrst
      cases hrst
    · exact .of_no_turn rfl rfl (fun _ => rfl)
    · rcases hb with ⟨c, _, rfl⟩ | ⟨i, _, ht⟩ | ⟨_, _, _, rfl⟩
      · exact .of_no_turn rfl rfl (fun _ => rfl)
      · obtain ⟨⟨hcs, hcd⟩, -, hmosi⟩ := exec_lines ht
        exact .of_no_turn hcs hcd (fun _ => hmosi)
      · exact .of_no_turn rfl rfl (fun _ => rfl)
    · exact linesMove_sequence_settled h.phase hs
    · exact linesMove_sequence_run h.phase hs ht
  exact ⟨moves.mosi, moves.turn⟩

end Sys2Proof.Machine
end

section
/-! The bus's losses stay on the panel's side (41_transport.md R165): what a step makes of the block's side of a state does
not depend on the rest. -/

namespace Sys2Proof.Machine

/-! ## The block's side -/

theorem blockSide_blockSide (s : State) : s.blockSide.blockSide = s.blockSide := by
  simp [State.blockSide]

/-- These inputs on a bus that loses nothing. -/
def Inputs.intact (inp : Inputs) : Inputs := { inp with busFault := false }

theorem blockSide_inputNow (s : State) : s.blockSide.inputNow = s.inputNow.intact := by
  cases h : s.inputs <;> simp [State.inputNow, State.blockSide, Inputs.intact, quietInputs, h]

theorem blockSide_popInputs (s : State) : s.blockSide.popInputs = s.popInputs.blockSide := by
  simp [State.popInputs, State.blockSide]

/-- What the block's side sees of a step's outcome. -/
def blockOutcome : Host.Outcome State Fault Refusal → Host.Outcome State Fault Refusal
  | .next t => .next t.blockSide
  | .fault f => .fault f
  | .refused r => .refused r

theorem blockOutcome_eq_next {o : Host.Outcome State Fault Refusal} {u : State} (h : blockOutcome o = .next u) :
    ∃ t, o = .next t ∧ t.blockSide = u := by
  cases o <;> cases h
  exact ⟨_, rfl, rfl⟩

/-- What the block's side sees of the outcome an edge leads to. -/
def Edge.blockOutcome : Edge → Host.Outcome State Fault Refusal
  | .settled t => .next t.blockSide
  | .run i u => Machine.blockOutcome (exec i u)
  | .stop f => .fault f
  | .refuse r => .refused r

theorem blockOutcome_step (s : State) : blockOutcome (step s) = s.edge.blockOutcome := by
  unfold step
  cases s.edge <;> rfl

theorem blockOutcome_settled {t u : State} (h : u = t.blockSide) :
    (Edge.settled u).blockOutcome = (Edge.settled t).blockOutcome := by
  rw [h]
  exact congrArg Host.Outcome.next (blockSide_blockSide t)

/-! ## The edges of each micro-operation

With a panel of which nothing is known and a bus that loses nothing, an edge leaves both so. -/

section
variable (s : State) (m : Mark)

theorem blockSide_finish : s.blockSide.finish m = (s.finish m).blockSide := by cases m <;> rfl

theorem blockSide_byteEdge (inp : Inputs) (b : Byte) :
    s.blockSide.byteEdge inp.intact b m = (s.byteEdge inp b m).blockSide := by
  have hphase : s.blockSide.phase = s.phase := rfl
  have hbit : s.blockSide.bitIdx = s.bitIdx := rfl
  unfold State.byteEdge
  rw [hphase, hbit]
  split
  case h_3 =>
    split
    · exact blockSide_finish (({ s with sclk := false } : State).byteDone b inp.busFault) m
    · rfl
  all_goals rfl

theorem powerOn_wait (ms : Nat) : Panel.powerOn.wait ms = Panel.powerOn := by
  simp [Panel.wait, Panel.powerOn]

theorem blockSide_waitDone (ms : Nat) : s.blockSide.waitDone ms = (s.waitDone ms).blockSide := by
  simp [State.waitDone, State.mapPanels, State.blockSide, State.record, powerOn_wait]

theorem blockSide_waitEdge (ms : Nat) : s.blockSide.waitEdge ms m = (s.waitEdge ms m).blockSide := by
  have hphase : s.blockSide.phase = s.phase := rfl
  have hcount : s.blockSide.delayCnt = s.delayCnt := rfl
  have hcfg : s.blockSide.cfg = s.cfg := rfl
  unfold State.waitEdge
  rw [hphase, hcount, hcfg]
  split
  · split
    · rw [blockSide_waitDone, blockSide_finish]
    · rfl
  · rfl

theorem blockSide_sampleEdge (inp : Inputs) : s.blockSide.sampleEdge inp.intact m = (s.sampleEdge inp m).blockSide := by
  have hphase : s.blockSide.phase = s.phase := rfl
  have hack : inp.intact.adcAck = inp.adcAck := rfl
  unfold State.sampleEdge
  rw [hphase, hack]
  split
  · exact blockSide_finish (s.mapResult _) m
  · split <;> rfl
  · rfl

/-- The end of a frame: whether a byte of it was lost, and what the panel makes of it, the block's side does not see. -/
theorem blockOutcome_closeFrame : s.closeFrame.blockOutcome = .next (s.driveCs .inact).blockSide := by
  rcases closeFrame_cases s with ⟨_, i, hc, e⟩ | ⟨_, _, e⟩ | ⟨_, e⟩ <;> rw [e]
  · obtain ⟨op, d, hi⟩ := decodeFrame_ok (frameCommand_eq_some.1 hc).2
    rw [Edge.blockOutcome, exec_panelCommand hi]
    rfl
  all_goals rfl

theorem blockOutcome_lineEdge {happens : State → Edge}
    (h : ∀ u : State, (happens u.blockSide).blockOutcome = (happens u).blockOutcome) :
    (s.blockSide.lineEdge happens m).blockOutcome = (s.lineEdge happens m).blockOutcome := by
  have hphase : s.blockSide.phase = s.phase := rfl
  unfold State.lineEdge
  rw [hphase]
  split
  · rw [blockSide_finish, h]
  all_goals exact blockOutcome_settled rfl

end

/-! ## The step -/

theorem blockOutcome_lineHappens (e : Event) (s : State) :
    (lineHappens e s.blockSide).blockOutcome = (lineHappens e s).blockOutcome := by
  match e with
  | .cs .inact =>
    rw [lineHappens, lineHappens, blockOutcome_closeFrame, blockOutcome_closeFrame]
    exact congrArg Host.Outcome.next (blockSide_blockSide (s.driveCs .inact))
  | .cs .act | .cd _ | .byte _ | .wait _ => exact blockOutcome_settled rfl

/-- An edge in EXEC, by the micro-operation at the head of the plan. -/
theorem blockOutcome_sequence (s : State) (inp : Inputs) :
    (s.blockSide.sequence inp.intact).blockOutcome = (s.sequence inp).blockOutcome := by
  have line {e : Event} {m : Mark} {items : List PlanItem} (hp : s.plan = ⟨.emit e, m⟩ :: items)
      (he : (∃ a, e = .cs a) ∨ ∃ l, e = .cd l) :
      (s.blockSide.sequence inp.intact).blockOutcome = (s.sequence inp).blockOutcome := by
    rw [sequence_line hp he, sequence_line (s := s.blockSide) hp he]
    exact blockOutcome_lineEdge s m (blockOutcome_lineHappens e)
  match hp : s.plan with
  | [] =>
    have hp' : s.blockSide.plan = [] := hp
    simp only [State.sequence, hp, hp']
    exact blockOutcome_settled rfl
  | ⟨.emit (.cs a), m⟩ :: items => exact line hp (.inl ⟨a, rfl⟩)
  | ⟨.emit (.cd l), m⟩ :: items => exact line hp (.inr ⟨l, rfl⟩)
  | ⟨.emit (.byte b), m⟩ :: items =>
    rw [sequence_byte hp, sequence_byte (s := s.blockSide) hp]
    exact blockOutcome_settled (blockSide_byteEdge s m inp b)
  | ⟨.emit (.wait ms), m⟩ :: items =>
    rw [sequence_wait hp, sequence_wait (s := s.blockSide) hp]
    exact blockOutcome_settled (blockSide_waitEdge s m ms)
  | ⟨.setInitDone v, m⟩ :: items =>
    rw [sequence_setInitDone hp, sequence_setInitDone (s := s.blockSide) hp]
    exact blockOutcome_settled (blockSide_finish { s with initDone := v } m)
  | ⟨.sample, m⟩ :: items =>
    rw [sequence_sample hp, sequence_sample (s := s.blockSide) hp]
    exact blockOutcome_settled (blockSide_sampleEdge s m inp)

/-- A request that starts gives the block's side the same whatever the panel's. -/
theorem blockOutcome_exec_request {i : Instr} {bs : List Byte} (h : encode i = .request bs) (s : State) :
    blockOutcome (exec i s.blockSide) = blockOutcome (exec i s) := by
  rw [exec_request h, exec_request h]
  exact blockOutcome_settled (t := { s.start (requestPlan s.cfg i) with initIdx := if i = .init then 0 else s.initIdx })
    rfl

/-- The transfer of a byte reads and writes the block's side only. -/
theorem blockOutcome_transfer (s : State) (b : Byte) :
    (s.blockSide.transfer b).blockOutcome = (s.transfer b).blockOutcome := by
  have hcount : s.blockSide.rqCnt = s.rqCnt := rfl
  have taken : s.blockSide.takeByte b = (s.takeByte b).blockSide := rfl
  have held : (s.takeByte b).blockSide.held = (s.takeByte b).held := rfl
  simp only [State.transfer, hcount, taken, held]
  split
  · rfl
  · split
    · exact blockOutcome_settled rfl
    · split
      · split
        · rename_i i hd
          obtain ⟨bs, hbs⟩ := encode_of_decodeRequest hd
          exact blockOutcome_exec_request hbs (s.takeByte b)
        · rfl
      · split
        · exact blockOutcome_settled rfl
        · rfl

theorem blockOutcome_workEdge (s : State) (inp : Inputs) :
    (s.blockSide.workEdge inp.intact).blockOutcome = (s.workEdge inp).blockOutcome := by
  have hfsm : s.blockSide.fsm = s.fsm := rfl
  have hvalid : inp.intact.rqValid = inp.rqValid := rfl
  have hdata : inp.intact.rqData = inp.rqData := rfl
  have rests : (Edge.settled s.blockSide).blockOutcome = (Edge.settled s).blockOutcome := blockOutcome_settled rfl
  unfold State.workEdge
  rw [hfsm, hvalid, hdata]
  split
  case h_3 => exact blockOutcome_sequence s inp
  case h_4 => exact rests
  all_goals
    split
    · exact blockOutcome_transfer s inp.rqData
    · exact rests

theorem blockSide_resetEdge (s : State) : s.blockSide.resetEdge = s.resetEdge.blockSide := by
  have keeps (cut : Bool) : Panel.powerOn.blockReset .keeps cut = Panel.powerOn := by cases cut <;> rfl
  simp only [State.resetEdge, State.blockSide, keeps]
  rfl

/-- A step gives the block's side the same whatever the panel's side and the bus. -/
theorem blockOutcome_step_blockSide (s : State) : blockOutcome (step s.blockSide) = blockOutcome (step s) := by
  have hnow := blockSide_inputNow s
  have hpop := blockSide_popInputs s
  rw [blockOutcome_step, blockOutcome_step]
  cases hr : s.inputNow.rst with
  | true =>
    rw [edge_of_reset hr, edge_of_reset (s := s.blockSide) (by rw [hnow]; exact hr), hpop]
    exact blockOutcome_settled (blockSide_resetEdge s.popInputs)
  | false =>
    rw [edge_of_work hr, edge_of_work (s := s.blockSide) (by rw [hnow]; exact hr), hpop, hnow]
    exact blockOutcome_workEdge { s.popInputs with rstPrev := false } s.inputNow

theorem trace_eq_of_blockSide {s t : State} (h : s.blockSide = t.blockSide) : s.trace = t.trace :=
  show s.blockSide.trace = t.blockSide.trace by rw [h]

theorem outputs_eq_of_blockSide {s t : State} (h : s.blockSide = t.blockSide) (rst : Bool) :
    s.outputs rst = t.outputs rst :=
  show s.blockSide.outputs rst = t.blockSide.outputs rst by rw [h]

/-- Settles O60: both steps come to the same for the block's side, of which the trace and the outputs are part. -/
theorem busFaultsAreUnobservable : Obligations.BusFaultsAreUnobservable := by
  intro s s' t hsame hstep
  have agree : blockOutcome (step s') = .next t.blockSide :=
    calc blockOutcome (step s')
        = blockOutcome (step s'.blockSide) := (blockOutcome_step_blockSide s').symm
      _ = blockOutcome (step s.blockSide) := by rw [hsame]
      _ = blockOutcome (step s) := blockOutcome_step_blockSide s
      _ = .next t.blockSide := by rw [hstep, blockOutcome]
  obtain ⟨t', hstep', hside⟩ := blockOutcome_eq_next agree
  exact ⟨t', hstep', hside, trace_eq_of_blockSide hside, outputs_eq_of_blockSide hside⟩

end Sys2Proof.Machine
end

section
/-! The requests of the display driver (42_display_driver.md): SET_WINDOW's plan, DRAW_RECT out of bounds, and the frames,
bytes and WAITs of INIT's trace. -/

namespace Sys2Proof.Machine

/-! ## SET_WINDOW and DRAW_RECT -/

/-- Settles O20: the plan is `requestPlan`, the emission of the window's two transactions. -/
theorem setWindowPlansTwoTransactions : Obligations.SetWindowPlansTwoTransactions :=
  fun x0 y0 x1 y1 s => ⟨requestPlan s.cfg (.setWindow x0 y0 x1 y1),
    exec_request (bs := requestBytes (.setWindow x0 y0 x1 y1)) rfl s, ops_emits (windowEvents x0 y0 x1 y1)⟩

theorem rectInBounds_iff {cfg : Config} {x y w h : Word} :
    rectInBounds cfg x y w h = true ↔ x.toNat + w.toNat ≤ cfg.width ∧ y.toNat + h.toNat ≤ cfg.height :=
  decide_eq_true_iff

/-- Out of bounds DRAW_RECT plans nothing (42_display_driver.md R213). -/
theorem drawPlan_of_outOfBounds {cfg : Config} {x y w h : Word}
    (hout : cfg.width < x.toNat + w.toNat ∨ cfg.height < y.toNat + h.toNat) (c : Word) :
    drawPlan cfg x y w h c = [] := by
  rcases drawPlan_cases cfg x y w h c with empty | ⟨hin, _⟩
  · exact empty
  · obtain ⟨hx, hy⟩ := rectInBounds_iff.1 hin
    omega

/-- Settles O22: the plan is empty, and an empty plan leads to IDLE at the next edge. -/
theorem outOfBoundsDrawRectDoesNothing : Obligations.OutOfBoundsDrawRectDoesNothing := by
  intro x y w h c s hout
  refine ⟨?_, fun hr => emptyPlanLeadsToIdle.1 (s.start []) rfl rfl hr⟩
  show Host.Outcome.next (s.start (drawPlan s.cfg x y w h c)) = .next (s.start [])
  rw [drawPlan_of_outOfBounds hout]

/-! ## What a list of events shows: frames, bytes, WAITs -/

/-- The times a list of events waits, in order. -/
def waitTimes (es : List Event) : List Nat :=
  es.filterMap (fun e => match e with
    | .wait ms => some ms
    | _ => none)

theorem waitTimes_append (a b : List Event) : waitTimes (a ++ b) = waitTimes a ++ waitTimes b :=
  List.filterMap_append

theorem shiftedBytes_append (a b : List Event) : shiftedBytes (a ++ b) = shiftedBytes a ++ shiftedBytes b :=
  List.filterMap_append

theorem waitTimes_tx (o : Byte) (p : List Byte) : waitTimes (tx o p) = [] := by
  simp [waitTimes, tx, txOpening]

theorem shiftedBytes_tx (o : Byte) (p : List Byte) : shiftedBytes (tx o p) = o :: p := by
  simp [shiftedBytes, tx, txOpening, List.filterMap_map]

/-- Emitted between two transactions, the events `es` show one closed frame for each of `txs`, an opcode with its payload,
shift no bytes but theirs, and wait the times `waits`. -/
structure Shows (es : List Event) (txs : List (Byte × List Byte)) (waits : List Nat) : Prop where
  frames : ∀ rest, frameViewFrom .data none (es.map TraceItem.event ++ rest) =
    txs.map (fun t => ⟨frameOf t.1 t.2, .closed⟩) ++ frameViewFrom .data none rest
  bytes : shiftedBytes es = txs.flatMap (fun t => t.1 :: t.2)
  waits : waitTimes es = waits

theorem Shows.nil : Shows [] [] [] := ⟨fun _ => rfl, rfl, rfl⟩

theorem Shows.tx (o : Byte) (p : List Byte) : Shows (tx o p) [(o, p)] [] :=
  ⟨transactionIsOneFrame o p, by simp [shiftedBytes_tx], waitTimes_tx o p⟩

theorem Shows.wait (ms : Nat) : Shows [.wait ms] [] [ms] := ⟨fun _ => rfl, rfl, rfl⟩

theorem Shows.append {a b : List Event} {ta tb : List (Byte × List Byte)} {wa wb : List Nat} (ha : Shows a ta wa)
    (hb : Shows b tb wb) : Shows (a ++ b) (ta ++ tb) (wa ++ wb) where
  frames rest := by rw [List.map_append, List.append_assoc, ha.frames, hb.frames, List.map_append, List.append_assoc]
  bytes := by rw [shiftedBytes_append, ha.bytes, hb.bytes, List.flatMap_append]
  waits := by rw [waitTimes_append, ha.waits, hb.waits]

/-- The frame view of a whole trace of transactions and WAITs. -/
theorem Shows.frameView_eq {es : List Event} {txs : List (Byte × List Byte)} {waits : List Nat} (h : Shows es txs waits) :
    frameView (es.map TraceItem.event) = txs.map (fun t => ⟨frameOf t.1 t.2, .closed⟩) := by
  have view := h.frames []
  rwa [List.append_nil, frameViewFrom, List.append_nil] at view

/-! ## What INIT shows -/

/-- The WAIT that step `k` of INIT keeps, where its delay is not 0 (42_display_driver.md R192). -/
def initWaits (cfg : Config) (k : Nat) : List Nat := if 0 < initDelay cfg k then [initDelay cfg k] else []

theorem shows_initStepPlan (cfg : Config) (k : Nat) :
    Shows (planEvents (initStepPlan cfg k)) [romRead cfg k] (initWaits cfg k) := by
  rw [planEvents_of_ops (ops_initStepPlan cfg k), initWaits]
  have step := Shows.tx (romRead cfg k).1 (romRead cfg k).2
  split
  · exact step.append (Shows.wait _)
  · exact step.append Shows.nil

theorem shows_initSteps (cfg : Config) (steps : List Nat) :
    Shows (planEvents (steps.flatMap (initStepPlan cfg))) (steps.map (romRead cfg)) (steps.flatMap (initWaits cfg)) := by
  induction steps with
  | nil => exact Shows.nil
  | cons k steps ih =>
    rw [List.flatMap_cons, planEvents_append]
    exact (shows_initStepPlan cfg k).append ih

/-- The transactions of a full-screen fill (42_display_driver.md R221). -/
def fillTransactions (cfg : Config) (c : Word) : List (Byte × List Byte) :=
  [(0x2A, operandBytes 0 ++ operandBytes (BitVec.ofNat 16 (cfg.width - 1))),
    (0x2B, operandBytes 0 ++ operandBytes (BitVec.ofNat 16 (cfg.height - 1))),
    (0x2C, pixelBytes (cfg.width * cfg.height) c)]

theorem shows_fillPlan (cfg : Config) (c : Word) : Shows (planEvents (fillPlan cfg c)) (fillTransactions cfg c) [] := by
  rw [fillPlan, planEvents_append, planEvents_emits, planEvents_streamPlan]
  exact ((Shows.tx 0x2A _).append (Shows.tx 0x2B _)).append (Shows.tx 0x2C _)

/-- INIT shows the table's transactions with their WAITs, then the fill's (42_display_driver.md R191). -/
theorem shows_initPlan (cfg : Config) :
    Shows (planEvents (initPlan cfg))
      ((List.range nInit).map (romRead cfg) ++ fillTransactions cfg cfg.background)
      ((List.range nInit).flatMap (initWaits cfg)) := by
  rw [planEvents_initPlan, ← List.append_nil ((List.range nInit).flatMap (initWaits cfg))]
  exact (shows_initSteps cfg _).append (shows_fillPlan cfg _)

/-- Only steps 0 and 1 may wait. -/
theorem flatMap_initWaits (cfg : Config) : (List.range nInit).flatMap (initWaits cfg) =
    (if 0 < cfg.delaySwresetMs then [cfg.delaySwresetMs] else []) ++
      (if 0 < cfg.delaySlpoutMs then [cfg.delaySlpoutMs] else []) := by
  have steps : List.range nInit = 0 :: 1 :: laterSteps := rfl
  have later : laterSteps.flatMap (initWaits cfg) = [] := rfl
  rw [steps, List.flatMap_cons, List.flatMap_cons, later, List.append_nil]
  rfl

/-- The payloads of the table are the configured ones. -/
theorem map_romPayload (cfg : Config) : (List.range nInit).map (romPayload cfg) = cfg.initPayload := by
  obtain ⟨-, -, -, -, ⟨hlen, -⟩, -⟩ := cfg.wf
  refine List.ext_getElem (by simp [hlen]) fun k _ hk => ?_
  simp [romPayload, hk]

/-- The number of bytes the transactions `txs` shift. -/
def byteCount (txs : List (Byte × List Byte)) : Nat := (txs.map (fun t => 1 + t.2.length)).sum

theorem Shows.shiftedBytes_length {es : List Event} {txs : List (Byte × List Byte)} {waits : List Nat}
    (h : Shows es txs waits) : (shiftedBytes es).length = byteCount txs := by
  simp [h.bytes, byteCount, Nat.add_comm]

theorem byteCount_append (a b : List (Byte × List Byte)) : byteCount (a ++ b) = byteCount a + byteCount b := by
  rw [byteCount, List.map_append, List.sum_append, byteCount, byteCount]

theorem byteCount_romRead (cfg : Config) :
    byteCount ((List.range nInit).map (romRead cfg)) = (cfg.initPayload.map (fun p => 1 + p.length)).sum := by
  rw [← map_romPayload cfg, byteCount, List.map_map, List.map_map]
  rfl

theorem byteCount_fillTransactions (cfg : Config) (c : Word) :
    byteCount (fillTransactions cfg c) = 11 + 2 * cfg.width * cfg.height := by
  simp [byteCount, fillTransactions, pixelBytes_length, Nat.mul_assoc]
  omega

/-- Settles O57: INIT shows its 20 steps and the fill's three transactions (`shows_initPlan`), each as one closed frame. -/
theorem initTraceHasItsShape : Obligations.InitTraceHasItsShape := by
  rintro cfg es frames rfl rfl
  have init := shows_initPlan cfg
  rw [init.frameView_eq]
  refine ⟨?_, ?_, ?_, ?_, ?_, ?_, ?_⟩
  · simp [nInit, fillTransactions]
  · intro f hf
    obtain ⟨t, -, rfl⟩ := List.mem_map.1 hf
    rfl
  · rfl
  · rw [init.bytes, List.flatMap_map, List.map_flatMap]
    simp [frameOf, Function.comp_def]
  · rw [init.shiftedBytes_length, byteCount_append, byteCount_romRead, byteCount_fillTransactions, Nat.add_assoc]
  · rw [(shows_fillPlan cfg cfg.background).shiftedBytes_length, byteCount_fillTransactions]
  · exact init.waits.trans (flatMap_initWaits cfg)

end Sys2Proof.Machine
end

section
/-! The input mapper (43_input_mapper.md): the mapped value is an integer nearest to `d * R / SPAN`, and its endpoints, its
monotony and its values at the reference constants follow from that. Then MAP's plan, and its wait for the ADC. -/

namespace Sys2Proof.Machine

/-! ## Nearest integers -/

/-- `m` is an integer nearest to `n / s`. -/
structure IsNearest (n s m : Nat) : Prop where
  le_upper : 2 * n ≤ 2 * (s * m) + s
  lower_le : 2 * (s * m) ≤ 2 * n + s

/-- A nearest integer can fall while the quotient does not, but only between two ties and to the neighbour below. -/
theorem IsNearest.ties_of_lt {n n' s m m' : Nat} (h : IsNearest n s m) (h' : IsNearest n' s m') (hs : 0 < s)
    (hn : n ≤ n') (hlt : m' < m) : m = m' + 1 ∧ 2 * (s * m) = 2 * n + s ∧ 2 * n' = 2 * (s * m') + s := by
  obtain ⟨-, hlower⟩ := h
  obtain ⟨hupper, -⟩ := h'
  have hstep : s * (m' + 1) ≤ s * m := Nat.mul_le_mul_left s hlt
  have hexpand : s * (m' + 1) = s * m' + s := Nat.mul_succ s m'
  have hsame : s * m = s * (m' + 1) := by omega
  exact ⟨Nat.eq_of_mul_eq_mul_left hs hsame, by omega, by omega⟩

/-- A tie, seen from its lower neighbour. -/
theorem two_mul_mod_of_lower {n s m : Nat} (hs : 0 < s) (h : 2 * n = 2 * (s * m) + s) : 2 * n % (2 * s) = s := by
  rw [h, ← Nat.mul_assoc, Nat.mul_add_mod, Nat.mod_eq_of_lt (by omega)]

/-- A tie, seen from its upper neighbour. -/
theorem two_mul_mod_of_upper {n s m : Nat} (hs : 0 < s) (h : 2 * (s * m) = 2 * n + s) : 2 * n % (2 * s) = s := by
  cases m with
  | zero => omega
  | succ m => exact two_mul_mod_of_lower (m := m) hs (by rw [Nat.mul_succ] at h; omega)

/-- Off the ties there is one nearest integer. -/
theorem IsNearest.unique {n s m m' : Nat} (h : IsNearest n s m) (h' : IsNearest n s m') (hs : 0 < s)
    (htie : 2 * n % (2 * s) ≠ s) : m = m' := by
  rcases Nat.lt_trichotomy m m' with hlt | heq | hlt
  · obtain ⟨-, -, tie⟩ := h'.ties_of_lt h hs le_rfl hlt
    exact absurd (two_mul_mod_of_lower hs tie) htie
  · exact heq
  · obtain ⟨-, -, tie⟩ := h.ties_of_lt h' hs le_rfl hlt
    exact absurd (two_mul_mod_of_lower hs tie) htie

/-- Up to the middle the floor is nearest. -/
theorem isNearest_div {n s : Nat} (h : 2 * (n % s) ≤ s) : IsNearest n s (n / s) := by
  have hdiv := Nat.div_add_mod n s
  exact ⟨by omega, by omega⟩

/-- From the middle on the next integer is nearest. -/
theorem isNearest_div_succ {n s : Nat} (hs : 0 < s) (h : s ≤ 2 * (n % s)) : IsNearest n s (n / s + 1) := by
  have hdiv := Nat.div_add_mod n s
  have hmod := Nat.mod_lt n hs
  have hnext : s * (n / s + 1) = s * (n / s) + s := Nat.mul_succ s _
  exact ⟨by omega, by omega⟩

/-! ## The two rounding modes (43_input_mapper.md R235, R236) -/

/-- HALF_AWAY is a floor, that of `(2 * d * R + SPAN) / (2 * SPAN)`; so it never stays below a tie. -/
theorem mapHalfAway_bounds (cfg : Config) (d : Nat) :
    2 * (cfg.span * mapHalfAway cfg d) ≤ 2 * (d * cfg.range) + cfg.span ∧
      2 * (d * cfg.range) < 2 * (cfg.span * mapHalfAway cfg d) + cfg.span := by
  have hspan := span_pos cfg
  have hle := Nat.mul_div_le (2 * d * cfg.range + cfg.span) (2 * cfg.span)
  have hlt := Nat.lt_mul_div_succ (2 * d * cfg.range + cfg.span) (b := 2 * cfg.span) (by omega)
  rw [← mapHalfAway, Nat.mul_assoc, Nat.mul_assoc] at hle hlt
  rw [Nat.mul_succ] at hlt
  omega

theorem mapHalfAway_isNearest (cfg : Config) (d : Nat) : IsNearest (d * cfg.range) cfg.span (mapHalfAway cfg d) := by
  obtain ⟨hle, hlt⟩ := mapHalfAway_bounds cfg d
  exact ⟨hlt.le, hle⟩

/-- HALF_EVEN by its three cases: the next integer, the floor, and at a tie the even one of the two. -/
theorem mapHalfEven_isNearest (cfg : Config) (d : Nat) : IsNearest (d * cfg.range) cfg.span (mapHalfEven cfg d) := by
  have hspan := span_pos cfg
  simp only [mapHalfEven]
  split
  case isTrue above => exact isNearest_div_succ hspan above.le
  case isFalse notAbove =>
    split
    case isTrue below => exact isNearest_div below.le
    case isFalse notBelow =>
      rcases Nat.mod_two_eq_zero_or_one (d * cfg.range / cfg.span) with heven | hodd
      · rw [heven]
        exact isNearest_div (Nat.le_of_not_lt notAbove)
      · rw [hodd]
        exact isNearest_div_succ hspan (Nat.le_of_not_lt notBelow)

/-- HALF_EVEN takes the even neighbour at a tie. -/
theorem mapHalfEven_even_of_tie {cfg : Config} {d : Nat} (h : 2 * (d * cfg.range) % (2 * cfg.span) = cfg.span) :
    mapHalfEven cfg d % 2 = 0 := by
  rw [Nat.mul_mod_mul_left] at h
  simp only [mapHalfEven, h, Nat.lt_irrefl, if_false]
  omega

/-- Off the ties the two modes agree. -/
theorem mapHalfAway_eq_mapHalfEven {cfg : Config} {d : Nat} (h : 2 * (d * cfg.range) % (2 * cfg.span) ≠ cfg.span) :
    mapHalfAway cfg d = mapHalfEven cfg d :=
  (mapHalfAway_isNearest cfg d).unique (mapHalfEven_isNearest cfg d) (span_pos cfg) h

/-! ## The mapped value -/

theorem clamp_eq_max_min (cfg : Config) (r : Nat) : clamp cfg r = max cfg.clampLo (min cfg.clampHi r) := by
  obtain ⟨-, -, -, ⟨hlt, -⟩, -⟩ := cfg.wf
  unfold clamp
  split <;> [omega; (split <;> omega)]

theorem clamp_of_le {cfg : Config} {r : Nat} (h : r ≤ cfg.clampLo) : clamp cfg r = cfg.clampLo := by
  rw [clamp_eq_max_min, max_eq_left (min_le_of_right_le h)]

theorem clamp_of_ge {cfg : Config} {r : Nat} (h : cfg.clampHi ≤ r) : clamp cfg r = cfg.clampHi := by
  obtain ⟨-, -, -, ⟨hlt, -⟩, -⟩ := cfg.wf
  rw [clamp_eq_max_min, min_eq_left h, max_eq_right hlt.le]

theorem clamp_mono (cfg : Config) {r r' : Nat} (h : r ≤ r') : clamp cfg r ≤ clamp cfg r' := by
  rw [clamp_eq_max_min, clamp_eq_max_min]
  exact max_le_max_left _ (min_le_min_left _ h)

theorem mapFn_congr {cfg : Config} {r r' : Nat} (h : clamp cfg r = clamp cfg r') : mapFn cfg r = mapFn cfg r' := by
  simp only [mapFn, h]

theorem mapFn_of_halfAway {cfg : Config} (h : cfg.rounding = .halfAway) (r : Nat) :
    mapFn cfg r = mapHalfAway cfg (clamp cfg r - cfg.clampLo) := by
  simp only [mapFn, h]

theorem mapFn_of_halfEven {cfg : Config} (h : cfg.rounding = .halfEven) (r : Nat) :
    mapFn cfg r = mapHalfEven cfg (clamp cfg r - cfg.clampLo) := by
  simp only [mapFn, h]

/-- The mapped value is an integer nearest to `d * R / SPAN`, in both modes (43_input_mapper.md R234). -/
theorem mapFn_isNearest (cfg : Config) (r : Nat) :
    IsNearest ((clamp cfg r - cfg.clampLo) * cfg.range) cfg.span (mapFn cfg r) := by
  cases h : cfg.rounding with
  | halfAway => rw [mapFn_of_halfAway h]; exact mapHalfAway_isNearest cfg _
  | halfEven => rw [mapFn_of_halfEven h]; exact mapHalfEven_isNearest cfg _

/-- HALF_AWAY never takes the lower neighbour of a tie (43_input_mapper.md R235). -/
theorem mapFn_not_lower {cfg : Config} (h : cfg.rounding = .halfAway) (r : Nat) :
    2 * ((clamp cfg r - cfg.clampLo) * cfg.range) ≠ 2 * (cfg.span * mapFn cfg r) + cfg.span := by
  rw [mapFn_of_halfAway h]
  exact (mapHalfAway_bounds cfg _).2.ne

/-- HALF_EVEN takes the even neighbour of a tie (43_input_mapper.md R236). -/
theorem mapFn_even_of_tie {cfg : Config} (h : cfg.rounding = .halfEven) {r : Nat}
    (htie : 2 * ((clamp cfg r - cfg.clampLo) * cfg.range) % (2 * cfg.span) = cfg.span) : mapFn cfg r % 2 = 0 := by
  rw [mapFn_of_halfEven h]
  exact mapHalfEven_even_of_tie htie

/-- Where the quotient is an integer, that is the mapped value. -/
theorem mapFn_of_exact {cfg : Config} {r m : Nat} (h : (clamp cfg r - cfg.clampLo) * cfg.range = cfg.span * m) :
    mapFn cfg r = m := by
  have hspan := span_pos cfg
  refine (mapFn_isNearest cfg r).unique ⟨?_, ?_⟩ hspan ?_
  · omega
  · omega
  · rw [h, ← Nat.mul_assoc, Nat.mul_mod_right]
    exact hspan.ne

/-- The mapped value never falls: it could do so only between two ties, where HALF_AWAY takes the upper neighbour and
HALF_EVEN, of two neighbours, the even one at both. -/
theorem mapFn_mono (cfg : Config) {r r' : Nat} (h : r ≤ r') : mapFn cfg r ≤ mapFn cfg r' := by
  have hspan := span_pos cfg
  have hquot := Nat.mul_le_mul_right cfg.range (Nat.sub_le_sub_right (clamp_mono cfg h) cfg.clampLo)
  by_contra hlt
  obtain ⟨hnext, upper, lower⟩ :=
    (mapFn_isNearest cfg r).ties_of_lt (mapFn_isNearest cfg r') hspan hquot (Nat.lt_of_not_le hlt)
  cases hmode : cfg.rounding with
  | halfAway => exact mapFn_not_lower hmode r' lower
  | halfEven =>
    have heven := mapFn_even_of_tie hmode (two_mul_mod_of_upper hspan upper)
    have heven' := mapFn_even_of_tie hmode (two_mul_mod_of_lower hspan lower)
    omega

/-- Settles O37: the mapped value is nearest (`mapFn_isNearest`), and each mode has its rule for ties. -/
theorem mapFnRoundsToNearest : Obligations.MapFnRoundsToNearest := by
  rintro cfg r _ _ _ _ rfl rfl rfl rfl
  obtain ⟨hupper, hlower⟩ := mapFn_isNearest cfg r
  simp only [Nat.mul_assoc]
  refine ⟨hupper, hlower, fun hmode => mapFn_not_lower hmode r, fun hmode htie => mapFn_even_of_tie hmode ?_⟩
  rcases htie with lower | upper
  · exact two_mul_mod_of_lower (span_pos cfg) lower
  · exact two_mul_mod_of_upper (span_pos cfg) upper

/-- Settles O34: at the two limits the quotient is an integer, and in between the value is in range (`mapFn_le_range`). -/
theorem mapFnEndpointsAndRange : Obligations.MapFnEndpointsAndRange := by
  intro cfg r
  obtain ⟨⟨-, hwidth⟩, -⟩ := cfg.wf
  refine ⟨mapFn_of_exact ?_, mapFn_of_exact ?_, mapFn_le_range cfg r, by omega, toNat_mapPixel cfg r⟩
  · rw [clamp_of_le le_rfl, Nat.sub_self, Nat.zero_mul, Nat.mul_zero]
  · rw [clamp_of_ge le_rfl]
    rfl

/-- Settles O35: a sample outside the clamp range is clamped as its nearer limit is. -/
theorem mapFnSaturates : Obligations.MapFnSaturates := fun _ _ =>
  ⟨fun h => mapFn_congr ((clamp_of_le h).trans (clamp_of_le le_rfl).symm),
    fun h => mapFn_congr ((clamp_of_ge h).trans (clamp_of_ge le_rfl).symm)⟩

/-! ## The reference constants (43_input_mapper.md R239, R240) -/

/-- The mapper's parameters have the reference values of 00_scope.md R8. -/
structure ReferenceMapper (cfg : Config) : Prop where
  lo : cfg.clampLo = 250
  hi : cfg.clampHi = 774
  range : cfg.range = 106
  span : cfg.span = 524

theorem referenceMapper_of_parameters {cfg : Config} (hw : cfg.width = 130) (hsw : cfg.spriteWidth = 24)
    (hlo : cfg.clampLo = 250) (hhi : cfg.clampHi = 774) : ReferenceMapper cfg :=
  ⟨hlo, hhi, by rw [Config.range, hw, hsw], by rw [Config.span, hlo, hhi]⟩

/-- A value above the mapped value of `r` is reached only after `r`. -/
theorem lt_of_mapFn_lt {cfg : Config} {r r' : Nat} (h : mapFn cfg r < mapFn cfg r') : r < r' :=
  Nat.lt_of_not_le fun hle => Nat.not_le.2 h (mapFn_mono cfg hle)

/-- `q(r)` is nearer to `p` than half a step, for a sample `r` in the clamp range of the reference constants. -/
abbrev WithinHalfStep (r p : Nat) : Prop :=
  2 * ((r - 250) * 106) < 2 * (524 * p) + 524 ∧ 2 * (524 * p) < 2 * ((r - 250) * 106) + 524

section
variable {cfg : Config} (h : ReferenceMapper cfg)
include h

theorem ReferenceMapper.distance_eq (r : Nat) : clamp cfg r - 250 = min 774 r - 250 := by
  rw [clamp_eq_max_min, h.lo, h.hi]
  omega

theorem ReferenceMapper.mapFn_eq {r p : Nat} (hhi : r ≤ 774) (hclose : WithinHalfStep r p) : mapFn cfg r = p := by
  obtain ⟨hupper, hlower⟩ := hclose
  have hnear := mapFn_isNearest cfg r
  rw [h.lo, h.distance_eq, min_eq_right hhi, h.range, h.span] at hnear
  exact hnear.unique ⟨hupper.le, hlower.le⟩ (by decide) (by omega)

/-- Where the value goes from `p` to `p + 1` between neighbours, it is `p + 1` first at the upper one. -/
theorem ReferenceMapper.first_sample {r p : Nat} (hhi : r < 774) (hlast : WithinHalfStep r p)
    (hfirst : WithinHalfStep (r + 1) (p + 1)) :
    (∀ r', mapFn cfg r' = p + 1 → r + 1 ≤ r') ∧ mapFn cfg (r + 1) = p + 1 := by
  refine ⟨fun r' hr' => lt_of_mapFn_lt (cfg := cfg) ?_, h.mapFn_eq hhi hfirst⟩
  rw [hr', h.mapFn_eq hhi.le hlast]
  exact Nat.lt_succ_self p

/-- Every value is taken, at the sample nearest to `250 + p * 524 / 106`. -/
theorem ReferenceMapper.exists_sample {p : Nat} (hp : p ≤ 106) : ∃ r, r ≤ 1024 ∧ mapFn cfg r = p :=
  ⟨250 + (p * 524 + 53) / 106, by omega, h.mapFn_eq (by omega) ⟨by omega, by omega⟩⟩

/-- `q(r)` is a half-integer at two samples only: within the clamp range 1048 divides `212 * d - 524` at the distances 131 and 393. -/
theorem ReferenceMapper.tie_iff (r : Nat) :
    2 * ((clamp cfg r - 250) * 106) % 1048 = 524 ↔ r = 381 ∨ r = 643 := by
  rw [h.distance_eq]
  omega

theorem ReferenceMapper.values_at_ties :
    mapHalfAway cfg 131 = 27 ∧ mapHalfAway cfg 393 = 80 ∧ mapHalfEven cfg 131 = 26 ∧ mapHalfEven cfg 393 = 80 := by
  simp [mapHalfAway, mapHalfEven, h.range, h.span]

/-- The modes differ at no sample but a tie (`mapHalfAway_eq_mapHalfEven`), and of the two ties at 381 only. -/
theorem ReferenceMapper.modes_differ_iff (r : Nat) :
    mapHalfAway cfg (clamp cfg r - 250) ≠ mapHalfEven cfg (clamp cfg r - 250) ↔ r = 381 := by
  obtain ⟨away381, away643, even381, even643⟩ := h.values_at_ties
  constructor
  · intro hdiffer
    have htie : 2 * ((clamp cfg r - 250) * 106) % 1048 = 524 := by
      by_contra hno
      refine hdiffer (mapHalfAway_eq_mapHalfEven ?_)
      rw [h.range, h.span]
      exact hno
    rcases (h.tie_iff r).1 htie with rfl | rfl
    · rfl
    · rw [h.distance_eq] at hdiffer
      exact absurd (away643.trans even643.symm) hdiffer
  · rintro rfl
    rw [h.distance_eq]
    show mapHalfAway cfg 131 ≠ mapHalfEven cfg 131
    rw [away381, even381]
    decide

end

/-- Settles O36: monotony is `mapFn_mono`; the values of the reference constants are within half a step. -/
theorem mapFnIsMonotone : Obligations.MapFnIsMonotone := by
  refine ⟨fun cfg r r' => mapFn_mono cfg, fun cfg hw hsw hlo hhi => ?_⟩
  have h := referenceMapper_of_parameters hw hsw hlo hhi
  obtain ⟨least1, at1⟩ := h.first_sample (r := 252) (p := 0) (by decide) (by decide) (by decide)
  obtain ⟨least51, at51⟩ := h.first_sample (r := 499) (p := 50) (by decide) (by decide) (by decide)
  obtain ⟨least106, at106⟩ := h.first_sample (r := 771) (p := 105) (by decide) (by decide) (by decide)
  exact ⟨fun p => h.exists_sample, least1, at1, least51, at51, least106, at106⟩

/-- Settles O38: the ties are `ReferenceMapper.tie_iff`, and of the two only the first parts the modes. -/
theorem tiesOfTheReferenceConstants : Obligations.TiesOfTheReferenceConstants := by
  intro cfg hw hsw hlo hhi
  have h := referenceMapper_of_parameters hw hsw hlo hhi
  obtain ⟨away381, away643, even381, even643⟩ := h.values_at_ties
  refine ⟨fun r _ => h.tie_iff r, ?_, ?_, away381, away643, even381, even643, fun r _ => h.modes_differ_iff r,
    h.mapFn_eq (by decide) (by decide)⟩
  · rw [h.distance_eq]
    decide
  · rw [h.distance_eq]
    decide

/-! ## MAP's plan and a silent ADC (43_input_mapper.md R232, R233) -/

/-- Settles O25: the plan is `requestPlan`, one `Sample`. -/
theorem mapPlansOneSample : Obligations.MapPlansOneSample :=
  fun s => ⟨requestPlan s.cfg .map, exec_request (bs := requestBytes .map) rfl s, rfl⟩

/-- What holds of the next `n` inputs of the script and of the quiet inputs after it holds at each of `n` edges. -/
theorem inputAt_of_take {s : State} {P : Inputs → Prop} (quiet : P quietInputs) {n k : Nat}
    (h : ∀ inp ∈ s.inputs.take n, P inp) (hk : k < n) : P ((s.inputs.drop k).headD quietInputs) := by
  rw [List.headD_eq_head?_getD, List.head?_drop]
  cases hat : s.inputs[k]? with
  | none => exact quiet
  | some inp => exact h inp (List.mem_of_getElem? ((List.getElem?_take_of_lt hk).trans hat))

/-- `s` after `k` edges, of which the first asked for a sample and none brought it. -/
def State.asking (s : State) (k : Nat) : State := { s.waited k .adc with adcWait := true }

theorem asking_started (s : State) (k : Nat) : (s.asking k).started = s.asking (k + 1) := by
  simp [State.asking, State.started, State.popInputs, State.waited]

/-- Without an acknowledgement nothing moves after the edge that asks (43_input_mapper.md R233). -/
theorem runEdges_asking {s : State} {m : Mark} {items : List PlanItem} {n : Nat} (hf : s.fsm = .exec)
    (hph : s.phase = .ready) (hp : s.plan = ⟨.sample, m⟩ :: items)
    (silent : ∀ inp ∈ s.inputs.take n, inp.rst = false ∧ inp.adcAck = false) :
    ∀ k, k < n → runEdges (k + 1) s = .next (s.asking (k + 1)) := by
  have noReset : s.NoReset n := fun inp hinp => (silent inp hinp).1
  intro k
  induction k with
  | zero =>
    intro h0
    refine runEdges_snoc (runEdges_zero s) ?_
    rw [step_sample hf hp (noReset_now noReset h0), started_eq_waited]
    simp only [State.sampleEdge, State.waited, State.asking, hph]
  | succ k ih =>
    intro hk
    have noAck : (s.asking (k + 1)).inputNow.adcAck = false := (inputAt_of_take ⟨rfl, rfl⟩ silent hk).2
    refine runEdges_snoc (ih (by omega)) ?_
    rw [step_sample (s := s.asking (k + 1)) hf hp (noReset_at noReset hk), asking_started, State.sampleEdge, noAck]
    rfl

/-- Settles O40: however many edges have passed, the state is `State.asking`. -/
theorem silentAdcHoldsTheBlock : Obligations.SilentAdcHoldsTheBlock := by
  intro s k hf hph hp silent
  have hbusy : (s.asking (k + 1)).busy = true := by rw [State.busy, show (s.asking (k + 1)).fsm = .exec from hf]; rfl
  refine ⟨s.asking (k + 1), runEdges_asking hf hph hp silent k (Nat.lt_succ_self k), hf, rfl, ?_, ?_, rfl, rfl⟩
  · exact (statusLayout_bits _ _ _ _ _).1.trans hbusy
  · rw [State.rqReady, hbusy]
    rfl

end Sys2Proof.Machine
end

section
/-! Faults (60_exceptions.md): the two misspelled bytes, fault entry, and the FAULT state (R301-R303). -/

namespace Sys2Proof.Machine

/-! ## The misspelled bytes (60_exceptions.md R301) -/

theorem spellingFault_illegalOp {b : Byte} (h : b.toNat = 0 ∨ 6 < b.toNat) : spellingFault [b] = some .illegalOp := by
  have notOp : isRequestOp b = false := decide_eq_false (by omega)
  simp [spellingFault, notOp]

theorem spellingFault_sendLen {opc len : Byte} (h : 16 < len.toNat) : spellingFault [0x01, opc, len] = some .sendLen :=
  if_pos ⟨rfl, h⟩

theorem held_of_rqCnt_zero {s : State} (h : s.rqCnt = 0) : s.held = [] := by simp [State.held, h]

theorem held_of_rqCnt_two {s : State} (h : s.rqCnt = 2) : s.held = [s.rq[0], s.rq[1]] := by
  rw [State.held, h]
  refine List.ext_getElem (by simp) fun n _ hn => ?_
  match n, hn with
  | 0, _ => simp
  | 1, _ => simp

/-! ## Fault entry (60_exceptions.md R302) -/

theorem setIfInBounds_eq_set {α : Type} {n i : Nat} (v : Vector α n) (a : α) (h : i < n) :
    v.setIfInBounds i a = v.set i a :=
  Vector.ext fun j hj => by rw [Vector.getElem_setIfInBounds hj, Vector.getElem_set]

/-- The edge at which a misspelled byte transfers: the byte enters the buffer, and `Fault(c)` is entered. -/
theorem step_of_spellingFault {s : State} {inp : Inputs} {rest : List Inputs} {c : FaultCause} {n : Nat}
    (hin : s.inputs = inp :: rest) (hr : inp.rst = false) (hv : inp.rqValid = true)
    (hf : s.fsm = .idle ∨ s.fsm = .assemble) (hcnt : s.rqCnt.toNat = n) (hn : n < 19)
    (hs : spellingFault (s.held ++ [inp.rqData]) = some c) :
    step s = .next { s with
      inputs := rest, rstPrev := false, rq := s.rq.set n inp.rqData, rqCnt := 0, fsm := .fault, faultCause := c,
      plan := [] } := by
  have hnow : s.inputNow = inp := by simp [State.inputNow, hin]
  have hrest : s.inputs.tail = rest := by rw [hin, List.tail_cons]
  have hedge : s.edge = s.started.transfer inp.rqData := hnow ▸ edge_of_byte hf (hnow ▸ hr) (hnow ▸ hv)
  have hheld : s.started.held = s.held := rfl
  have hroom : s.started.rqCnt.toNat < 19 := hcnt.trans_lt hn
  rcases transfer_cases s.started inp.rqData with ⟨hfull, _⟩ | ⟨_, ⟨c', hc, e⟩ | ⟨hnone, _⟩⟩
  · omega
  · obtain rfl : c = c' := Option.some.inj (hs.symm.trans (hheld ▸ hc))
    rw [step_of_settled (hedge.trans e), ← hrest, ← setIfInBounds_eq_set _ _ hn, ← hcnt]
    rfl
  · rw [hheld, hs] at hnone
    cases hnone

/-- Settles O11: both are fault entry by `step_of_spellingFault`, for a first byte and for the third of a SEND. -/
theorem misspelledRequestFaults : Obligations.MisspelledRequestFaults := by
  refine fun s inp rest hin hr hv => ⟨fun hf hcnt hop => ?_, fun hf hcnt hsend hlen => ?_⟩
  · refine step_of_spellingFault hin hr hv (.inl hf) (by rw [hcnt]; rfl) (by decide) ?_
    rw [held_of_rqCnt_zero hcnt]
    exact spellingFault_illegalOp hop
  · refine step_of_spellingFault hin hr hv (.inr hf) (by rw [hcnt]; rfl) (by decide) ?_
    rw [held_of_rqCnt_two hcnt, hsend]
    exact spellingFault_sendLen hlen

/-! ## The FAULT state (60_exceptions.md R303) -/

theorem step_of_fault {s : State} (hf : s.fsm = .fault) (hr : s.inputNow.rst = false) : step s = .next s.started := by
  refine step_of_settled ((edge_of_work hr).trans ?_)
  simp only [State.workEdge, State.started, popInputs_fsm, hf]

/-- Bits 3 and 4 of the status word's layout are FAULT_CAUSE (10_state.md R50). -/
theorem statusLayout_cause (valid faulted done busy : Bool) (c : FaultCause) :
    (0#2 ++ BitVec.ofBool valid ++ causeCode c ++ BitVec.ofBool faulted ++ BitVec.ofBool done
      ++ BitVec.ofBool busy : Byte).extractLsb' 3 2 = causeCode c := by
  revert valid faulted done busy
  cases c <;> decide

/-- Settles O12: the edge reads the inputs off and no more (`step_of_fault`); the status word's bits are its layout's. -/
theorem faultStateDiscardsBytes : Obligations.FaultStateDiscardsBytes := by
  intro s hf hr
  have notBusy : s.busy = false := by rw [State.busy, hf]; rfl
  have faulted : s.faulted = true := by rw [State.faulted, hf]; rfl
  obtain ⟨bit0, _, bit2, _⟩ := statusLayout_bits s.mapValid s.faulted s.initDone s.busy s.faultCause
  refine ⟨step_of_fault hf hr, ?_, bit2.trans faulted, bit0.trans notBusy, statusLayout_cause _ _ _ _ _⟩
  rw [State.rqReady, notBusy]
  rfl

end Sys2Proof.Machine
end

section
/-! The configuration is fixed while the block runs (10_state.md R57, 70_reset_and_hazards.md R336): each part of a step that
`step_inv` names leaves it, a reset edge included. -/

namespace Sys2Proof.Machine

/-- No meaning writes the configuration. -/
theorem exec_cfg {i : Instr} {s t : State} (h : exec i s = .next t) : t.cfg = s.cfg := by
  cases i <;> cases h <;> rfl

/-! ## The edges of a micro-operation -/

theorem byteEdge_cfg (s : State) (inp : Inputs) (b : Byte) (m : Mark) : (s.byteEdge inp b m).cfg = s.cfg := by
  rcases byteEdge_cases s inp b m with
    ⟨_, e⟩ | ⟨_, _, e⟩ | ⟨_, _, e⟩ | ⟨_, _, e⟩ | ⟨_, _, e⟩ | ⟨_, e⟩ <;> rw [e]
  case inr.inr.inl => exact finish_cfg _ m
  all_goals rfl

theorem waitEdge_cfg (s : State) (ms : Nat) (m : Mark) : (s.waitEdge ms m).cfg = s.cfg := by
  rcases waitEdge_cases s ms m with ⟨_, _, e⟩ | ⟨_, _, e⟩ | ⟨_, e⟩ <;> rw [e]
  exact finish_cfg _ m

theorem sampleEdge_cfg (s : State) (inp : Inputs) (m : Mark) : (s.sampleEdge inp m).cfg = s.cfg := by
  rcases sampleEdge_cases s inp m with ⟨r, _, e⟩ | ⟨_, _, e⟩ | ⟨_, _, e⟩ | ⟨_, _, e⟩ <;> rw [e]
  exact finish_cfg _ m

/-! ## The edges of the sequencer -/

theorem cfg_of_sequence_settled {s t : State} {inp : Inputs} (h : s.sequence inp = .settled t) : t.cfg = s.cfg := by
  rcases sequence_settled h with ⟨_, rfl⟩ | ⟨op, m, items, _, hc⟩
  · rfl
  · rcases hc with ⟨_, _, _, _, rfl⟩ | ⟨_, _, rfl⟩ | ⟨_, _, _, _, rfl⟩ | ⟨_, _, _, rfl⟩ | ⟨_, _, _, rfl⟩ |
      ⟨b, _, rfl⟩ | ⟨ms, _, rfl⟩ | ⟨v, _, rfl⟩ | ⟨_, rfl⟩
    · rfl
    · exact finish_cfg s m
    · exact finish_cfg s m
    · exact finish_cfg s m
    · exact finish_cfg s m
    · exact byteEdge_cfg s inp b m
    · exact waitEdge_cfg s ms m
    · exact finish_cfg _ m
    · exact sampleEdge_cfg s inp m

/-- The panel command a frame ends with runs on a state whose configuration is that of `s`. -/
theorem cfg_of_sequence_run {s v t : State} {inp : Inputs} {i : Instr} (hs : s.sequence inp = .run i v)
    (ht : exec i v = .next t) : t.cfg = s.cfg := by
  obtain ⟨m, items, _, _, _, _, rfl⟩ := sequence_run hs
  exact (exec_cfg ht).trans (finish_cfg s m)

/-! ## The step -/

/-- Settles O52: by what a step can do. Reset, request assembly, the sequencer and the instruction an edge runs each keep
the configuration. -/
theorem stepKeepsTheConfiguration : Obligations.StepKeepsTheConfiguration := by
  intro s t hstep
  change t.cfg = s.started.cfg
  rcases step_inv hstep with ⟨_, rfl⟩ | ⟨_, _, rfl⟩ | ⟨_, _, _, _, b, _, hb⟩ | ⟨_, _, hs | ⟨i, v, hs, ht⟩⟩
  · exact resetEdge_cfg s.popInputs
  · exact popInputs_cfg s
  · rcases hb with ⟨c, _, rfl⟩ | ⟨i, _, ht⟩ | ⟨_, _, _, rfl⟩
    · exact raiseFault_cfg (s.started.takeByte b) c
    · exact (exec_cfg ht).trans (takeByte_cfg s.started b)
    · exact takeByte_cfg s.started b
  · exact cfg_of_sequence_settled hs
  · exact cfg_of_sequence_run hs ht

end Sys2Proof.Machine
end
